-- ==== Sys2Proof/Word.lean ====
section
/-! DEFINITION. The widths of the DPE's data (00_scope.md R5): 8-bit samples and output bytes,
16-bit dimensions, 32-bit registers and addresses. -/

namespace Sys2Proof

/-- One grayscale sample, or one byte of the output record. -/
abbrev Byte := BitVec 8

/-- One image dimension or pixel coordinate. -/
abbrev Half := BitVec 16

/-- One register word, one CMD word, one address. -/
abbrev Word := BitVec 32

end Sys2Proof
end

