-- ==== Sys2Proof/Config.lean ====
section
/-! DEFINITION. What one build of the DPE fixes (00_scope.md R5), and the free values: the draws of
R10, each an opaque constant, so that nothing can be proved of the byte it gives. -/

namespace Sys2Proof

/-- The implementation parameters that R5 leaves OPEN. They stand in State, so a statement about every
state is a statement about every build. -/
structure Params where
  /-- P_MAX_WIDTH: entries in each row error buffer, and the largest accepted width. -/
  maxWidth : Nat
  /-- P_SRC_SIZE: bytes of the SRC memory. -/
  srcSize : Nat
  /-- P_OUT_SIZE: bytes of the OUT memory. -/
  outSize : Nat
  deriving DecidableEq, Repr

/-- The legal values of R5. -/
abbrev Params.Legal (p : Params) : Prop :=
  (1 ≤ p.maxWidth ∧ p.maxWidth ≤ 65535) ∧ (1 ≤ p.srcSize ∧ p.srcSize ≤ 4294967295) ∧
    (1 ≤ p.outSize ∧ p.outSize ≤ 4294967295)

namespace Config

/-- The example configuration of R6, which the vectors of 95_test_vectors.md use. -/
def exampleParams : Params := { maxWidth := 576, srcSize := 65536, outSize := 65536 }

/-- P_ACC_BITS of this hardware (R5). -/
def accBits : Nat := 16

/-- FREE VALUE: what SRC address `a` holds after the reset whose draw is number `epoch` (10_state.md R46). -/
opaque freeSrc (epoch a : Nat) : Byte

/-- FREE VALUE: what OUT address `a` holds after the reset whose draw is number `epoch` (10_state.md R46). -/
opaque freeOut (epoch a : Nat) : Byte

/-- FREE VALUE: what OUT address `a` holds after the ABORT whose draw is number `n` (42_commands.md R204). -/
opaque freeAbort (n a : Nat) : Byte

/-- FREE VALUE: what the OUT read while BUSY whose draw is number `n` returns (70_reset_and_hazards.md R275). -/
opaque freeRead (n : Nat) : Byte

/-- OPEN: where the platform puts the REG space on its bus (20_memory.md R68, which says no rule reads it). -/
opaque regBase : Nat

/-- OPEN: where the platform puts the SRC space on its bus (20_memory.md R68). -/
opaque srcBase : Nat

/-- OPEN: where the platform puts the OUT space on its bus (20_memory.md R68). -/
opaque outBase : Nat

end Config

end Sys2Proof
end

