-- ==== Sys2Proof/Machine/Access.lean ====
section
/-! DEFINITION. What the host can ask of the DPE: the accesses of 20_memory.md R60, R64 and R65, the
program notation of 30_encoding.md R103, and whose turn a step is (R70). -/

namespace Sys2Proof.Machine

/-- The three address spaces of R60. -/
inductive Space where
  | reg
  | src
  | out
  deriving DecidableEq, Repr

/-- The direction of an access. -/
inductive Dir where
  | read
  | write
  deriving DecidableEq, Repr

/-- One host access as R103 encodes it: space, offset, width, direction, data. Every form can be written
down, the forms that R64 and R65 refuse too. A read's data is not used. -/
structure Access where
  space : Space
  addr  : Word
  /-- The width in bits. -/
  width : Nat
  dir   : Dir
  data  : Word
  deriving DecidableEq, Repr

/-- One line of a host program (R103). `poll reg hi lo value` repeats a 32-bit read of the register at
offset `reg` until its bits hi..lo hold `value`. -/
inductive HostOp where
  | access (a : Access)
  | poll (reg : Word) (hi lo : Nat) (value : Word)
  deriving DecidableEq, Repr

/-- Who makes the next move: the host, the engine (R70), or the platform with a reset (R270). -/
inductive Turn where
  | host
  | engine
  | reset
  deriving DecidableEq, Repr

/-- The form R64 and R65 ask for: an aligned 32-bit word below 0x100 in REG, one byte in SRC and OUT. -/
def Access.formOk (a : Access) : Bool :=
  match a.space with
  | .reg => a.width == 32 && a.addr.toNat % 4 == 0 && decide (a.addr.toNat < 0x100)
  | .src | .out => a.width == 8

/-- R65: the address exists in its space. -/
def Access.inRange (p : Params) (a : Access) : Bool :=
  match a.space with
  | .reg => decide (a.addr.toNat < 0x100)
  | .src => decide (a.addr.toNat < p.srcSize)
  | .out => decide (a.addr.toNat < p.outSize)

/-- The access exists (R64, R65). -/
def Access.legal (p : Params) (a : Access) : Bool := a.formOk && a.inRange p

/-- WR32 (R103). -/
def wr32 (off data : Word) : Access := ⟨.reg, off, 32, .write, data⟩

/-- RD32 (R103). -/
def rd32 (off : Word) : Access := ⟨.reg, off, 32, .read, 0⟩

/-- WR8 SRC or OUT (R103). -/
def wr8 (sp : Space) (a : Word) (b : Byte) : Access := ⟨sp, a, 8, .write, b.setWidth 32⟩

/-- RD8 SRC or OUT (R103). -/
def rd8 (sp : Space) (a : Word) : Access := ⟨sp, a, 8, .read, 0⟩

/-- CMD <word> (R103): a write to offset 0x08. -/
def cmd (w : Word) : HostOp := .access (wr32 0x08 w)

/-- WAIT (R103): POLL STATUS.BUSY == 0. -/
def waitOp : HostOp := .poll 0x0C 0 0 0

/-- LOAD SRC from address `a` on (R103). -/
def loadSrc (a : Word) : List Byte → List HostOp
  | [] => []
  | b :: bs => .access (wr8 .src a b) :: loadSrc (a + 1) bs

end Sys2Proof.Machine
end

