-- ==== Sys2Proof/Syntax.lean ====
section
/-! DEFINITION. The rows of spec/opcode_table.json, one constructor each. The four CMD32 rows are the
words a host writes to REG.CMD (30_encoding.md R91). The five CTRL_MODE rows are the operations that the
fields of a CTRL word select for a job (R93, R94); the engine reads them from JOB_CTRL. -/

namespace Sys2Proof

/-- An instruction of the DPE: a command word, or an operation selected by a field of the job's CTRL word. -/
inductive Instr where
  /-- NOP, CMD word 0 (42_commands.md R201). -/
  | nop
  /-- START, CMD word 1 (R202, R203). -/
  | start
  /-- ABORT, CMD word 2 (R204). -/
  | abort
  /-- CLEAR, CMD word 3 (R205). -/
  | clear
  /-- QUANT_FS, CTRL bit 0 = 1: one Floyd-Steinberg pixel (40_dither.md R136). -/
  | quantFs
  /-- QUANT_DIRECT, CTRL bit 0 = 0: one direct-threshold pixel (40_dither.md R138). -/
  | quantDirect
  /-- OUT_RASTER, CTRL bits 3:2 = 0, INVERT in bit 1: emission of the RASTER record (30_encoding.md R97). -/
  | outRaster (invert : Bool)
  /-- OUT_COLUMN, CTRL bits 3:2 = 1, INVERT in bit 1: emission of the COLUMN record (30_encoding.md R98). -/
  | outColumn (invert : Bool)
  /-- OUT_PACKED, CTRL bits 3:2 = 2, INVERT in bit 1: emission of the PACKED record (30_encoding.md R99). -/
  | outPacked (invert : Bool)
  deriving DecidableEq, Repr

end Sys2Proof
end

