-- ==== Sys2Proof/WellFormed.lean ====
section
/-! DEFINITION. Which instructions and which host operations are well formed. -/

namespace Sys2Proof

/-- Every instruction that can be written is well formed: the only operand of the table is the one bit
INVERT, and a Bool holds nothing else (30_encoding.md R91, R94). -/
def Instr.wellFormed (i : Instr) : Bool :=
  match i with
  | .nop | .start | .abort | .clear => true
  | .quantFs | .quantDirect => true
  | .outRaster _ | .outColumn _ | .outPacked _ => true

namespace Machine

/-- A host operation is well formed when its access has the form of 20_memory.md R64 and R65; a poll
reads a register word, and names a field of it. -/
def HostOp.wellFormed (op : HostOp) : Bool :=
  match op with
  | .access a => a.formOk
  | .poll r hi lo _ => (rd32 r).formOk && decide (lo ≤ hi) && decide (hi < 32)

end Machine

end Sys2Proof
end

