-- ==== Sys2Proof/Decode.lean ====
section
/-! DEFINITION. The decoder, total on any bytes, and the encoder (30_encoding.md R91 to R94, R102).
One number can be a command word and a CTRL word: what it encodes depends on the port it stands at. -/

namespace Sys2Proof

/-- Where a word is decoded: at REG.CMD (format CMD32), or in the CTRL word of a job, whose DITHER_EN field
and OUT_FMT field each select an operation (format CTRL_MODE). -/
inductive Port where
  | cmd
  | quant
  | record
  deriving DecidableEq, Repr

/-- Why a word is no instruction. -/
inductive DecodeError where
  /-- Fewer than four bytes: R102 gives every command one 32-bit word. -/
  | truncated
  /-- A CMD word that R91 does not list (R92). -/
  | reservedCommand (w : Word)
  /-- OUT_FMT = 3 (R93). -/
  | reservedFormat
  deriving DecidableEq, Repr

/-- DITHER_EN, bit 0 of a CTRL word (R94). -/
def ditherBit (w : Word) : Bool := w.getLsbD 0

/-- INVERT, bit 1 of a CTRL word (R94). -/
def invertBit (w : Word) : Bool := w.getLsbD 1

/-- OUT_FMT, bits 3:2 of a CTRL word (R93). -/
def formatField (w : Word) : BitVec 2 := w.extractLsb' 2 2

/-- R91, R92: the whole word is the opcode. -/
def decodeCmd (w : Word) : Except DecodeError Instr :=
  if w = 0x00000000#32 then .ok .nop
  else if w = 0x00000001#32 then .ok .start
  else if w = 0x00000002#32 then .ok .abort
  else if w = 0x00000003#32 then .ok .clear
  else .error (.reservedCommand w)

/-- R94: DITHER_EN selects the quantiser; no other bit matters. -/
def decodeQuant (w : Word) : Except DecodeError Instr :=
  if ditherBit w then .ok .quantFs else .ok .quantDirect

/-- R93, R94: OUT_FMT selects the record, INVERT is its operand; no other bit matters. -/
def decodeRecord (w : Word) : Except DecodeError Instr :=
  if formatField w = 0#2 then .ok (.outRaster (invertBit w))
  else if formatField w = 1#2 then .ok (.outColumn (invertBit w))
  else if formatField w = 2#2 then .ok (.outPacked (invertBit w))
  else .error .reservedFormat

/-- The instruction a word encodes at a port. -/
def decodeWord (p : Port) (w : Word) : Except DecodeError Instr :=
  match p with
  | .cmd => decodeCmd w
  | .quant => decodeQuant w
  | .record => decodeRecord w

/-- R63: a word presented as bytes has bits 7:0 first. -/
def wordOfBytes (b0 b1 b2 b3 : Byte) : Word := b3 ++ b2 ++ b1 ++ b0

/-- R63: the four bytes of a word, lowest address first. -/
def bytesOfWord (w : Word) : List Byte :=
  [w.extractLsb' 0 8, w.extractLsb' 8 8, w.extractLsb' 16 8, w.extractLsb' 24 8]

/-- The instruction that the first word of a byte sequence encodes, and the bytes after it (R63, R102). -/
def decode (p : Port) (bytes : List Byte) : Except DecodeError (Instr × List Byte) :=
  match bytes with
  | b0 :: b1 :: b2 :: b3 :: rest =>
    match decodeWord p (wordOfBytes b0 b1 b2 b3) with
    | .ok i => .ok (i, rest)
    | .error e => .error e
  | _ => .error .truncated

/-- The port at which an instruction is encoded (the table's format CMD32 or CTRL_MODE). -/
def Instr.port (i : Instr) : Port :=
  match i with
  | .nop | .start | .abort | .clear => .cmd
  | .quantFs | .quantDirect => .quant
  | .outRaster _ | .outColumn _ | .outPacked _ => .record

/-- The bits of a word that say which instruction it is and what its operand is: the table's mask, and bit 1
(INVERT) for the OUT rows. -/
def Instr.mask (i : Instr) : Word :=
  match i with
  | .nop | .start | .abort | .clear => 0xFFFFFFFF#32
  | .quantFs | .quantDirect => 0x00000001#32
  | .outRaster _ | .outColumn _ | .outPacked _ => 0x0000000E#32

/-- INVERT in its place, bit 1 (R94). -/
def invertWord (invert : Bool) : Word := if invert then 0x00000002#32 else 0x00000000#32

/-- The word of an instruction, every bit outside its mask 0 (R91, R93, R94). -/
def encodeWord (i : Instr) : Word :=
  match i with
  | .nop => 0x00000000#32
  | .start => 0x00000001#32
  | .abort => 0x00000002#32
  | .clear => 0x00000003#32
  | .quantFs => 0x00000001#32
  | .quantDirect => 0x00000000#32
  | .outRaster invert => 0x00000000#32 ||| invertWord invert
  | .outColumn invert => 0x00000004#32 ||| invertWord invert
  | .outPacked invert => 0x00000008#32 ||| invertWord invert

/-- The bytes of an instruction. -/
def encode (i : Instr) : List Byte := bytesOfWord (encodeWord i)

/-- DESIGN CHOICE (log 8), for a CTRL word of which only ONE row is wanted: OUT_COLUMN and OUT_PACKED where
OUT_FMT names them, OUT_RASTER where OUT_FMT is 0 and INVERT is set, else the row DITHER_EN selects. -/
def ctrlRowPort (w : Word) : Port :=
  if formatField w = 1#2 then .record
  else if formatField w = 2#2 then .record
  else if formatField w = 0#2 && invertBit w then .record
  else .quant

/-- The port at which the table's word `w` of `nbits` bits is read: a word of 32 bits that is a command is
read at CMD, every other word is read as a CTRL word (log 8). -/
def tablePort (nbits : Nat) (w : Word) : Port :=
  if 32 ≤ nbits ∧ w.toNat < 4 then .cmd else ctrlRowPort w

/-- The word of the instruction whose low `nbits` bits are those of `w` and whose other bits are 0. -/
def tableWord (nbits w : Nat) : Word := BitVec.ofNat 32 (w % 2 ^ nbits)

/-- The instruction that the decoder reads from a row's bits (log 8 says how the port is found). -/
def decodeTableWord (nbits w : Nat) : Option Instr :=
  match decode (tablePort nbits (tableWord nbits w)) (bytesOfWord (tableWord nbits w)) with
  | .ok (i, _) => some i
  | .error _ => none

end Sys2Proof
end

