-- ==== Sys2Proof/Machine/State.lean ====
section
/-! DEFINITION. The state of the DPE (10_state.md R20), the model's own fields beside it, and the reasons
for which a step can stop. -/

namespace Sys2Proof.Machine

/-- The sequencer's phase (R35). -/
inductive Phase where
  | idle
  | hdr
  | pix
  | fin
  deriving DecidableEq, Repr

/-- The values of STATUS.ERR_CODE (30_encoding.md R101); codes 8 to 15 are never produced and have no name. -/
inductive ErrCode where
  | none
  | invalidDimensions
  | widthUnsupported
  | reservedFormat
  | srcRange
  | outRange
  | reservedCommand
  | aborted
  deriving DecidableEq, Repr

/-- STATUS (R25); the reserved bits read 0 and are not stored. -/
structure Status where
  busy    : Bool
  done    : Bool
  err     : Bool
  cmdIgn  : Bool
  errCode : ErrCode
  deriving DecidableEq, Repr

/-- A byte memory: the bytes that have been written since the last reset, by rising address. -/
abbrev Memory := List Host.Cell

/-- The state of the DPE, its host and its schedule. -/
structure State where
  /-- P_MAX_WIDTH, P_SRC_SIZE, P_OUT_SIZE, which CAPS0, SRCSZ and OUTSZ show (R30 to R32). -/
  cfg     : Params
  /-- CTRL (R21, R22). -/
  ctrl    : BitVec 4
  /-- DIM (R23). -/
  dim     : Word
  /-- STATUS (R25). -/
  status  : Status
  /-- OUT_LEN (R27). -/
  outLen  : Word
  /-- JOB_CTRL (R34). -/
  jobCtrl : BitVec 4
  /-- JOB_W (R34). -/
  jobW    : Half
  /-- JOB_H (R34). -/
  jobH    : Half
  /-- PHASE (R35). -/
  phase   : Phase
  /-- X (R36). -/
  x       : Half
  /-- Y (R36). -/
  y       : Half
  /-- WPTR (R37). -/
  wptr    : Word
  /-- E_CARRY (R38), as the integer that R135 goes on with. -/
  eCarry  : Int
  /-- CUR_ERR (R39). -/
  curErr  : List Int
  /-- NXT_ERR (R39). -/
  nxtErr  : List Int
  /-- PACK_SR (R40). -/
  packSr  : Byte
  /-- SRC (20_memory.md R60, R61). -/
  src     : Memory
  /-- OUT (20_memory.md R60, R62). -/
  out     : Memory
  /-- HZ_SRC (R42). -/
  hzSrc   : Bool
  /-- HZ_OUT (R42). -/
  hzOut   : Bool
  /-- ACC_OVF (R42). -/
  accOvf  : Bool
  /-- The model's own: the bit b on its way from the quantiser to the packer inside one STEP_PIX (R41, log 6). -/
  pixBit  : Bool
  /-- The model's own: the number of the draw that SRC and OUT took at the last reset (log 4). -/
  memEpoch : Nat
  /-- The model's own: the number of the next draw (log 5). -/
  draws   : Nat
  /-- The model's own: what the host still does, in its order (log 1). -/
  host    : List HostOp
  /-- The model's own: who moves in the next steps (log 1). -/
  sched   : List Turn
  /-- The model's own: what the host's reads returned, newest first (log 14). -/
  hostReads : List Word
  deriving DecidableEq, Repr

/-- The stops that stand for a place the spec says does not exist. Each is raised by an engine operation, each
in states no run reaches (log 11), and each is safe: the machine stops where nothing is defined. -/
inductive Fault where
  /-- QUANT_FS and QUANT_DIRECT: the sample's address is not below P_SRC_SIZE (R60). Safe. -/
  | engineSrcRange
  /-- OUT_RASTER, OUT_COLUMN and OUT_PACKED: the byte's address is not below P_OUT_SIZE (R60). Safe. -/
  | engineOutRange
  /-- QUANT_FS: the job's columns are not entries of the row buffers, or X is no column of the job (R36, R39). Safe. -/
  | rowBufferRange
  /-- STEP_HDR and STEP_PIX: JOB_FMT is 3, which START never accepts (30_encoding.md R93). Safe. -/
  | reservedJobFormat
  deriving DecidableEq, Repr

/-- The stops that stand for a step the spec says there is not. -/
inductive Refusal where
  /-- exec: an instruction that has no meaning yet. Safe. -/
  | notModelled (mnemonic : String)
  /-- The host: a REG access that is no aligned 32-bit word below 0x100 (20_memory.md R64). Safe. -/
  | illegalRegAccess
  /-- The host: an SRC or OUT access that is no single byte in range (20_memory.md R65). Safe. -/
  | illegalByteAccess
  deriving DecidableEq, Repr

/-- The state right after reset of a build with parameters `p` (R46). Where R46 says unspecified, the values
are the model's (logs 3, 4). -/
def State.resetWith (p : Params) : State where
  cfg := p
  ctrl := 0
  dim := 0
  status := { busy := false, done := false, err := false, cmdIgn := false, errCode := .none }
  outLen := 0
  jobCtrl := 0
  jobW := 0
  jobH := 0
  phase := .idle
  x := 0
  y := 0
  wptr := 0
  eCarry := 0
  curErr := List.replicate p.maxWidth 0
  nxtErr := List.replicate p.maxWidth 0
  packSr := 0
  src := []
  out := []
  hzSrc := false
  hzOut := false
  accOvf := false
  pixBit := false
  memEpoch := 0
  draws := 1
  host := []
  sched := []
  hostReads := []

/-- The state right after reset, of the build R6 gives as its example (log 2). -/
def State.reset : State := State.resetWith Config.exampleParams

end Sys2Proof.Machine
end

