-- ==== Sys2Proof/Machine/Operands.lean ====
section
/-! DEFINITION. The operands the registers hold (30_encoding.md R93 to R96, R100) and the addresses the
engine computes (20_memory.md R61, 41_pack.md R171). -/

namespace Sys2Proof.Machine

/-- DITHER_EN of CTRL or JOB_DITHER of JOB_CTRL (R94). -/
def ditherOf (c : BitVec 4) : Bool := c.getLsbD 0

/-- INVERT of CTRL or JOB_INVERT of JOB_CTRL (R94). -/
def invertOf (c : BitVec 4) : Bool := c.getLsbD 1

/-- OUT_FMT of CTRL or JOB_FMT of JOB_CTRL (R93). -/
def fmtOf (c : BitVec 4) : BitVec 2 := c.extractLsb' 2 2

/-- DIM.WIDTH (R95). -/
def widthOf (dim : Word) : Half := dim.extractLsb' 0 16

/-- DIM.HEIGHT (R95). -/
def heightOf (dim : Word) : Half := dim.extractLsb' 16 16

/-- BPR of a width (R96). -/
def bytesPerRow (w : Nat) : Nat := (w + 7) / 8

/-- HL of a format (R100). -/
def headerLen (fmt : BitVec 2) : Nat :=
  if fmt = 0#2 then 8 else if fmt = 1#2 then 5 else 0

/-- L of a job (R100). -/
def recordLen (fmt : BitVec 2) (w h : Nat) : Nat :=
  if fmt = 0#2 then 8 + bytesPerRow w * h
  else if fmt = 1#2 then 5 + w * h
  else bytesPerRow w * h

/-- L of the latched job. -/
def State.jobLen (s : State) : Nat := recordLen (fmtOf s.jobCtrl) s.jobW.toNat s.jobH.toNat

/-- The SRC address of pixel (x, y) in an image of width `w` (R61). -/
def sampleAddr (w x y : Nat) : Nat := y * w + x

/-- The SRC address of the pixel the next STEP_PIX processes (R122). -/
def State.pixelAddr (s : State) : Nat := sampleAddr s.jobW.toNat s.x.toNat s.y.toNat

/-- The OUT address of pixel (x, y) in a column record of height `h` (R171). -/
def columnAddr (h x y : Nat) : Nat := 5 + x * h + y

/-- LE16 of R9: the low byte, then the high byte. -/
def le16 (n : Nat) : List Byte := [BitVec.ofNat 8 (n % 256), BitVec.ofNat 8 (n / 256)]

/-- The header of the RASTER record of a w-by-h image (30_encoding.md R97, 41_pack.md R168). -/
def rasterHeader (w h : Nat) : List Byte :=
  [0x1D#8, 0x76#8, 0x30#8, 0x00#8] ++ le16 (bytesPerRow w) ++ le16 h

/-- The header of the COLUMN record of an image of width `w` (R98, R169). -/
def columnHeader (w : Nat) : List Byte := [0x1B#8, 0x2A#8, 0x21#8] ++ le16 w

/-- The last operation on a data byte: XOR 0xFF when inversion is on (R167). -/
def invertByte (invert : Bool) (b : Byte) : Byte := if invert then b ^^^ 0xFF#8 else b

/-- PACK_SR after one more bit (R164). -/
def shiftIn (sr : Byte) (b : Bool) : Byte := (sr <<< 1) ||| (if b then 1#8 else 0#8)

/-- The byte of a group of `k` bits: left-aligned, its low 8 - k bits 0 (R165). -/
def groupByte (sr : Byte) (k : Nat) : Byte := sr <<< (8 - k)

/-- The byte of one pixel in a column record, before inversion (R171). -/
def pixelByte (b : Bool) : Byte := if b then 0xFF#8 else 0x00#8

/-- Whether STEP_PIX of column `x` completes a byte: the group is full or the row ends (R165). -/
def groupEnds (w x : Nat) : Bool := x % 8 == 7 || x + 1 == w

/-- V of R123, over the integers. -/
def intensity (g : Byte) (fromAbove fromWest : Int) : Int := (g.toNat : Int) + fromAbove + fromWest

/-- R124: white exactly when V > 128. -/
def isWhite (v : Int) : Bool := decide (128 < v)

/-- OUT_LEVEL of R125. -/
def outLevel (v : Int) : Int := if isWhite v then 255 else 0

/-- E of R125. -/
def quantError (v : Int) : Int := v - outLevel v

/-- D(e, w) of R126, P_DIFFUSE = FLOOR: division by 16 rounds toward minus infinity. -/
def share (e w : Int) : Int := e * w / 16

/-- R137: black exactly when G ≥ 128. -/
def directBlack (g : Byte) : Bool := decide (128 ≤ g.toNat)

end Sys2Proof.Machine
end

