-- ==== Sys2Proof/Machine/Flags.lean ====
section
/-! DEFINITION. The only flags of the DPE: the bits of STATUS (10_state.md R25, R44), and the range check
behind the mark ACC_OVF (40_dither.md R135). -/

namespace Sys2Proof.Machine

/-- The number of an error code (30_encoding.md R101). -/
def ErrCode.code (e : ErrCode) : BitVec 4 :=
  match e with
  | .none => 0
  | .invalidDimensions => 1
  | .widthUnsupported => 2
  | .reservedFormat => 3
  | .srcRange => 4
  | .outRange => 5
  | .reservedCommand => 6
  | .aborted => 7

/-- STATUS as the word the host reads (R25): BUSY 0, DONE 1, ERR 2, CMD_IGN 3, ERR_CODE 11:8, the rest 0. -/
def Status.word (st : Status) : Word :=
  0#20 ++ st.errCode.code ++ 0#4 ++
    BitVec.ofBool st.cmdIgn ++ BitVec.ofBool st.err ++ BitVec.ofBool st.done ++ BitVec.ofBool st.busy

/-- What START and CLEAR do to STATUS when idle: DONE, ERR, ERR_CODE and CMD_IGN go to 0 (R202, R205). -/
def Status.cleared (st : Status) : Status :=
  { st with done := false, err := false, cmdIgn := false, errCode := .none }

/-- R135: a value of the signed P_ACC_BITS range. -/
def inAccRange (v : Int) : Bool :=
  decide (-(2 ^ (Config.accBits - 1) : Int) ≤ v) && decide (v < (2 ^ (Config.accBits - 1) : Int))

/-- The range check of R136: V, E, E*7, E*5, E*3, the new E_CARRY and every entry of the new NXT_ERR. -/
def accFits (v e carry : Int) (nxt : List Int) : Bool :=
  inAccRange v && inAccRange e && inAccRange (e * 7) && inAccRange (e * 5) && inAccRange (e * 3) &&
    inAccRange carry && nxt.all inAccRange

end Sys2Proof.Machine
end

