-- ==== Sys2Proof/Machine/Ops.lean ====
section
/-! DEFINITION. The operations every meaning is built from: the byte memories, the row buffers, the error
entry and exit of 60_exceptions.md, and what follows one outcome by another. -/

namespace Sys2Proof.Machine

/-- What an operation answers. -/
abbrev Result := Host.Outcome State Fault Refusal

/-- Go on from a next state; a stop stays as it is. -/
def andThen (o : Result) (f : State → Result) : Result :=
  match o with
  | .next s => f s
  | .fault r => .fault r
  | .refused r => .refused r

/-- The next state, where there is one. -/
def nextState? (o : Result) : Option State :=
  match o with
  | .next s => some s
  | .fault _ => none
  | .refused _ => none

/-! ### Byte memories -/

/-- The canonical form: the addresses rise strictly. -/
abbrev Memory.wf (m : Memory) : Prop := m.Pairwise (fun c d => c.1 < d.1)

/-- The byte listed at an address. An address that is not listed has no byte of its own in the list; what it
reads as is a free value (`State.srcByte`, `State.outByte`; log 4). -/
def Memory.get? : Memory → Nat → Option Byte
  | [], _ => none
  | (k, v) :: m, a => if k = a then some v else Memory.get? m a

/-- The memory with one byte written, in canonical form. -/
def Memory.put : Memory → Nat → Byte → Memory
  | [], a, b => [(a, b)]
  | (k, v) :: m, a, b =>
    if a < k then (a, b) :: (k, v) :: m
    else if a = k then (a, b) :: m
    else (k, v) :: Memory.put m a b

/-- The memory with a byte `f a` at every address `a < n`, and its other bytes as they were. -/
def Memory.fillBelow (m : Memory) (n : Nat) (f : Nat → Byte) : Memory :=
  (List.range n).map (fun a => (a, f a)) ++ m.filter (fun c => decide (n ≤ c.1))

/-- The byte of SRC at an address. -/
def State.srcByte (s : State) (a : Nat) : Byte :=
  (s.src.get? a).getD (Config.freeSrc s.memEpoch a)

/-- The byte of OUT at an address. -/
def State.outByte (s : State) (a : Nat) : Byte :=
  (s.out.get? a).getD (Config.freeOut s.memEpoch a)

/-- MemWrite(OUT, a, 1, b) by the engine (R10); an address that does not exist stops it. -/
def putOut (s : State) (a : Nat) (b : Byte) : Result :=
  if a < s.cfg.outSize then .next { s with out := s.out.put a b } else .fault .engineOutRange

/-- MemWrite of several bytes, from address `a` upwards, first byte first. -/
def putOuts (s : State) (a : Nat) : List Byte → Result
  | [] => .next s
  | b :: bs => andThen (putOut s a b) (fun t => putOuts t (a + 1) bs)

/-! ### Row buffers (10_state.md R39) -/

/-- The buffer with its first `n` entries 0. -/
def zeroFirst : Nat → List Int → List Int
  | 0, l => l
  | _ + 1, [] => []
  | n + 1, _ :: l => 0 :: zeroFirst n l

/-- `dst` with its first `n` entries those of `src`. -/
def copyFirst : Nat → List Int → List Int → List Int
  | n + 1, a :: src, _ :: dst => a :: copyFirst n src dst
  | _, _, dst => dst

/-- The buffer with `d` added to entry `i`. -/
def addAt : Nat → Int → List Int → List Int
  | _, _, [] => []
  | 0, d, v :: l => (v + d) :: l
  | i + 1, d, v :: l => v :: addAt i d l

/-- NXT_ERR after the shares of error `e` of pixel (x, y) of a w-by-h image (40_dither.md R128 to R130). -/
def spread (w h x y : Nat) (e : Int) (nxt : List Int) : List Int :=
  if y + 1 < h then
    let sw := if 1 ≤ x then addAt (x - 1) (share e 3) nxt else nxt
    let so := addAt x (share e 5) sw
    if x + 1 < w then addAt (x + 1) (share e 1) so else so
  else nxt

/-- E_CARRY after the error `e` of column `x` of an image of width `w` (R127). -/
def eastCarry (w x : Nat) (e : Int) : Int := if x + 1 < w then share e 7 else 0

/-! ### Errors (60_exceptions.md) -/

/-- Error entry, the only thing `raise Error(code)` does: ERR and ERR_CODE (R249). -/
def raiseError (e : ErrCode) (s : State) : State :=
  { s with status := { s.status with err := true, errCode := e } }

/-- Error exit: what CLEAR and START do to STATUS when idle (R250). -/
def clearFlags (s : State) : State := { s with status := s.status.cleared }

/-- A command that is ignored because a job runs: CMD_IGN, and nothing else (R203, R205, R206). -/
def ignoreCommand (s : State) : State :=
  { s with status := { s.status with cmdIgn := true } }

/-! ### The host's side -/

/-- A read has returned `w` to the host; it has no other effect (20_memory.md R67). -/
def logRead (w : Word) (s : State) : State := { s with hostReads := w :: s.hostReads }

/-- Reset (70_reset_and_hazards.md R270): every part of the DPE to its value of 10_state.md R46; SRC and OUT
take new draws; the three marks stay, and the host and the schedule are no part of the DPE. -/
def resetEvent (s : State) : State :=
  { State.resetWith s.cfg with
    hzSrc := s.hzSrc, hzOut := s.hzOut, accOvf := s.accOvf
    memEpoch := s.draws, draws := s.draws + 1
    host := s.host, sched := s.sched, hostReads := s.hostReads }

end Sys2Proof.Machine
end

