-- ==== Sys2Proof/Machine/Command.lean ====
section
/-! DEFINITION. The meanings of the CMD32 rows, and of a reserved CMD word (42_commands.md R201 to R206). -/

namespace Sys2Proof.Machine

/-- NOP (R201): nothing, in every phase. -/
def execNop (s : State) : Result := .next s

/-- The START checks of R202 on CTRL, DIM and the parameters: the first that fails, in the order of R248. -/
def startError (p : Params) (ctrl : BitVec 4) (dim : Word) : Option ErrCode :=
  let w := (widthOf dim).toNat
  let h := (heightOf dim).toNat
  if w = 0 ∨ h = 0 then some .invalidDimensions
  else if p.maxWidth < w then some .widthUnsupported
  else if fmtOf ctrl = 3#2 then some .reservedFormat
  else if p.srcSize < w * h then some .srcRange
  else if p.outSize < recordLen (fmtOf ctrl) w h then some .outRange
  else none

/-- What START does first when idle, whether it is accepted or not (R202). -/
def startClear (s : State) : State := { clearFlags s with outLen := 0 }

/-- What an accepted START does then: latch the job and initialise the engine (R202). -/
def beginJob (s : State) : State :=
  let w := widthOf s.dim
  { s with
    jobCtrl := s.ctrl, jobW := w, jobH := heightOf s.dim
    curErr := zeroFirst w.toNat s.curErr, nxtErr := zeroFirst w.toNat s.nxtErr
    eCarry := 0, packSr := 0, x := 0, y := 0
    wptr := BitVec.ofNat 32 (headerLen (fmtOf s.ctrl))
    phase := .hdr
    status := { s.status with busy := true } }

/-- START when idle (R202). -/
def startIdle (s : State) : State :=
  match startError s.cfg s.ctrl s.dim with
  | some e => raiseError e (startClear s)
  | none => beginJob (startClear s)

/-- START (R202, R203). -/
def execStart (s : State) : Result :=
  match s.phase with
  | .idle => .next (startIdle s)
  | .hdr | .pix | .fin => .next (ignoreCommand s)

/-- The bytes an ABORT leaves as draws: OUT[0..L-1] of the aborted job, as far as OUT reaches (R204, R278, log 13). -/
def abortLen (s : State) : Nat := min s.jobLen s.cfg.outSize

/-- ABORT of a running job (R204). -/
def abortJob (s : State) : State :=
  raiseError .aborted
    { s with
      phase := .idle
      status := { s.status with busy := false }
      outLen := 0
      out := s.out.fillBelow (abortLen s) (Config.freeAbort s.draws)
      draws := s.draws + 1 }

/-- ABORT (R204). -/
def execAbort (s : State) : Result :=
  match s.phase with
  | .idle => .next s
  | .hdr | .pix | .fin => .next (abortJob s)

/-- CLEAR (R205). -/
def execClear (s : State) : Result :=
  match s.phase with
  | .idle => .next (clearFlags s)
  | .hdr | .pix | .fin => .next (ignoreCommand s)

/-- A reserved CMD word (R206). -/
def reservedCommand (s : State) : Result :=
  match s.phase with
  | .idle => .next (raiseError .reservedCommand s)
  | .hdr | .pix | .fin => .next (ignoreCommand s)

end Sys2Proof.Machine
end

