-- ==== Sys2Proof/Machine/Dither.lean ====
section
/-! DEFINITION. The meanings of QUANT_FS and QUANT_DIRECT (40_dither.md R136, R138): the quantisation of
pixel (X, Y). The bit b they return goes to the packer through `pixBit` (log 6). Both are performed by
STEP_PIX and by nothing else (R122), so in the other phases they do nothing (log 9). -/

namespace Sys2Proof.Machine

/-- The row buffers have an entry for every column of the job, and X is one of its columns (R36, R39). -/
def State.rowsFit (s : State) : Bool :=
  decide (s.x.toNat < s.jobW.toNat) && decide (s.jobW.toNat ≤ s.curErr.length) &&
    decide (s.jobW.toNat ≤ s.nxtErr.length)

/-- V of pixel (X, Y) (R123). -/
def State.pixelV (s : State) : Int :=
  intensity (s.srcByte s.pixelAddr) (s.curErr.getD s.x.toNat 0) s.eCarry

/-- QUANT_FS on a pixel that exists, as in R136's pseudocode. -/
def quantFsState (s : State) : State :=
  let v := s.pixelV
  let e := quantError v
  let carry := eastCarry s.jobW.toNat s.x.toNat e
  let nxt := spread s.jobW.toNat s.jobH.toNat s.x.toNat s.y.toNat e s.nxtErr
  { s with
    eCarry := carry
    nxtErr := nxt
    accOvf := s.accOvf || !accFits v e carry nxt
    pixBit := !isWhite v }

/-- QUANT_FS in phase PIX: the sample and the entries it needs must exist (log 11). -/
def quantFsPixel (s : State) : Result :=
  if s.pixelAddr < s.cfg.srcSize then
    if s.rowsFit then .next (quantFsState s) else .fault .rowBufferRange
  else .fault .engineSrcRange

/-- QUANT_FS (R136). -/
def execQuantFs (s : State) : Result :=
  match s.phase with
  | .pix => quantFsPixel s
  | .idle | .hdr | .fin => .next s

/-- QUANT_DIRECT in phase PIX. -/
def quantDirectPixel (s : State) : Result :=
  if s.pixelAddr < s.cfg.srcSize then
    .next { s with pixBit := directBlack (s.srcByte s.pixelAddr) }
  else .fault .engineSrcRange

/-- QUANT_DIRECT (R138). -/
def execQuantDirect (s : State) : Result :=
  match s.phase with
  | .pix => quantDirectPixel s
  | .idle | .hdr | .fin => .next s

end Sys2Proof.Machine
end

