-- ==== Sys2Proof/Machine/Pack.lean ====
section
/-! DEFINITION. The meanings of OUT_RASTER, OUT_COLUMN and OUT_PACKED (30_encoding.md R97 to R99): the header
in phase HDR (41_pack.md R168 to R170), the data of pixel (X, Y) in phase PIX (R164, R165, R171). In the
other phases nothing of a record is emitted, so they do nothing (log 9). -/

namespace Sys2Proof.Machine

/-- PACK_BIT (R164). -/
def packBit (s : State) : State := { s with packSr := shiftIn s.packSr s.pixBit }

/-- The byte EMIT_BYTE writes: the left-aligned group, inverted last (R165, R167). -/
def emittedByte (invert : Bool) (s : State) : Byte :=
  invertByte invert (groupByte s.packSr (s.x.toNat % 8 + 1))

/-- EMIT_BYTE (R165). -/
def emitByte (invert : Bool) (s : State) : Result :=
  andThen (putOut s s.wptr.toNat (emittedByte invert s))
    (fun t => .next { t with wptr := t.wptr + 1, packSr := 0 })

/-- The packed formats' part of STEP_PIX (R211): PACK_BIT, and EMIT_BYTE where a byte is complete. -/
def packPixel (invert : Bool) (s : State) : Result :=
  if groupEnds s.jobW.toNat s.x.toNat then emitByte invert (packBit s) else .next (packBit s)

/-- EMIT_COLUMN (R171). -/
def columnPixel (invert : Bool) (s : State) : Result :=
  putOut s (columnAddr s.jobH.toNat s.x.toNat s.y.toNat) (invertByte invert (pixelByte s.pixBit))

/-- OUT_RASTER (R97): HDR_RASTER, then the packed pixels. -/
def execOutRaster (invert : Bool) (s : State) : Result :=
  match s.phase with
  | .hdr => putOuts s 0 (rasterHeader s.jobW.toNat s.jobH.toNat)
  | .pix => packPixel invert s
  | .idle | .fin => .next s

/-- OUT_COLUMN (R98): HDR_COLUMN, then one byte per pixel. -/
def execOutColumn (invert : Bool) (s : State) : Result :=
  match s.phase with
  | .hdr => putOuts s 0 (columnHeader s.jobW.toNat)
  | .pix => columnPixel invert s
  | .idle | .fin => .next s

/-- OUT_PACKED (R99): no header (R170), then the packed pixels. -/
def execOutPacked (invert : Bool) (s : State) : Result :=
  match s.phase with
  | .hdr => .next s
  | .pix => packPixel invert s
  | .idle | .fin => .next s

end Sys2Proof.Machine
end

