-- ==== Sys2Proof/Machine/Dispatch.lean ====
section
/-! DEFINITION. Which meaning each row of spec/opcode_table.json has. -/

namespace Sys2Proof.Machine

def exec (i : Instr) (s : State) : Host.Outcome State Fault Refusal :=
  match i with
  | .nop => Sys2Proof.Machine.execNop s
  | .start => Sys2Proof.Machine.execStart s
  | .abort => Sys2Proof.Machine.execAbort s
  | .clear => Sys2Proof.Machine.execClear s
  | .quantFs => Sys2Proof.Machine.execQuantFs s
  | .quantDirect => Sys2Proof.Machine.execQuantDirect s
  | .outRaster invert => Sys2Proof.Machine.execOutRaster invert s
  | .outColumn invert => Sys2Proof.Machine.execOutColumn invert s
  | .outPacked invert => Sys2Proof.Machine.execOutPacked invert s

end Sys2Proof.Machine
end

