-- ==== Sys2Proof/Machine/Registers.lean ====
section
/-! DEFINITION. The register map (30_encoding.md R90): what a read of each offset returns (42_commands.md
R208) and what a write does (R207); and the host's byte accesses to SRC and OUT (20_memory.md R65,
70_reset_and_hazards.md R273 to R275). -/

namespace Sys2Proof.Machine

/-- GEOM (10_state.md R28): JOB_H above BPR of JOB_W. -/
def State.geom (s : State) : Word := s.jobH ++ BitVec.ofNat 16 (bytesPerRow s.jobW.toNat)

/-- POS (R29): Y above X. -/
def State.pos (s : State) : Word := s.y ++ s.x

/-- CAPS0 (R30). -/
def State.caps0 (s : State) : Word :=
  0#8 ++ BitVec.ofNat 8 Config.accBits ++ BitVec.ofNat 16 s.cfg.maxWidth

/-- The value a read of the REG word at an offset returns (R90, R208). -/
def regRead (off : Word) (s : State) : Word :=
  if off = 0x00#32 then s.ctrl.setWidth 32
  else if off = 0x04#32 then s.dim
  else if off = 0x08#32 then 0
  else if off = 0x0C#32 then s.status.word
  else if off = 0x10#32 then s.outLen
  else if off = 0x14#32 then s.geom
  else if off = 0x18#32 then s.pos
  else if off = 0x1C#32 then s.caps0
  else if off = 0x20#32 then BitVec.ofNat 32 s.cfg.srcSize
  else if off = 0x24#32 then BitVec.ofNat 32 s.cfg.outSize
  else 0

/-- A write of a word to REG.CMD: the command it encodes, in full (42_commands.md R200; R91, R92). -/
def command (w : Word) (s : State) : Result :=
  match decodeWord .cmd w with
  | .ok i => exec i s
  | .error _ => reservedCommand s

/-- A write of a word to REG (R207). -/
def regWrite (off w : Word) (s : State) : Result :=
  if off = 0x00#32 then .next { s with ctrl := w.setWidth 4 }
  else if off = 0x04#32 then .next { s with dim := w }
  else if off = 0x08#32 then command w s
  else .next s

/-- Whether a job runs. -/
def State.running (s : State) : Bool := s.phase != .idle

/-- A host read of SRC. -/
def srcRead (a : Nat) (s : State) : State := logRead ((s.srcByte a).setWidth 32) s

/-- A host write of SRC; while a job runs it sets HZ_SRC, and it is performed (R273). -/
def srcWrite (a : Nat) (b : Byte) (s : State) : State :=
  { s with src := s.src.put a b, hzSrc := s.hzSrc || s.running }

/-- A host read of OUT; while a job runs it returns a draw (R275). -/
def outRead (a : Nat) (s : State) : State :=
  if s.running then
    logRead ((Config.freeRead s.draws).setWidth 32) { s with draws := s.draws + 1 }
  else logRead ((s.outByte a).setWidth 32) s

/-- A host write of OUT; while a job runs it sets HZ_OUT, and it is performed (R274). -/
def outWrite (a : Nat) (b : Byte) (s : State) : State :=
  { s with out := s.out.put a b, hzOut := s.hzOut || s.running }

/-- A legal host access. -/
def legalAccess (a : Access) (s : State) : Result :=
  match a.space, a.dir with
  | .reg, .read => .next (logRead (regRead a.addr s) s)
  | .reg, .write => regWrite a.addr a.data s
  | .src, .read => .next (srcRead a.addr.toNat s)
  | .src, .write => .next (srcWrite a.addr.toNat (a.data.setWidth 8) s)
  | .out, .read => .next (outRead a.addr.toNat s)
  | .out, .write => .next (outWrite a.addr.toNat (a.data.setWidth 8) s)

/-- The refusal of an access that does not exist (R64, R65, log 7). -/
def refuseAccess (a : Access) : Refusal :=
  match a.space with
  | .reg => .illegalRegAccess
  | .src | .out => .illegalByteAccess

/-- One host access. -/
def hostAccess (a : Access) (s : State) : Result :=
  if a.legal s.cfg then legalAccess a s else .refused (refuseAccess a)

/-- Bits hi..lo of a word, as a word (00_scope.md R8). -/
def fieldOf (hi lo : Nat) (w : Word) : Word := (w.extractLsb' lo (hi + 1 - lo)).setWidth 32

/-- One line of the host's program. A POLL makes one read, and stays first in the program while the field has
another value (30_encoding.md R103). -/
def hostOp (op : HostOp) (s : State) : Result :=
  match op with
  | .access a => hostAccess a s
  | .poll off hi lo value =>
    andThen (hostAccess (rd32 off) s) (fun t =>
      if fieldOf hi lo (regRead off s) = value then .next t
      else .next { t with host := .poll off hi lo value :: t.host })

end Sys2Proof.Machine
end

