-- ==== Sys2Proof/Machine/Sequencer.lean ====
section
/-! DEFINITION. The engine's steps (42_commands.md R209 to R214), the turns of host, engine and platform
(20_memory.md R70, log 1), and how an instruction is placed where the next step runs it (log 10). -/

namespace Sys2Proof.Machine

/-- The CTRL word of the running job, as the engine decodes it. -/
def State.jobWord (s : State) : Word := s.jobCtrl.setWidth 32

/-- Run the operation that a field of the job's CTRL word selects. -/
def runField (p : Port) (s : State) : Result :=
  match decodeWord p s.jobWord with
  | .ok i => exec i s
  | .error _ => .fault .reservedJobFormat

/-- ROW_END (R212). -/
def rowEnd (s : State) : State :=
  let w := s.jobW.toNat
  { s with
    curErr := copyFirst w s.nxtErr s.curErr, nxtErr := zeroFirst w s.nxtErr
    eCarry := 0, x := 0, y := s.y + 1
    phase := if s.y + 1 = s.jobH then .fin else s.phase }

/-- The end of STEP_PIX (R211): the next column, or the end of the row; the wire b is idle again (log 6). -/
def advancePixel (s : State) : State :=
  if s.x.toNat + 1 < s.jobW.toNat then { s with x := s.x + 1, pixBit := false }
  else rowEnd { s with pixBit := false }

/-- STEP_HDR (R210). -/
def stepHdr (s : State) : Result :=
  andThen (runField .record s) (fun t => .next { t with phase := .pix })

/-- STEP_PIX (R211). -/
def stepPix (s : State) : Result :=
  andThen (runField .quant s) (fun t =>
    andThen (runField .record t) (fun u => .next (advancePixel u)))

/-- STEP_FIN (R214). -/
def stepFin (s : State) : State :=
  { s with
    outLen := BitVec.ofNat 32 s.jobLen
    status := { s.status with busy := false, done := true }
    phase := .idle }

/-- The engine's turn: the one step PHASE enables, none when IDLE (R209, R271). -/
def engineTurn (s : State) : Result :=
  match s.phase with
  | .idle => .next s
  | .hdr => stepHdr s
  | .pix => stepPix s
  | .fin => .next (stepFin s)

/-- The host's turn: the first line of its program, or nothing. -/
def hostTurn (s : State) : Result :=
  match s.host with
  | [] => .next s
  | op :: rest => hostOp op { s with host := rest }

/-- One turn. -/
def takeTurn (t : Turn) (s : State) : Result :=
  match t with
  | .host => hostTurn s
  | .engine => engineTurn s
  | .reset => .next (resetEvent s)

/-- Who moves when the schedule names nobody: the engine while a job runs, else the host (R282, log 1). -/
def idleTurn (s : State) : Turn := if s.running then .engine else .host

/-- The next move of the whole machine. -/
def nextMove (s : State) : Result :=
  match s.sched with
  | [] => takeTurn (idleTurn s) s
  | t :: ts => takeTurn t { s with sched := ts }

/-- `s` with a job of JOB_CTRL = c in phase `ph` at pixel (0, 0); a job with no pixels becomes a 1-by-1 job,
since the engine works on images only. -/
def placeJob (c : BitVec 4) (ph : Phase) (s : State) : State :=
  { s with
    jobCtrl := c
    jobW := if s.jobW = 0 then 1 else s.jobW
    jobH := if s.jobH = 0 then 1 else s.jobH
    phase := ph
    x := 0, y := 0
    wptr := BitVec.ofNat 32 (headerLen (fmtOf c))
    status := { s.status with busy := true }
    sched := .engine :: s.sched }

/-- `s` with the table's word `w` of `nbits` bits where the next step runs it: a command word as the host's next
write to CMD, a CTRL word in JOB_CTRL with the phase that runs the row (log 10). -/
def placeInstr (s : State) (nbits w : Nat) : State :=
  let word := tableWord nbits w
  match tablePort nbits word with
  | .cmd => { s with host := cmd word :: s.host, sched := .host :: s.sched }
  | .quant => placeJob (if formatField word = 3#2 then (word &&& 3#32).setWidth 4 else word.setWidth 4) .pix s
  | .record => placeJob (word.setWidth 4) .hdr s

end Sys2Proof.Machine
end

