-- ==== Sys2Proof/Machine/Step.lean ====
section
/-! DEFINITION. One step of the machine, and the placing of an instruction where it runs next. -/

namespace Sys2Proof.Machine

/-- One step: one move of the host, the engine or the platform (`nextMove`). -/
def step (s : State) : Host.Outcome State Fault Refusal := nextMove s

/-- `s` with an instruction where `step` runs it next (`placeInstr`). -/
def State.withFetchWord (s : State) (nbits w : Nat) : State := placeInstr s nbits w

end Sys2Proof.Machine
end

