-- ==== Sys2Proof/Safety.lean ====
section
/-! DEFINITION. What claims about the DPE are stated with: the invariants of its states, and the record that
the rules of 40_dither.md and 41_pack.md give for an image, written as functions of the image and not of
the engine. -/

namespace Sys2Proof.Machine

/-! ### Invariants -/

/-- The invariants of STATUS (10_state.md R26). -/
def StatusOk (s : State) : Prop :=
  (s.status.busy = true ↔ s.phase ≠ .idle) ∧
  (s.status.busy = true → s.status.done = false ∧ s.status.err = false ∧ s.status.errCode = .none) ∧
  (s.status.err = false → s.status.errCode = .none)

/-- Both memories have their canonical form and hold only addresses that exist (20_memory.md R60). -/
def MemoryOk (s : State) : Prop :=
  s.src.wf ∧ s.out.wf ∧ (∀ c ∈ s.src, c.1 < s.cfg.srcSize) ∧ (∀ c ∈ s.out, c.1 < s.cfg.outSize)

/-- Each row buffer has P_MAX_WIDTH entries (10_state.md R39). -/
def BuffersOk (s : State) : Prop :=
  s.curErr.length = s.cfg.maxWidth ∧ s.nxtErr.length = s.cfg.maxWidth

/-- The latched job passed the START checks (42_commands.md R202), and OUT_LEN reads 0 (10_state.md R27). -/
def JobOk (s : State) : Prop :=
  fmtOf s.jobCtrl ≠ 3#2 ∧ 1 ≤ s.jobW.toNat ∧ s.jobW.toNat ≤ s.cfg.maxWidth ∧ 1 ≤ s.jobH.toNat ∧
  s.jobW.toNat * s.jobH.toNat ≤ s.cfg.srcSize ∧ s.jobLen ≤ s.cfg.outSize ∧ s.outLen = 0

/-- WPTR and PACK_SR of a packed format at the start of a STEP_PIX (41_pack.md R164, R165). -/
def PackerOk (s : State) : Prop :=
  fmtOf s.jobCtrl ≠ 1#2 →
    s.wptr.toNat = headerLen (fmtOf s.jobCtrl) + s.y.toNat * bytesPerRow s.jobW.toNat + s.x.toNat / 8 ∧
    s.packSr.toNat < 2 ^ (s.x.toNat % 8)

/-- The ranges of X and Y in each phase (10_state.md R36), and the packer's state. -/
def PositionOk (s : State) : Prop :=
  match s.phase with
  | .idle => True
  | .hdr => s.x = 0 ∧ s.y = 0 ∧ PackerOk s
  | .pix => s.x.toNat < s.jobW.toNat ∧ s.y.toNat < s.jobH.toNat ∧ PackerOk s
  | .fin => s.x = 0 ∧ s.y = s.jobH

/-- What holds of every state between two steps. -/
structure StateInv (s : State) : Prop where
  cfg      : s.cfg.Legal
  status   : StatusOk s
  memory   : MemoryOk s
  buffers  : BuffersOk s
  job      : s.phase ≠ .idle → JobOk s
  position : PositionOk s
  wire     : s.pixBit = false

/-! ### Accumulator bounds (40_dither.md R134) -/

/-- `v` lies in [-b, b]. -/
def within (b v : Int) : Prop := -b ≤ v ∧ v ≤ b

/-- How far entry `i` of NXT_ERR can be from 0 when column `x` is next: 8 for each weight it has received. -/
def nxtBound (x i : Nat) : Int :=
  if i + 1 < x then 72 else if i + 1 = x then 48 else if i = x then 8 else 0

/-- The bounds of R134 on the accumulator registers, with the bounds on partial sums that carry them. -/
structure AccOk (s : State) : Prop where
  carry   : within 56 s.eCarry
  cur     : ∀ v ∈ s.curErr, within 72 v
  nxt     : ∀ v ∈ s.nxtErr, within 72 v
  partials : s.phase = .hdr ∨ s.phase = .pix →
    ∀ i, i < s.jobW.toNat → within (nxtBound s.x.toNat i) (s.nxtErr.getD i 0)

/-! ### The dithered image, by the rules -/

/-- V along one row, given its samples and what the row above passed down (R123, R125, R127). -/
def refRow (g down : Nat → Int) : Nat → Int
  | 0 => g 0 + down 0
  | x + 1 => g (x + 1) + down (x + 1) + share (quantError (refRow g down x)) 7

/-- What a row of intensities `v` passes down to column `x` of the next row (R128 to R130). -/
def refDown (w : Nat) (v : Nat → Int) (x : Nat) : Int :=
  (if x + 1 < w then share (quantError (v (x + 1))) 3 else 0) + share (quantError (v x)) 5 +
    (if 1 ≤ x then share (quantError (v (x - 1))) 1 else 0)

/-- V of pixel (x, y), as `refV w img y x`: its sample and the shares of at most four earlier pixels (R133). -/
def refV (w : Nat) (img : Nat → Byte) : Nat → Nat → Int
  | 0 => refRow (fun x => ((img (sampleAddr w x 0)).toNat : Int)) (fun _ => 0)
  | y + 1 =>
    refRow (fun x => ((img (sampleAddr w x (y + 1))).toNat : Int)) (refDown w (refV w img y))

/-- A frame of the source's full-frame algorithm: row, then column. -/
abbrev Frame := Nat → Nat → Int

/-- The frame with `d` added at (x, y). -/
def Frame.add (a : Frame) (y x : Nat) (d : Int) : Frame :=
  fun y' x' => if y' = y ∧ x' = x then a y' x' + d else a y' x'

/-- One pixel of the source's in-place algorithm (R133): quantise A[y][x], add the shares that are in range. -/
def framePixel (w h : Nat) (a : Frame) (y x : Nat) : Frame :=
  let e := quantError (a y x)
  let a := if x + 1 < w then a.add y (x + 1) (share e 7) else a
  if y + 1 < h then
    let a := if 1 ≤ x then a.add (y + 1) (x - 1) (share e 3) else a
    let a := a.add (y + 1) x (share e 5)
    if x + 1 < w then a.add (y + 1) (x + 1) (share e 1) else a
  else a

/-- The frame after the first `n` pixels in raster order; it starts as the image (R133). -/
def frameAfter (w h : Nat) (img : Nat → Byte) : Nat → Frame
  | 0 => fun y x => ((img (sampleAddr w x y)).toNat : Int)
  | n + 1 => framePixel w h (frameAfter w h img n) (n / w) (n % w)

/-! ### The record, by the rules -/

/-- b of pixel (x, y) of a job with CTRL word `c` on a `w`-wide image (R124, R137). -/
def refBit (c : BitVec 4) (w : Nat) (img : Nat → Byte) (x y : Nat) : Bool :=
  if ditherOf c then decide (refV w img y x ≤ 128) else decide (128 ≤ (img (sampleAddr w x y)).toNat)

/-- P(y, j) of 41_pack.md R166: the packed byte of a row, before inversion. -/
def packedByte (w : Nat) (b : Nat → Nat → Bool) (y j : Nat) : Byte :=
  BitVec.ofNat 8 ((List.range 8).map
    (fun i => if 8 * j + i < w ∧ b (8 * j + i) y = true then 2 ^ (7 - i) else 0)).sum

/-- The byte at OUT address `a` of the record of a w-by-h image with pixel bits `b` (30_encoding.md R97 to R99,
41_pack.md R166, R171), for `a` below L. -/
def recordByte (c : BitVec 4) (w h : Nat) (b : Nat → Nat → Bool) (a : Nat) : Byte :=
  let packed := fun n : Nat =>
    invertByte (invertOf c) (packedByte w b (n / bytesPerRow w) (n % bytesPerRow w))
  if fmtOf c = 0#2 then
    if a < 8 then (rasterHeader w h).getD a 0 else packed (a - 8)
  else if fmtOf c = 1#2 then
    if a < 5 then (columnHeader w).getD a 0
    else invertByte (invertOf c) (if b ((a - 5) / h) ((a - 5) % h) then 0xFF#8 else 0x00#8)
  else packed a

/-- The pixel bits that the rules give for the running job and the image in SRC. -/
def State.jobBit (s : State) (x y : Nat) : Bool := refBit s.jobCtrl s.jobW.toNat s.srcByte x y

/-- The record that the rules give for the running job and the image in SRC. -/
def State.jobRecord (s : State) (a : Nat) : Byte :=
  recordByte s.jobCtrl s.jobW.toNat s.jobH.toNat s.jobBit a

/-- V of the rules for the running job. -/
def State.jobV (s : State) (y x : Nat) : Int := refV s.jobW.toNat s.srcByte y x

/-- The accumulator of a dithered job when pixel (X, Y) is next: E_CARRY, CUR_ERR and NXT_ERR hold the shares that
R127 to R130 and R132 give for the pixels processed so far. -/
structure DitherTrack (s : State) : Prop where
  carry : s.eCarry = if s.x.toNat = 0 then 0 else share (quantError (s.jobV s.y.toNat (s.x.toNat - 1))) 7
  cur : ∀ i, i < s.jobW.toNat → s.curErr.getD i 0 =
    if s.y.toNat = 0 then 0 else refDown s.jobW.toNat (s.jobV (s.y.toNat - 1)) i
  nxt : ∀ i, i < s.jobW.toNat → s.nxtErr.getD i 0 =
    if s.y.toNat + 1 < s.jobH.toNat then
      (if i + 1 < s.x.toNat then share (quantError (s.jobV s.y.toNat (i + 1))) 3 else 0) +
      (if i < s.x.toNat then share (quantError (s.jobV s.y.toNat i)) 5 else 0) +
      (if 1 ≤ i ∧ i ≤ s.x.toNat then share (quantError (s.jobV s.y.toNat (i - 1))) 1 else 0)
    else 0

/-- The bits of the current group, shifted into an empty PACK_SR (R164). -/
def State.groupBits (s : State) : Byte :=
  (List.range (s.x.toNat % 8)).foldl
    (fun sr i => shiftIn sr (s.jobBit (8 * (s.x.toNat / 8) + i) s.y.toNat)) 0

/-- What a running job has done so far is what the rules give for its image: the accumulator, PACK_SR, and every
byte of OUT that has been written; in phase FIN that is the whole record (R166, R171, R215). -/
structure Track (s : State) : Prop where
  dither : s.phase = .hdr ∨ s.phase = .pix → ditherOf s.jobCtrl = true → DitherTrack s
  group : s.phase = .hdr ∨ s.phase = .pix → fmtOf s.jobCtrl ≠ 1#2 → s.packSr = s.groupBits
  header : s.phase = .pix → ∀ a, a < headerLen (fmtOf s.jobCtrl) → s.outByte a = s.jobRecord a
  packed : s.phase = .pix → fmtOf s.jobCtrl ≠ 1#2 → ∀ a, a < s.wptr.toNat → s.outByte a = s.jobRecord a
  column : s.phase = .pix → fmtOf s.jobCtrl = 1#2 →
    ∀ x y, x < s.jobW.toNat → y < s.jobH.toNat →
      (y < s.y.toNat ∨ (y = s.y.toNat ∧ x < s.x.toNat)) →
        s.outByte (columnAddr s.jobH.toNat x y) = s.jobRecord (columnAddr s.jobH.toNat x y)
  whole : s.phase = .fin → ∀ a, a < s.jobLen → s.outByte a = s.jobRecord a

/-- No fault mark is set: the premise R42 gives every claim. -/
def NoMark (s : State) : Prop := s.hzSrc = false ∧ s.hzOut = false ∧ s.accOvf = false

end Sys2Proof.Machine
end

