-- ==== Sys2Proof/Certificates/Slice0/Obligations.lean ====
section
/-! DEFINITION. The statements about the DPE, for the provers. Each docstring names the rule of spec/ it
formalises; where it rests on a choice of the model, it names the log entry. -/

open Sys2Proof Sys2Proof.Machine

/-! ### Encoding -/

/-- R91: the whole CMD word is the opcode; four words are commands, every other word is reserved. -/
def Obligations.CmdWordsDecode : Prop :=
  ∀ w : Word,
    (decodeWord .cmd w = .ok .nop ↔ w.toNat = 0) ∧ (decodeWord .cmd w = .ok .start ↔ w.toNat = 1) ∧
    (decodeWord .cmd w = .ok .abort ↔ w.toNat = 2) ∧ (decodeWord .cmd w = .ok .clear ↔ w.toNat = 3) ∧
    (4 ≤ w.toNat → decodeWord .cmd w = .error (.reservedCommand w))

/-- R93, R94: bit 0 of a CTRL word selects the quantiser, bits 3:2 the record, bit 1 is its INVERT operand;
OUT_FMT = 3 is reserved; no other bit matters. -/
def Obligations.CtrlFieldsSelectOperations : Prop :=
  ∀ w : Word,
    (w.toNat % 2 = 1 → decodeWord .quant w = .ok .quantFs) ∧
    (w.toNat % 2 = 0 → decodeWord .quant w = .ok .quantDirect) ∧
    (w.toNat / 4 % 4 = 0 → decodeWord .record w = .ok (.outRaster (w.getLsbD 1))) ∧
    (w.toNat / 4 % 4 = 1 → decodeWord .record w = .ok (.outColumn (w.getLsbD 1))) ∧
    (w.toNat / 4 % 4 = 2 → decodeWord .record w = .ok (.outPacked (w.getLsbD 1))) ∧
    (w.toNat / 4 % 4 = 3 → decodeWord .record w = .error .reservedFormat)

/-- Words written out from the encodings of 30_encoding.md, as bytes in the order of R63, decode to the
instructions they stand for. -/
def Obligations.WrittenOutWordsDecode : Prop :=
  decode .cmd [0x00, 0x00, 0x00, 0x00] = .ok (.nop, []) ∧
  decode .cmd [0x01, 0x00, 0x00, 0x00] = .ok (.start, []) ∧
  decode .cmd [0x02, 0x00, 0x00, 0x00, 0xAA] = .ok (.abort, [0xAA]) ∧
  decode .cmd [0x03, 0x00, 0x00, 0x00] = .ok (.clear, []) ∧
  decode .cmd [0x00, 0x00, 0x00, 0x01] = .error (.reservedCommand 0x01000000) ∧
  decode .quant [0x0B, 0x00, 0x00, 0x00] = .ok (.quantFs, []) ∧
  decode .quant [0x0A, 0x00, 0x00, 0x00] = .ok (.quantDirect, []) ∧
  decode .record [0x03, 0x00, 0x00, 0x00] = .ok (.outRaster true, []) ∧
  decode .record [0x05, 0x00, 0x00, 0x00] = .ok (.outColumn false, []) ∧
  decode .record [0x0B, 0x00, 0x00, 0x00] = .ok (.outPacked true, []) ∧
  decode .record [0x0C, 0x00, 0x00, 0x00] = .error .reservedFormat ∧
  decode .cmd [0x01, 0x00, 0x00] = .error .truncated

/-- Decode and encode agree, for every instruction: a word decodes to `i` at its port exactly when the bits of
`i`'s mask are those of its encoding, whatever the other bits are; and the bytes of `i`, followed by any
bytes, decode to `i` and leave those bytes. -/
def Obligations.DecodeInvertsEncode : Prop :=
  ∀ i : Instr, i.wellFormed = true →
    (∀ w : Word, decodeWord i.port w = .ok i ↔ w &&& i.mask = encodeWord i) ∧
    (∀ rest : List Byte, decode i.port (encode i ++ rest) = .ok (i, rest))

/-! ### One step -/

/-- R200, R66 and log 1: the host's turn performs the access of the host's next line, legal or not, on the state in
which that line of the host's program and that turn are used up; where the line is a CMD write of a word that decodes,
that is exec of the command. With an empty schedule and no job running, the turn is the host's. -/
def Obligations.StepRunsDecodedCommand : Prop :=
  ∀ (s : State) (rest : List HostOp) (ts : List Turn),
    (s.sched = .host :: ts ∨ (s.sched = [] ∧ ts = [] ∧ s.phase = .idle)) →
    (∀ a : Access, s.host = .access a :: rest → step s = hostAccess a { s with host := rest, sched := ts }) ∧
    (∀ (w : Word) (i : Instr), s.host = cmd w :: rest → decodeWord .cmd w = .ok i →
      step s = exec i { s with host := rest, sched := ts })

/-- R209 to R211: the engine's turn runs the operations that JOB_CTRL selects: in phase HDR the record row, then
PHASE goes to PIX; in phase PIX the quantiser and then the record row, then X moves on, or the row ends. With
an empty schedule and a job running, the turn is the engine's (log 1). -/
def Obligations.StepRunsJobOperations : Prop :=
  ∀ (s : State) (ts : List Turn),
    (s.sched = .engine :: ts ∨ (s.sched = [] ∧ ts = [] ∧ s.phase ≠ .idle)) →
    (∀ r t, s.phase = .hdr → decodeWord .record (s.jobCtrl.setWidth 32) = .ok r →
      exec r { s with sched := ts } = .next t → step s = .next { t with phase := .pix }) ∧
    (∀ q r t u, s.phase = .pix → decodeWord .quant (s.jobCtrl.setWidth 32) = .ok q →
      decodeWord .record (t.jobCtrl.setWidth 32) = .ok r →
      exec q { s with sched := ts } = .next t → exec r t = .next u →
      (u.x.toNat + 1 < u.jobW.toNat → step s = .next { u with x := u.x + 1, pixBit := false }) ∧
      (u.jobW.toNat ≤ u.x.toNat + 1 → step s = .next (rowEnd { u with pixBit := false })))

/-- R212 and R132: the end of the STEP_PIX that processed the last column of a row: every entry of CUR_ERR below
JOB_W takes that of NXT_ERR, which goes to 0; E_CARRY and X go to 0; Y moves on; after the last row PHASE goes
to FIN; nothing else of the hardware's state changes. That the model's wire `pixBit` goes to false is no part of those
rules: it is the model's choice (log 6). -/
def Obligations.RowEndMovesBuffers : Prop :=
  ∀ s : State, s.x.toNat + 1 = s.jobW.toNat →
    s.jobW.toNat ≤ s.curErr.length → s.jobW.toNat ≤ s.nxtErr.length →
    let t := advancePixel s
    t = { s with
      curErr := t.curErr, nxtErr := t.nxtErr, eCarry := 0, x := 0, y := s.y + 1, pixBit := false
      phase := if s.y + 1 = s.jobH then .fin else s.phase } ∧
    t.curErr.length = s.curErr.length ∧ t.nxtErr.length = s.nxtErr.length ∧
    ∀ i,
      t.curErr.getD i 0 = (if i < s.jobW.toNat then s.nxtErr.getD i 0 else s.curErr.getD i 0) ∧
      t.nxtErr.getD i 0 = (if i < s.jobW.toNat then 0 else s.nxtErr.getD i 0)

/-- R214: STEP_FIN sets OUT_LEN to L, BUSY to 0, DONE to 1 and PHASE to IDLE, and nothing else of the hardware's state.
That the turn is the engine's when the schedule names it, and also when the schedule is empty, and that a named turn is
used up (`sched := ts`), is the model's choice (log 1). -/
def Obligations.FinStepCompletesJob : Prop :=
  ∀ (s : State) (ts : List Turn), s.sched = .engine :: ts ∨ (s.sched = [] ∧ ts = []) → s.phase = .fin →
    step s = .next { s with
      sched := ts
      outLen := BitVec.ofNat 32 (recordLen (fmtOf s.jobCtrl) s.jobW.toNat s.jobH.toNat)
      status := { s.status with busy := false, done := true }
      phase := .idle }

/-- R209, R271: with PHASE = IDLE the engine has no step, and with no host program nothing happens. -/
def Obligations.IdleEngineHasNoStep : Prop :=
  ∀ (s : State), s.phase = .idle →
    (∀ ts, s.sched = .engine :: ts → step s = .next { s with sched := ts }) ∧
    (s.sched = [] → s.host = [] → step s = .next s)

/-- R214's L and R100: the length of each record. -/
def Obligations.RecordLengths : Prop :=
  ∀ w h : Nat,
    recordLen 0#2 w h = 8 + (w + 7) / 8 * h ∧ recordLen 1#2 w h = 5 + w * h ∧
    recordLen 2#2 w h = (w + 7) / 8 * h ∧
    headerLen 0#2 = 8 ∧ headerLen 1#2 = 5 ∧ headerLen 2#2 = 0 ∧
    (w ≤ 65535 → h ≤ 65535 → ∀ f, recordLen f w h ≤ 4294836230)

/-- The model's choice (log 10): a placed command word is what the next step runs; a placed CTRL word is in
JOB_CTRL, and the next step runs the row it decodes to. -/
def Obligations.PlacedInstructionRunsNext : Prop :=
  ∀ (s : State) (nbits w : Nat) (i : Instr), decodeTableWord nbits w = some i →
    (i.port = .cmd → step (s.withFetchWord nbits w) = exec i s) ∧
    (i.port = .record → ∃ u : State, u.phase = .hdr ∧ u.jobCtrl = (tableWord nbits w).setWidth 4 ∧
      u.src = s.src ∧ u.out = s.out ∧ u.cfg = s.cfg ∧
      step (s.withFetchWord nbits w) = andThen (exec i u) (fun t => .next { t with phase := .pix })) ∧
    (i.port = .quant → ∃ u : State, u.phase = .pix ∧ u.x = 0 ∧ u.y = 0 ∧
      u.src = s.src ∧ u.out = s.out ∧ u.cfg = s.cfg ∧
      step (s.withFetchWord nbits w) =
        andThen (exec i u) (fun t => andThen (runField .record t) (fun v => .next (advancePixel v))))

/-! ### Reset -/

/-- R46, R270: the reset event gives every part the value R46 states, whatever the state was; SRC and OUT take
fresh draws at every address; the three marks are not changed. The form is the model's: a draw of a memory is a free
value of the draw's number and the address (log 4), the number comes from the counter `draws` (log 5), the reset is a
turn of the schedule, which it uses up, and the host's program goes on (log 1). -/
def Obligations.ResetEventRestoresValues : Prop :=
  ∀ (s : State) (ts : List Turn), s.sched = .reset :: ts →
    ∃ t, step s = .next t ∧ t.ctrl = 0 ∧ t.dim = 0 ∧
      t.status = { busy := false, done := false, err := false, cmdIgn := false, errCode := .none } ∧
      t.outLen = 0 ∧ t.geom = 0 ∧ t.pos = 0 ∧ t.caps0 = s.caps0 ∧ t.cfg = s.cfg ∧
      t.jobCtrl = 0 ∧ t.jobW = 0 ∧ t.jobH = 0 ∧ t.phase = .idle ∧ t.x = 0 ∧ t.y = 0 ∧
      (∀ a, t.srcByte a = Config.freeSrc s.draws a) ∧ (∀ a, t.outByte a = Config.freeOut s.draws a) ∧
      s.draws < t.draws ∧
      t.hzSrc = s.hzSrc ∧ t.hzOut = s.hzOut ∧ t.accOvf = s.accOvf ∧
      t.host = s.host ∧ t.sched = ts

/-- R46 at the start of a run: the values R46 states, with no mark set (R42), for every build. -/
def Obligations.ResetStateValues : Prop :=
  ∀ p : Params, let s := State.resetWith p
    s.cfg = p ∧ s.ctrl = 0 ∧ s.dim = 0 ∧ s.status.word = 0 ∧ s.outLen = 0 ∧ s.geom = 0 ∧ s.pos = 0 ∧
    s.jobCtrl = 0 ∧ s.jobW = 0 ∧ s.jobH = 0 ∧ s.phase = .idle ∧ s.x = 0 ∧ s.y = 0 ∧
    s.curErr.length = p.maxWidth ∧ s.nxtErr.length = p.maxWidth ∧ s.src = [] ∧ s.out = [] ∧ NoMark s

/-! ### Register and memory accesses -/

/-- R208 with R21 to R33: what a read of each REG offset returns, in every phase; the only effect of a read is
that the host has the value. That the value stands first in the list `hostReads` is the model's form (log 14). -/
def Obligations.RegisterReadsReturnValues : Prop :=
  ∀ s : State, s.cfg.Legal →
    let reads := fun (off v : Word) =>
      hostAccess (rd32 off) s = .next { s with hostReads := v :: s.hostReads }
    reads 0x00 (s.ctrl.setWidth 32) ∧ reads 0x04 s.dim ∧ reads 0x08 0 ∧
    (∃ v, reads 0x0C v ∧ v.toNat = s.status.busy.toNat + 2 * s.status.done.toNat +
      4 * s.status.err.toNat + 8 * s.status.cmdIgn.toNat + 256 * s.status.errCode.code.toNat) ∧
    reads 0x10 s.outLen ∧
    (∃ v, reads 0x14 v ∧ v.toNat = (s.jobW.toNat + 7) / 8 + 65536 * s.jobH.toNat) ∧
    (∃ v, reads 0x18 v ∧ v.toNat = s.x.toNat + 65536 * s.y.toNat) ∧
    (∃ v, reads 0x1C v ∧ v.toNat = s.cfg.maxWidth + 65536 * Config.accBits) ∧
    (∃ v, reads 0x20 v ∧ v.toNat = s.cfg.srcSize) ∧
    (∃ v, reads 0x24 v ∧ v.toNat = s.cfg.outSize) ∧
    (∀ off : Word, off.toNat % 4 = 0 → 0x28 ≤ off.toNat → off.toNat ≤ 0xFC → reads off 0)

/-- R207 (with R22, R33): what a write to each REG offset does, in every phase; a CMD write issues its command. -/
def Obligations.RegisterWritesStoreOrIgnore : Prop :=
  ∀ (s : State) (w : Word),
    hostAccess (wr32 0x00 w) s = .next { s with ctrl := w.extractLsb' 0 4 } ∧
    hostAccess (wr32 0x04 w) s = .next { s with dim := w } ∧
    (∀ i, decodeWord .cmd w = .ok i → hostAccess (wr32 0x08 w) s = exec i s) ∧
    (4 ≤ w.toNat → hostAccess (wr32 0x08 w) s = reservedCommand s) ∧
    (∀ off : Word, off.toNat % 4 = 0 → 0x0C ≤ off.toNat → off.toNat ≤ 0xFC →
      hostAccess (wr32 off w) s = .next s)

/-- R64, R65: an access that is no aligned 32-bit word below 0x100 of REG, or no single byte below the size of SRC
or OUT, is refused: the host has no such step. -/
def Obligations.IllegalAccessesAreRefused : Prop :=
  ∀ (s : State) (a : Access),
    (a.space = .reg → (a.width ≠ 32 ∨ a.addr.toNat % 4 ≠ 0 ∨ 0x100 ≤ a.addr.toNat) →
      hostAccess a s = .refused .illegalRegAccess) ∧
    (a.space = .src → (a.width ≠ 8 ∨ s.cfg.srcSize ≤ a.addr.toNat) →
      hostAccess a s = .refused .illegalByteAccess) ∧
    (a.space = .out → (a.width ≠ 8 ∨ s.cfg.outSize ≤ a.addr.toNat) →
      hostAccess a s = .refused .illegalByteAccess)

/-- R207, R208, R65: every other access completes, in every phase. -/
def Obligations.LegalAccessesComplete : Prop :=
  ∀ (s : State) (a : Access),
    ((a.space = .reg ∧ a.width = 32 ∧ a.addr.toNat % 4 = 0 ∧ a.addr.toNat < 0x100) ∨
      (a.space = .src ∧ a.width = 8 ∧ a.addr.toNat < s.cfg.srcSize) ∨
      (a.space = .out ∧ a.width = 8 ∧ a.addr.toNat < s.cfg.outSize)) →
    ∃ t, hostAccess a s = .next t

/-- R273 and R67: a host write to SRC is performed, changes that byte and no other, and sets HZ_SRC exactly when a
job runs; nothing else changes. -/
def Obligations.SrcWritePerformedAndMarked : Prop :=
  ∀ (s : State) (a : Word) (b : Byte), a.toNat < s.cfg.srcSize →
    ∃ t, hostAccess (wr8 .src a b) s = .next t ∧ t = { s with src := t.src, hzSrc := t.hzSrc } ∧
      (∀ c, t.srcByte c = if c = a.toNat then b else s.srcByte c) ∧
      (s.phase ≠ .idle → t.hzSrc = true) ∧ (s.phase = .idle → t.hzSrc = s.hzSrc)

/-- R274 and R67: a host write to OUT is performed, changes that byte and no other, and sets HZ_OUT exactly when a
job runs; nothing else changes. -/
def Obligations.OutWritePerformedAndMarked : Prop :=
  ∀ (s : State) (a : Word) (b : Byte), a.toNat < s.cfg.outSize →
    ∃ t, hostAccess (wr8 .out a b) s = .next t ∧ t = { s with out := t.out, hzOut := t.hzOut } ∧
      (∀ c, t.outByte c = if c = a.toNat then b else s.outByte c) ∧
      (s.phase ≠ .idle → t.hzOut = true) ∧ (s.phase = .idle → t.hzOut = s.hzOut)

/-- R275: a host read of OUT while a job runs returns a draw, and sets no mark. R67: with no job running it returns the
byte, and a read of SRC returns the byte in every phase. The form is the model's: the draw is the free value of the
counter `draws`, which moves on (log 5); what a read returned stands first in `hostReads`, a byte as a zero-extended
word (log 14). -/
def Obligations.ByteReadsReturnByteOrDraw : Prop :=
  ∀ (s : State) (a : Word),
    (a.toNat < s.cfg.srcSize → hostAccess (rd8 .src a) s =
      .next { s with hostReads := (s.srcByte a.toNat).setWidth 32 :: s.hostReads }) ∧
    (a.toNat < s.cfg.outSize → s.phase = .idle → hostAccess (rd8 .out a) s =
      .next { s with hostReads := (s.outByte a.toNat).setWidth 32 :: s.hostReads }) ∧
    (a.toNat < s.cfg.outSize → s.phase ≠ .idle → hostAccess (rd8 .out a) s =
      .next { s with
        hostReads := (Config.freeRead s.draws).setWidth 32 :: s.hostReads, draws := s.draws + 1 })

/-- R103: POLL reads its register; it is over when bits hi..lo hold the value, and stays first in the program when they
do not. WAIT is the POLL of STATUS.BUSY for 0. One read a turn, and the list of reads, are log 14; whose turn it is is
log 1. -/
def Obligations.WaitPollsBusy : Prop :=
  ∀ (s : State) (rest : List HostOp) (ts : List Turn),
    (s.sched = .host :: ts ∨ (s.sched = [] ∧ ts = [] ∧ s.phase = .idle)) →
    (s.host = waitOp :: rest →
      (s.status.busy = false → step s = .next { s with
        host := rest, sched := ts, hostReads := s.status.word :: s.hostReads }) ∧
      (s.status.busy = true → step s = .next { s with
        sched := ts, hostReads := s.status.word :: s.hostReads })) ∧
    (∀ (off : Word) (hi lo : Nat) (value : Word), s.host = .poll off hi lo value :: rest →
      off.toNat % 4 = 0 → off.toNat < 0x100 →
      let w := regRead off s
      (w.toNat / 2 ^ lo % 2 ^ (hi + 1 - lo) = value.toNat → step s = .next { s with
        host := rest, sched := ts, hostReads := w :: s.hostReads }) ∧
      (w.toNat / 2 ^ lo % 2 ^ (hi + 1 - lo) ≠ value.toNat → step s = .next { s with
        sched := ts, hostReads := w :: s.hostReads }))

/-! ### Commands -/

/-- R201: NOP has no effect at all, in every phase. -/
def Obligations.NopHasNoEffect : Prop := ∀ s : State, exec .nop s = .next s

/-- R202 with R241 to R245 and R248: START when idle. It always clears DONE, ERR, ERR_CODE, CMD_IGN and OUT_LEN; the
first check that fails, in the order 1 to 5, is recorded and nothing else changes; if none fails the job is
latched and the engine initialised, and nothing else changes. -/
def Obligations.StartWhenIdle : Prop :=
  ∀ s : State, s.phase = .idle →
    let w := (s.dim.extractLsb' 0 16).toNat
    let h := (s.dim.extractLsb' 16 16).toNat
    let f := fmtOf s.ctrl
    let l := if f = 0#2 then 8 + (w + 7) / 8 * h else if f = 1#2 then 5 + w * h else (w + 7) / 8 * h
    let rejected := fun code : ErrCode => exec .start s = .next { s with
      outLen := 0
      status := { busy := s.status.busy, done := false, err := true, cmdIgn := false, errCode := code } }
    (w = 0 ∨ h = 0 → rejected .invalidDimensions) ∧
    (1 ≤ w → 1 ≤ h → s.cfg.maxWidth < w → rejected .widthUnsupported) ∧
    (1 ≤ w → 1 ≤ h → w ≤ s.cfg.maxWidth → f = 3#2 → rejected .reservedFormat) ∧
    (1 ≤ w → 1 ≤ h → w ≤ s.cfg.maxWidth → f ≠ 3#2 → s.cfg.srcSize < w * h → rejected .srcRange) ∧
    (1 ≤ w → 1 ≤ h → w ≤ s.cfg.maxWidth → f ≠ 3#2 → w * h ≤ s.cfg.srcSize → s.cfg.outSize < l →
      rejected .outRange) ∧
    (1 ≤ w → 1 ≤ h → w ≤ s.cfg.maxWidth → f ≠ 3#2 → w * h ≤ s.cfg.srcSize → l ≤ s.cfg.outSize →
      ∃ t, exec .start s = .next t ∧
        t = { s with
          outLen := 0
          status := { busy := true, done := false, err := false, cmdIgn := false, errCode := .none }
          jobCtrl := s.ctrl, jobW := s.dim.extractLsb' 0 16, jobH := s.dim.extractLsb' 16 16
          curErr := t.curErr, nxtErr := t.nxtErr
          eCarry := 0, packSr := 0, x := 0, y := 0
          wptr := if f = 0#2 then 8#32 else if f = 1#2 then 5#32 else 0#32
          phase := .hdr } ∧
        t.curErr.length = s.curErr.length ∧ t.nxtErr.length = s.nxtErr.length ∧
        ∀ i, t.curErr.getD i 0 = (if i < w then 0 else s.curErr.getD i 0) ∧
          t.nxtErr.getD i 0 = (if i < w then 0 else s.nxtErr.getD i 0))

/-- R203: START while a job runs is ignored; the only effect is CMD_IGN. -/
def Obligations.StartWhileBusyIgnored : Prop :=
  ∀ s : State, s.phase ≠ .idle →
    exec .start s = .next { s with status := { s.status with cmdIgn := true } }

/-- R204, R247, R278: ABORT stops a running job, records code 7, zeroes OUT_LEN and leaves draws in OUT[0..L-1], every
other byte and all else unchanged; when idle it does nothing. The form is the model's: the draws are the free values of
the counter `draws`, which moves on (log 5); with JOB_FMT = 3, in no reachable state, L is the PACKED length
(log 13). -/
def Obligations.AbortStopsJob : Prop :=
  ∀ s : State,
    (s.phase = .idle → exec .abort s = .next s) ∧
    (s.phase ≠ .idle → recordLen (fmtOf s.jobCtrl) s.jobW.toNat s.jobH.toNat ≤ s.cfg.outSize →
      ∃ t, exec .abort s = .next t ∧
        t = { s with
          phase := .idle, outLen := 0, out := t.out, draws := s.draws + 1
          status := { s.status with busy := false, err := true, errCode := .aborted } } ∧
        ∀ a, t.outByte a =
          if a < recordLen (fmtOf s.jobCtrl) s.jobW.toNat s.jobH.toNat then Config.freeAbort s.draws a
          else s.outByte a)

/-- R205: CLEAR clears DONE, ERR, ERR_CODE and CMD_IGN when idle and is ignored while a job runs; nothing else
changes. -/
def Obligations.ClearClearsFlags : Prop :=
  ∀ s : State,
    (s.phase = .idle → exec .clear s = .next { s with
      status := { busy := s.status.busy, done := false, err := false, cmdIgn := false, errCode := .none } }) ∧
    (s.phase ≠ .idle → exec .clear s = .next { s with status := { s.status with cmdIgn := true } })

/-- R206, R246, R92: a reserved CMD word raises error 6 when idle and sets CMD_IGN while a job runs; nothing else
changes. -/
def Obligations.ReservedCommandWord : Prop :=
  ∀ (s : State) (w : Word), 4 ≤ w.toNat →
    (s.phase = .idle → hostAccess (wr32 0x08 w) s = .next { s with
      status := { s.status with err := true, errCode := .reservedCommand } }) ∧
    (s.phase ≠ .idle → hostAccess (wr32 0x08 w) s = .next { s with
      status := { s.status with cmdIgn := true } })

/-- R251: errors do not stack: with ERR = 1 already, a reserved command leaves code 6, a rejected START the code of
its own check, and an ABORT of a running job code 7, whatever code was there. -/
def Obligations.ErrorsDoNotStack : Prop :=
  ∀ (s : State) (w : Word), s.status.err = true →
    (s.phase = .idle → 4 ≤ w.toNat → ∃ t, hostAccess (wr32 0x08 w) s = .next t ∧
      t.status.err = true ∧ t.status.errCode.code = 6) ∧
    (∀ e, s.phase = .idle → startError s.cfg s.ctrl s.dim = some e → ∃ t, exec .start s = .next t ∧
      t.status.err = true ∧ t.status.errCode = e) ∧
    (s.phase ≠ .idle → ∃ t, exec .abort s = .next t ∧
      t.status.err = true ∧ t.status.errCode.code = 7)

/-! ### Dithering -/

/-- R126: a share is the greatest integer at or below e*w/16, and the examples of the rule. -/
def Obligations.ShareIsFloor : Prop :=
  (∀ e w : Int, 16 * share e w ≤ e * w ∧ e * w < 16 * share e w + 16) ∧
  share 128 7 = 56 ∧ share (-1) 7 = -1 ∧ share (-1) 3 = -1 ∧ share (-1) 5 = -1 ∧ share (-1) 1 = -1 ∧
  share 1 7 = 0 ∧ share 1 3 = 0 ∧ share 1 5 = 0 ∧ share 1 1 = 0 ∧ share (-71) 3 = -14

/-- R136 with R123 to R125, R127 to R130 and R135: QUANT_FS on pixel (X, Y) in phase PIX: V, the bit, the error,
E_CARRY, every entry of NXT_ERR, the mark; nothing else changes. The south share follows R129 (it depends on y + 1 < JOB_H
alone), where the indentation of R136's pseudocode would put it under x >= 1. Two clauses are the model's: NXT_ERR[*] in
the check of R136 is every entry of the buffer (log 12), and the bit is handed over in `pixBit` (log 6). -/
def Obligations.QuantFsPixel : Prop :=
  ∀ s : State, s.phase = .pix → s.x.toNat < s.jobW.toNat →
    s.jobW.toNat ≤ s.curErr.length → s.jobW.toNat ≤ s.nxtErr.length →
    s.y.toNat * s.jobW.toNat + s.x.toNat < s.cfg.srcSize →
    let x := s.x.toNat
    let y := s.y.toNat
    let w := s.jobW.toNat
    let h := s.jobH.toNat
    let v : Int := ((s.srcByte (y * w + x)).toNat : Int) + s.curErr.getD x 0 + s.eCarry
    let e : Int := if v > 128 then v - 255 else v
    let d := fun k : Int => e * k / 16
    let carry : Int := if x + 1 < w then d 7 else 0
    ∃ t, exec .quantFs s = .next t ∧
      t = { s with eCarry := carry, nxtErr := t.nxtErr, accOvf := t.accOvf, pixBit := decide (v ≤ 128) } ∧
      t.nxtErr.length = s.nxtErr.length ∧
      (∀ i, t.nxtErr.getD i 0 = s.nxtErr.getD i 0 +
        (if y + 1 < h ∧ 1 ≤ x ∧ i = x - 1 then d 3 else 0) +
        (if y + 1 < h ∧ i = x then d 5 else 0) +
        (if y + 1 < h ∧ x + 1 < w ∧ i = x + 1 then d 1 else 0)) ∧
      (t.accOvf = true ↔ s.accOvf = true ∨
        ∃ u, (u = v ∨ u = e ∨ u = e * 7 ∨ u = e * 5 ∨ u = e * 3 ∨ u = carry ∨ u ∈ t.nxtErr) ∧
          (u < -32768 ∨ 32767 < u))

/-- R137, R138: QUANT_DIRECT on pixel (X, Y) in phase PIX: white exactly when G < 128; no accumulator is read or
written, and nothing else changes. That the bit is handed over in `pixBit` is the model's form (log 6). -/
def Obligations.QuantDirectPixel : Prop :=
  ∀ s : State, s.phase = .pix → s.y.toNat * s.jobW.toNat + s.x.toNat < s.cfg.srcSize →
    exec .quantDirect s = .next { s with
      pixBit := !decide ((s.srcByte (s.y.toNat * s.jobW.toNat + s.x.toNat)).toNat < 128) }

/-- The model's reading of R122 (log 9): outside STEP_PIX the quantisers do nothing; outside STEP_HDR and STEP_PIX
the record rows do nothing. -/
def Obligations.JobOperationsActOnlyInTheirPhase : Prop :=
  ∀ (s : State) (invert : Bool),
    (s.phase ≠ .pix → exec .quantFs s = .next s ∧ exec .quantDirect s = .next s) ∧
    (s.phase = .idle ∨ s.phase = .fin → exec (.outRaster invert) s = .next s ∧
      exec (.outColumn invert) s = .next s ∧ exec (.outPacked invert) s = .next s)

/-- R139, one pixel of it: where E_CARRY and CUR_ERR[X], the two registers that V reads, are 0, a sample of 0 or 255
gives error 0: no accumulator register changes, and the pixel is black exactly when the sample is 0. Two clauses are the
model's: the bit is handed over in `pixBit` (log 6), and ACC_OVF, whose check reads every entry of NXT_ERR (log 12), is
unchanged where those fit the 16-bit range. -/
def Obligations.BilevelSampleHasNoError : Prop :=
  ∀ s : State, s.phase = .pix → s.x.toNat < s.jobW.toNat →
    s.jobW.toNat ≤ s.curErr.length → s.jobW.toNat ≤ s.nxtErr.length →
    s.y.toNat * s.jobW.toNat + s.x.toNat < s.cfg.srcSize →
    s.eCarry = 0 → s.curErr.getD s.x.toNat 0 = 0 →
    let g := (s.srcByte (s.y.toNat * s.jobW.toNat + s.x.toNat)).toNat
    g = 0 ∨ g = 255 →
      ∃ t, exec .quantFs s = .next t ∧ t = { s with accOvf := t.accOvf, pixBit := decide (g = 0) } ∧
        ((∀ v ∈ s.nxtErr, -32768 ≤ v ∧ v ≤ 32767) → t.accOvf = s.accOvf)

/-- R134: the bounds on E_CARRY and the row buffers, with the bounds on partial sums that carry them, are kept by
every step, and no step sets ACC_OVF. -/
def Obligations.AccumulatorBoundsKept : Prop :=
  ∀ s t : State, StateInv s → AccOk s → step s = .next t → AccOk t ∧ t.accOvf = s.accOvf

/-- R134, for the pixel a STEP_PIX processes: V lies in [-128, 383] and E in [-128, 128]. -/
def Obligations.IntensityAndErrorBounds : Prop :=
  ∀ s : State, StateInv s → AccOk s → s.phase = .pix →
    let v : Int := ((s.srcByte s.pixelAddr).toNat : Int) + s.curErr.getD s.x.toNat 0 + s.eCarry
    (-128 ≤ v ∧ v ≤ 383) ∧ -128 ≤ quantError v ∧ quantError v ≤ 128

/-- The bounds of R134 hold at reset. What they say of the registers there rests on the reset values the model
chose (log 3). -/
def Obligations.AccumulatorBoundsAtReset : Prop := ∀ p : Params, AccOk (State.resetWith p)

/-- R133: the V that the rules R123 to R130 give for pixel (x, y) (`refV`) is what the source's full-frame in-place
algorithm reads there. It speaks of no register: that the engine's CUR_ERR, NXT_ERR and E_CARRY carry this V is the
statement JobFollowsTheRules. -/
def Obligations.RowwiseEqualsFullFrame : Prop :=
  ∀ (w h : Nat) (img : Nat → Byte) (x y : Nat), x < w → y < h →
    frameAfter w h img (y * w + x) y x = refV w img y x

/-! ### Packing -/

/-- R168: HDR_RASTER writes the eight header bytes, never inverted, and changes nothing else. -/
def Obligations.RasterHeaderWritten : Prop :=
  ∀ (s : State) (invert : Bool), s.phase = .hdr → 8 ≤ s.cfg.outSize →
    let bpr := (s.jobW.toNat + 7) / 8
    let h := s.jobH.toNat
    ∃ t, exec (.outRaster invert) s = .next t ∧ t = { s with out := t.out } ∧
      t.outByte 0 = 0x1D ∧ t.outByte 1 = 0x76 ∧ t.outByte 2 = 0x30 ∧ t.outByte 3 = 0x00 ∧
      (t.outByte 4).toNat = bpr % 256 ∧ (t.outByte 5).toNat = bpr / 256 ∧
      (t.outByte 6).toNat = h % 256 ∧ (t.outByte 7).toNat = h / 256 ∧
      ∀ a, 8 ≤ a → t.outByte a = s.outByte a

/-- R169: HDR_COLUMN writes the five header bytes, never inverted, and changes nothing else. -/
def Obligations.ColumnHeaderWritten : Prop :=
  ∀ (s : State) (invert : Bool), s.phase = .hdr → 5 ≤ s.cfg.outSize →
    ∃ t, exec (.outColumn invert) s = .next t ∧ t = { s with out := t.out } ∧
      t.outByte 0 = 0x1B ∧ t.outByte 1 = 0x2A ∧ t.outByte 2 = 0x21 ∧
      (t.outByte 3).toNat = s.jobW.toNat % 256 ∧ (t.outByte 4).toNat = s.jobW.toNat / 256 ∧
      ∀ a, 5 ≤ a → t.outByte a = s.outByte a

/-- R170: in the PACKED format the header step writes no byte, and changes nothing; the data starts at OUT address 0,
where a START that passes its checks puts WPTR. -/
def Obligations.PackedHeaderIsEmpty : Prop :=
  ∀ (s : State) (invert : Bool),
    (s.phase = .hdr → exec (.outPacked invert) s = .next s) ∧
    (s.phase = .idle → startError s.cfg s.ctrl s.dim = none → fmtOf s.ctrl = 2#2 →
      ∃ t, exec .start s = .next t ∧ t.phase = .hdr ∧ t.jobCtrl = s.ctrl ∧ t.wptr = 0)

/-- R164, R165: the packed formats' part of STEP_PIX: PACK_SR takes the bit; when the group is full or the row ends,
the left-aligned byte, inverted if asked, goes to OUT[WPTR], WPTR moves on and PACK_SR goes to 0. Every other
byte, and all else, is unchanged. That the bit b is read from `pixBit` is the model's form (log 6). -/
def Obligations.PackBitAndEmitByte : Prop :=
  ∀ (s : State) (invert : Bool) (i : Instr), i = .outRaster invert ∨ i = .outPacked invert →
    s.phase = .pix →
    let sr := (s.packSr.toNat * 2 + s.pixBit.toNat) % 256
    let k := s.x.toNat % 8 + 1
    let byte := sr * 2 ^ (8 - k) % 256
    (s.x.toNat % 8 ≠ 7 → s.x.toNat + 1 ≠ s.jobW.toNat →
      exec i s = .next { s with packSr := BitVec.ofNat 8 sr }) ∧
    (s.x.toNat % 8 = 7 ∨ s.x.toNat + 1 = s.jobW.toNat → s.wptr.toNat < s.cfg.outSize →
      ∃ t, exec i s = .next t ∧ t = { s with out := t.out, wptr := s.wptr + 1, packSr := 0 } ∧
        ∀ a, (t.outByte a).toNat =
          if a = s.wptr.toNat then (if invert then 255 - byte else byte) else (s.outByte a).toNat)

/-- R171: EMIT_COLUMN writes 0xFF for a black pixel and 0x00 for a white one, swapped under inversion, at address
5 + x*JOB_H + y; every other byte, and all else, is unchanged. That the bit b is read from `pixBit` is the model's
form (log 6). -/
def Obligations.ColumnPixelByte : Prop :=
  ∀ (s : State) (invert : Bool), s.phase = .pix →
    5 + s.x.toNat * s.jobH.toNat + s.y.toNat < s.cfg.outSize →
    ∃ t, exec (.outColumn invert) s = .next t ∧ t = { s with out := t.out } ∧
      ∀ a, t.outByte a =
        if a = 5 + s.x.toNat * s.jobH.toNat + s.y.toNat then
          (if s.pixBit = invert then 0x00#8 else 0xFF#8)
        else s.outByte a

/-- R162, R163: after k bits have been shifted into an empty PACK_SR (k from 1 to 8), the emitted byte has bit i of the
group at bit 7 - i, and its low 8 - k bits are 0. -/
def Obligations.GroupByteIsLeftAligned : Prop :=
  ∀ bits : List Bool, 1 ≤ bits.length → bits.length ≤ 8 →
    let byte := groupByte (bits.foldl shiftIn 0) bits.length
    ∀ i, i < 8 → byte.getLsbD (7 - i) = bits.getD i false

/-- R173: unpacking the packed rows of R166 gives the pixels back. -/
def Obligations.UnpackInvertsPack : Prop :=
  ∀ (w : Nat) (b : Nat → Nat → Bool) (x y : Nat), x < w →
    (packedByte w b y (x / 8)).getLsbD (7 - x % 8) = b x y

/-- R174: inverting the packed byte and packing the inverted image agree on every pixel bit; a padding bit is 1 in
the first and 0 in the second. -/
def Obligations.InvertComposesOnPixelBits : Prop :=
  ∀ (w : Nat) (b : Nat → Nat → Bool) (y j i : Nat), i < 8 →
    let flipped := invertByte true (packedByte w b y j)
    let packed := packedByte w (fun x y => !b x y) y j
    (8 * j + i < w → flipped.getLsbD (7 - i) = packed.getLsbD (7 - i)) ∧
    (w ≤ 8 * j + i → flipped.getLsbD (7 - i) = true ∧ packed.getLsbD (7 - i) = false)

/-! ### The whole machine -/

/-- Every step keeps the invariant: the build is legal, R26 holds, both memories keep their canonical form and
hold only addresses that exist, the buffers keep their length, a running job passed its checks, X, Y, WPTR
and PACK_SR are where R36, R164 and R165 put them, the wire b is idle (log 6). -/
def Obligations.InvariantKept : Prop :=
  ∀ s t : State, StateInv s → step s = .next t → StateInv t

/-- The invariant holds at reset, for every legal build. -/
def Obligations.InvariantAtReset : Prop :=
  ∀ p : Params, p.Legal → StateInv (State.resetWith p)

/-- R26: the STATUS invariants hold at reset and are kept by every step. -/
def Obligations.StatusInvariantsHold : Prop :=
  (∀ p : Params, StatusOk (State.resetWith p)) ∧
  ∀ s t : State, StatusOk s → step s = .next t → StatusOk t

/-- Both memories keep their canonical form (the model's form, log 4). -/
def Obligations.CanonicalMemoryKept : Prop :=
  ∀ s t : State, s.src.wf → s.out.wf → step s = .next t → t.src.wf ∧ t.out.wf

/-- R34, R62, R71: an engine step writes none of the host's registers, none of SRC, no job latch and no hazard mark,
and takes no draw. -/
def Obligations.EngineLeavesInputsAlone : Prop :=
  ∀ (s t : State), engineTurn s = .next t →
    t.cfg = s.cfg ∧ t.ctrl = s.ctrl ∧ t.dim = s.dim ∧ t.jobCtrl = s.jobCtrl ∧ t.jobW = s.jobW ∧
    t.jobH = s.jobH ∧ t.src = s.src ∧ t.hzSrc = s.hzSrc ∧ t.hzOut = s.hzOut ∧
    t.status.err = s.status.err ∧ t.status.errCode = s.status.errCode ∧
    t.status.cmdIgn = s.status.cmdIgn ∧ t.memEpoch = s.memEpoch ∧ t.draws = s.draws ∧
    t.host = s.host ∧ t.sched = s.sched ∧ t.hostReads = s.hostReads

/-- R62, R279: a job never writes an OUT address at or above L, and after it those bytes are what they were. -/
def Obligations.EngineWritesOnlyTheRecord : Prop :=
  ∀ (s t : State) (a : Nat), StateInv s → engineTurn s = .next t → s.jobLen ≤ a → t.outByte a = s.outByte a

/-- R71 with R165, R171: a STEP_PIX writes at most one OUT byte: in COLUMN that of pixel (X, Y); in RASTER and PACKED
that at WPTR, and only when the group is full or the row ends; else none. (With JOB_FMT = 3 it gives no next state,
log 11.) -/
def Obligations.StepPixWritesAtMostOneByte : Prop :=
  ∀ s t : State, s.phase = .pix → engineTurn s = .next t →
    (fmtOf s.jobCtrl = 1#2 → ∀ a, a ≠ columnAddr s.jobH.toNat s.x.toNat s.y.toNat → t.outByte a = s.outByte a) ∧
    (fmtOf s.jobCtrl ≠ 1#2 → groupEnds s.jobW.toNat s.x.toNat = true →
      ∀ a, a ≠ s.wptr.toNat → t.outByte a = s.outByte a) ∧
    (fmtOf s.jobCtrl ≠ 1#2 → groupEnds s.jobW.toNat s.x.toNat = false → ∀ a, t.outByte a = s.outByte a)

/-- R34, R75: the job latches change only by an accepted START, which copies CTRL and DIM into them, and by reset;
so CTRL and DIM writes while a job runs do not reach it (R277). -/
def Obligations.LatchesChangeOnlyByStartOrReset : Prop :=
  ∀ s t : State, step s = .next t →
    (t.jobCtrl = s.jobCtrl ∧ t.jobW = s.jobW ∧ t.jobH = s.jobH) ∨
    (s.phase = .idle ∧ t.phase = .hdr ∧ t.jobCtrl = s.ctrl ∧
      t.jobW = s.dim.extractLsb' 0 16 ∧ t.jobH = s.dim.extractLsb' 16 16) ∨
    (s.sched.head? = some .reset ∧ t.jobCtrl = 0 ∧ t.jobW = 0 ∧ t.jobH = 0)

/-- R42, R254: no step clears a fault mark, reset included. R5, R30 to R32: no step changes the build, which the model
holds in State (log 2). -/
def Obligations.MarksAreSticky : Prop :=
  ∀ s t : State, step s = .next t →
    (s.hzSrc = true → t.hzSrc = true) ∧ (s.hzOut = true → t.hzOut = true) ∧
    (s.accOvf = true → t.accOvf = true) ∧ t.cfg = s.cfg

/-- R240 and logs 7, 11: from a state with the invariant no step faults, and a step is refused only in the host's turn
(log 1), on an access of its next line (a POLL's is its read) that R64 or R65 refuses. -/
def Obligations.NoStepFaults : Prop :=
  ∀ s : State, StateInv s →
    (∃ t, step s = .next t) ∨
    ((s.sched.head? = some .host ∨ (s.sched = [] ∧ s.phase = .idle)) ∧
      ∃ a : Access,
        (s.host.head? = some (.access a) ∨
          ∃ off hi lo value, s.host.head? = some (.poll off hi lo value) ∧ a = rd32 off) ∧
        a.legal s.cfg = false ∧
        step s = .refused (if a.space = .reg then .illegalRegAccess else .illegalByteAccess))

/-- R215, R166, R171 as an invariant: what a running job has done so far is what the rules give for its image, and
every step keeps that while no hazard mark is set (R42's premise). In phase FIN it says that the whole record is in OUT. -/
def Obligations.JobFollowsTheRules : Prop :=
  ∀ s t : State, StateInv s → Track s → step s = .next t → t.hzSrc = false → t.hzOut = false → Track t

/-- At reset no job runs, so what a running job has done is what the rules give. -/
def Obligations.JobTrackAtReset : Prop := ∀ p : Params, Track (State.resetWith p)

/-- R202, R213, R215 together: from any state with the invariant and no job running, a START that passes the checks
leads, after exactly W*H + 2 engine steps and not before, to IDLE with DONE, with OUT_LEN = L, with the record the
rules give in OUT[0..L-1], and with every other OUT byte and SRC as they were. The schedule is empty, so who moves is
the model's choice (log 1): the engine while a job runs. JobFollowsTheRules is about every interleaving. -/
def Obligations.JobRunsToItsRecord : Prop :=
  ∀ (s : State) (rest : List HostOp), StateInv s → s.phase = .idle → s.sched = [] → s.host = cmd 1 :: rest →
    let w := (widthOf s.dim).toNat
    let h := (heightOf s.dim).toNat
    let l := recordLen (fmtOf s.ctrl) w h
    1 ≤ w → 1 ≤ h → w ≤ s.cfg.maxWidth → fmtOf s.ctrl ≠ 3#2 → w * h ≤ s.cfg.srcSize → l ≤ s.cfg.outSize →
    (∀ n, 1 ≤ n → n ≤ w * h + 2 → ∃ u, core.run n s = .next u ∧ u.phase ≠ .idle) ∧
    ∃ t, core.run (w * h + 3) s = .next t ∧ t.phase = .idle ∧
      t.status = { busy := false, done := true, err := false, cmdIgn := false, errCode := .none } ∧
      t.outLen.toNat = l ∧ t.host = rest ∧ t.src = s.src ∧
      t.hzSrc = s.hzSrc ∧ t.hzOut = s.hzOut ∧
      ∀ a, t.outByte a =
        if a < l then recordByte s.ctrl w h (refBit s.ctrl w s.srcByte) a else s.outByte a

/-- R140, R20: two jobs with the same build, CTRL, DIM and SRC bytes leave the same record, whatever else their states
held before. Both schedules are empty, so who moves is the model's choice (log 1): the engine while a job runs. -/
def Obligations.RestartGivesTheSameRecord : Prop :=
  ∀ (s s' t t' : State) (n : Nat), StateInv s → StateInv s' →
    s.phase = .idle → s'.phase = .idle → s.sched = [] → s'.sched = [] →
    s.host = [cmd 1] → s'.host = [cmd 1] →
    s.cfg = s'.cfg → s.ctrl = s'.ctrl → s.dim = s'.dim → (∀ a, s.srcByte a = s'.srcByte a) →
    core.run n s = .next t → core.run n s' = .next t' → t.status.done = true → 1 ≤ n →
    t'.status = t.status ∧ t'.outLen = t.outLen ∧ ∀ a, a < t.outLen.toNat → t'.outByte a = t.outByte a

/-- R139 for a whole image, of the rules' V and bit: if every sample is 0 or 255, then under QUANT_FS every V is the
sample, every error is 0, and a pixel is black exactly when its sample is 0; QUANT_DIRECT swaps the colours. That the
engine computes these V and bits is the statement JobFollowsTheRules. -/
def Obligations.BilevelImageHasNoError : Prop :=
  ∀ (c : BitVec 4) (w h : Nat) (img : Nat → Byte),
    (∀ x y, x < w → y < h → (img (y * w + x)).toNat = 0 ∨ (img (y * w + x)).toNat = 255) →
    ∀ x y, x < w → y < h →
      let g := (img (y * w + x)).toNat
      (ditherOf c = true →
        refV w img y x = (g : Int) ∧ quantError (refV w img y x) = 0 ∧ refBit c w img x y = decide (g = 0)) ∧
      (ditherOf c = false → refBit c w img x y = decide (g = 255))
end

