-- ==== Sys2Proof/Laws/Memory.lean ====
section
/-! SUPPORT. The laws of the byte memories: a read after a write, the other addresses, the canonical form. -/

namespace Sys2Proof.Machine

namespace Memory

@[simp] theorem get?_nil (a : Nat) : Memory.get? [] a = none := rfl

theorem get?_put_same (m : Memory) (a : Nat) (b : Byte) : (m.put a b).get? a = some b := by
  induction m with
  | nil => simp [Memory.put, Memory.get?]
  | cons c m ih =>
    obtain ⟨k, v⟩ := c
    simp only [Memory.put]
    split
    · simp [Memory.get?]
    · split
      · simp [Memory.get?]
      · rename_i h
        have hne : k ≠ a := fun e => h e.symm
        simp [Memory.get?, hne, ih]

theorem get?_put_other (m : Memory) {a c : Nat} (b : Byte) (h : c ≠ a) :
    (m.put a b).get? c = m.get? c := by
  induction m with
  | nil => simp [Memory.put, Memory.get?, h.symm]
  | cons d m ih =>
    obtain ⟨k, v⟩ := d
    simp only [Memory.put]
    split
    · simp [Memory.get?, h.symm]
    · split
      · rename_i _ hk
        subst hk
        simp [Memory.get?, h.symm]
      · simp [Memory.get?, ih]

theorem get?_put (m : Memory) (a c : Nat) (b : Byte) :
    (m.put a b).get? c = if c = a then some b else m.get? c := by
  split
  · next h => subst h; exact get?_put_same m c b
  · next h => exact get?_put_other m b h

theorem mem_put {m : Memory} {a : Nat} {b : Byte} {c : Host.Cell} (h : c ∈ m.put a b) :
    c = (a, b) ∨ c ∈ m := by
  induction m with
  | nil => exact .inl (by simpa [Memory.put] using h)
  | cons d m ih =>
    obtain ⟨k, v⟩ := d
    simp only [Memory.put] at h
    split at h
    · simpa using h
    · split at h
      · rcases List.mem_cons.mp h with h | h
        · exact .inl h
        · exact .inr (List.mem_cons_of_mem _ h)
      · rcases List.mem_cons.mp h with h | h
        · exact .inr (by simp [h])
        · exact (ih h).imp_right (List.mem_cons_of_mem _)

/-- A write keeps the canonical form. -/
theorem wf_put {m : Memory} (h : m.wf) (a : Nat) (b : Byte) : (m.put a b).wf := by
  induction m with
  | nil => simp [Memory.put]
  | cons d m ih =>
    obtain ⟨k, v⟩ := d
    obtain ⟨hd, ht⟩ := List.pairwise_cons.mp h
    simp only [Memory.put]
    split
    · next hlt =>
      refine List.pairwise_cons.mpr ⟨fun c hc => ?_, h⟩
      rcases List.mem_cons.mp hc with rfl | hc
      · exact hlt
      · exact Nat.lt_trans hlt (hd c hc)
    · split
      · next _ he => subst he; exact List.pairwise_cons.mpr ⟨hd, ht⟩
      · next hlt hne =>
        refine List.pairwise_cons.mpr ⟨fun c hc => ?_, ih ht⟩
        rcases mem_put hc with rfl | hc
        · exact Nat.lt_of_le_of_ne (Nat.le_of_not_lt hlt) (Ne.symm hne)
        · exact hd c hc

theorem get?_append (m n : Memory) (a : Nat) :
    Memory.get? (m ++ n) a = (Memory.get? m a).or (Memory.get? n a) := by
  induction m with
  | nil => simp
  | cons d m ih =>
    obtain ⟨k, v⟩ := d
    by_cases h : k = a <;> simp [Memory.get?, h, ih]

theorem get?_map_range (f : Nat → Byte) (n a : Nat) :
    Memory.get? ((List.range n).map (fun i => (i, f i))) a = if a < n then some (f a) else none := by
  induction n with
  | zero => simp
  | succ n ih =>
    rw [List.range_succ, List.map_append, get?_append, ih]
    by_cases h : a < n
    · simp [h, Nat.lt_succ_of_lt h]
    · by_cases e : n = a
      · subst e; simp [Memory.get?]
      · have : ¬ a < n + 1 := by omega
        simp [Memory.get?, h, e, this]

theorem get?_filter_ge (m : Memory) {n a : Nat} (h : n ≤ a) :
    Memory.get? (m.filter (fun c => decide (n ≤ c.1))) a = m.get? a := by
  induction m with
  | nil => rfl
  | cons d m ih =>
    obtain ⟨k, v⟩ := d
    by_cases hk : n ≤ k
    · simp [hk, Memory.get?, ih]
    · have hne : k ≠ a := by omega
      simp [hk, Memory.get?, hne, ih]

theorem get?_filter_lt (m : Memory) {n a : Nat} (h : a < n) :
    Memory.get? (m.filter (fun c => decide (n ≤ c.1))) a = none := by
  induction m with
  | nil => rfl
  | cons d m ih =>
    obtain ⟨k, v⟩ := d
    by_cases hk : n ≤ k
    · have hne : k ≠ a := by omega
      simp [hk, Memory.get?, hne, ih]
    · simp [hk, ih]

theorem get?_fillBelow (m : Memory) (n : Nat) (f : Nat → Byte) (a : Nat) :
    (m.fillBelow n f).get? a = if a < n then some (f a) else m.get? a := by
  unfold Memory.fillBelow
  rw [get?_append, get?_map_range]
  by_cases h : a < n
  · simp [h]
  · simp [h, get?_filter_ge m (Nat.le_of_not_lt h)]

theorem mem_fillBelow {m : Memory} {n : Nat} {f : Nat → Byte} {c : Host.Cell}
    (h : c ∈ m.fillBelow n f) : c.1 < n ∨ c ∈ m := by
  rcases List.mem_append.mp h with h | h
  · obtain ⟨a, ha, rfl⟩ := List.mem_map.mp h
    exact .inl (List.mem_range.mp ha)
  · exact .inr (List.mem_filter.mp h).1

/-- The draws of an ABORT keep the canonical form. -/
theorem wf_fillBelow {m : Memory} (h : m.wf) (n : Nat) (f : Nat → Byte) : (m.fillBelow n f).wf := by
  refine List.pairwise_append.mpr ⟨?_, h.filter _, ?_⟩
  · exact List.pairwise_map.mpr List.pairwise_lt_range
  · intro c hc d hd
    obtain ⟨a, ha, rfl⟩ := List.mem_map.mp hc
    have h1 := List.mem_range.mp ha
    have h2 : n ≤ d.1 := by simpa using (List.mem_filter.mp hd).2
    exact Nat.lt_of_lt_of_le h1 h2

/-- Several bytes written upwards from an address. -/
def puts : Memory → Nat → List Byte → Memory
  | m, _, [] => m
  | m, a, b :: bs => puts (m.put a b) (a + 1) bs

theorem get?_puts (m : Memory) (a : Nat) (bs : List Byte) (c : Nat) :
    (m.puts a bs).get? c = if a ≤ c ∧ c < a + bs.length then bs[c - a]? else m.get? c := by
  induction bs generalizing m a with
  | nil => simp [puts]
  | cons b bs ih =>
    rw [puts, ih, get?_put]
    by_cases h1 : c = a
    · subst h1; simp
    · by_cases h2 : a + 1 ≤ c ∧ c < a + 1 + bs.length
      · obtain ⟨k, hk⟩ : ∃ k, c - a = k + 1 := ⟨c - a - 1, by omega⟩
        have hk' : c - (a + 1) = k := by omega
        have h3 : a ≤ c ∧ c < a + (b :: bs).length := by simp; omega
        rw [if_pos h2, if_pos h3, hk, hk']
        simp
      · have h3 : ¬ (a ≤ c ∧ c < a + (b :: bs).length) := by simp; omega
        rw [if_neg h2, if_neg h3, if_neg h1]

theorem wf_puts {m : Memory} (h : m.wf) (a : Nat) (bs : List Byte) : (m.puts a bs).wf := by
  induction bs generalizing m a with
  | nil => exact h
  | cons b bs ih => exact ih (wf_put h a b) (a + 1)

theorem mem_puts {m : Memory} {a : Nat} {bs : List Byte} {c : Host.Cell} (h : c ∈ m.puts a bs) :
    (a ≤ c.1 ∧ c.1 < a + bs.length) ∨ c ∈ m := by
  induction bs generalizing m a with
  | nil => exact .inr h
  | cons b bs ih =>
    rcases ih h with h | h
    · exact .inl (by simp; omega)
    · rcases mem_put h with rfl | h
      · exact .inl (by simp)
      · exact .inr h

end Memory

/-! ### The bytes of a state -/

theorem srcByte_congr {s t : State} (hm : t.src = s.src) (he : t.memEpoch = s.memEpoch) (a : Nat) :
    t.srcByte a = s.srcByte a := by
  simp [State.srcByte, hm, he]

theorem outByte_congr {s t : State} (hm : t.out = s.out) (he : t.memEpoch = s.memEpoch) (a : Nat) :
    t.outByte a = s.outByte a := by
  simp [State.outByte, hm, he]

theorem outByte_put (s : State) (a c : Nat) (b : Byte) :
    ({ s with out := s.out.put a b } : State).outByte c = if c = a then b else s.outByte c := by
  simp only [State.outByte, Memory.get?_put]
  split <;> simp

theorem srcByte_put (s : State) (a c : Nat) (b : Byte) :
    ({ s with src := s.src.put a b } : State).srcByte c = if c = a then b else s.srcByte c := by
  simp only [State.srcByte, Memory.get?_put]
  split <;> simp

theorem outByte_puts (s : State) (a c : Nat) (bs : List Byte) :
    ({ s with out := s.out.puts a bs } : State).outByte c =
      if a ≤ c ∧ c < a + bs.length then bs.getD (c - a) 0 else s.outByte c := by
  simp only [State.outByte, Memory.get?_puts]
  split
  · next h =>
    have : c - a < bs.length := by omega
    simp [this]
  · rfl

end Sys2Proof.Machine
end

