-- ==== Sys2Proof/Laws/Ops.lean ====
section
/-! SUPPORT. For each shared operation, once, what it can do: sequencing, engine writes to OUT, the row
buffers, the share function. -/

namespace Sys2Proof.Machine

/-! ### Sequencing -/

@[simp] theorem andThen_next (s : State) (f : State → Result) : andThen (.next s) f = f s := rfl

@[simp] theorem andThen_fault (r : Fault) (f : State → Result) : andThen (.fault r) f = .fault r := rfl

@[simp] theorem andThen_refused (r : Refusal) (f : State → Result) :
    andThen (.refused r) f = .refused r := rfl

/-- A sequence answers a next state exactly when both parts do. -/
theorem andThen_eq_next {o : Result} {f : State → Result} {t : State} :
    andThen o f = .next t ↔ ∃ s, o = .next s ∧ f s = .next t := by
  cases o <;> simp

/-! ### Engine writes to OUT -/

theorem putOut_of_lt {s : State} {a : Nat} (b : Byte) (h : a < s.cfg.outSize) :
    putOut s a b = .next { s with out := s.out.put a b } := by
  simp [putOut, h]

theorem putOut_eq_next {s t : State} {a : Nat} {b : Byte} (h : putOut s a b = .next t) :
    a < s.cfg.outSize ∧ t = { s with out := s.out.put a b } := by
  unfold putOut at h
  split at h
  · next hlt => exact ⟨hlt, by cases h; rfl⟩
  · cases h

theorem putOuts_of_le {s : State} {a : Nat} {bs : List Byte} (h : a + bs.length ≤ s.cfg.outSize) :
    putOuts s a bs = .next { s with out := s.out.puts a bs } := by
  induction bs generalizing s a with
  | nil => rfl
  | cons b bs ih =>
    have hlt : a < s.cfg.outSize := by simp at h; omega
    rw [putOuts, putOut_of_lt b hlt, andThen_next, ih (by simp at h ⊢; omega)]
    rfl

/-- What engine writes can do: they change OUT and nothing else. -/
theorem putOuts_eq_next {s t : State} {a : Nat} {bs : List Byte} (h : putOuts s a bs = .next t) :
    (bs = [] ∨ a + bs.length ≤ s.cfg.outSize) ∧ t = { s with out := s.out.puts a bs } := by
  induction bs generalizing s a with
  | nil => cases h; exact ⟨.inl rfl, rfl⟩
  | cons b bs ih =>
    obtain ⟨u, hu, h⟩ := andThen_eq_next.mp h
    obtain ⟨hlt, rfl⟩ := putOut_eq_next hu
    obtain ⟨hle, rfl⟩ := ih h
    refine ⟨.inr ?_, rfl⟩
    rcases hle with rfl | hle
    · simpa using hlt
    · simp at hle ⊢; omega

/-! ### Row buffers -/

@[simp] theorem length_zeroFirst (n : Nat) (l : List Int) : (zeroFirst n l).length = l.length := by
  induction n generalizing l with
  | zero => rfl
  | succ n ih => cases l <;> simp [zeroFirst, ih]

theorem getD_zeroFirst (n : Nat) (l : List Int) (i : Nat) :
    (zeroFirst n l).getD i 0 = if i < n then 0 else l.getD i 0 := by
  induction n generalizing l i with
  | zero => simp [zeroFirst]
  | succ n ih =>
    cases l with
    | nil => simp [zeroFirst]
    | cons v l =>
      cases i with
      | zero => simp [zeroFirst]
      | succ i => simpa [zeroFirst] using ih l i

theorem mem_zeroFirst {n : Nat} {l : List Int} {v : Int} (h : v ∈ zeroFirst n l) : v = 0 ∨ v ∈ l := by
  induction n generalizing l with
  | zero => exact .inr h
  | succ n ih =>
    cases l with
    | nil => simp [zeroFirst] at h
    | cons u l =>
      rcases List.mem_cons.mp h with h | h
      · exact .inl h
      · exact (ih h).imp_right (List.mem_cons_of_mem _)

@[simp] theorem length_copyFirst (n : Nat) (src dst : List Int) :
    (copyFirst n src dst).length = dst.length := by
  induction n generalizing src dst with
  | zero => simp [copyFirst]
  | succ n ih => cases src <;> cases dst <;> simp [copyFirst, ih]

theorem getD_copyFirst (n : Nat) (src dst : List Int) (i : Nat)
    (hs : n ≤ src.length) (hd : n ≤ dst.length) :
    (copyFirst n src dst).getD i 0 = if i < n then src.getD i 0 else dst.getD i 0 := by
  induction n generalizing src dst i with
  | zero => simp [copyFirst]
  | succ n ih =>
    cases src with
    | nil => simp at hs
    | cons u src =>
      cases dst with
      | nil => simp at hd
      | cons v dst =>
        cases i with
        | zero => simp [copyFirst]
        | succ i =>
          simpa [copyFirst] using ih src dst i (by simpa using hs) (by simpa using hd)

theorem mem_copyFirst {n : Nat} {src dst : List Int} {v : Int} (h : v ∈ copyFirst n src dst) :
    v ∈ src ∨ v ∈ dst := by
  induction n generalizing src dst with
  | zero => exact .inr (by simpa [copyFirst] using h)
  | succ n ih =>
    cases src with
    | nil => exact .inr (by simpa [copyFirst] using h)
    | cons a src =>
      cases dst with
      | nil => simp [copyFirst] at h
      | cons b dst =>
        rcases List.mem_cons.mp h with h | h
        · exact .inl (by simp [h])
        · exact (ih h).imp (List.mem_cons_of_mem _) (List.mem_cons_of_mem _)

@[simp] theorem length_addAt (i : Nat) (d : Int) (l : List Int) : (addAt i d l).length = l.length := by
  induction l generalizing i with
  | nil => simp [addAt]
  | cons v l ih => cases i <;> simp [addAt, ih]

theorem getD_addAt (i : Nat) (d : Int) (l : List Int) (j : Nat) (h : i < l.length) :
    (addAt i d l).getD j 0 = if j = i then l.getD j 0 + d else l.getD j 0 := by
  induction l generalizing i j with
  | nil => simp at h
  | cons v l ih =>
    cases i with
    | zero => cases j <;> simp [addAt]
    | succ i =>
      cases j with
      | zero => simp [addAt]
      | succ j => simpa [addAt] using ih i j (by simpa using h)

@[simp] theorem length_spread (w h x y : Nat) (e : Int) (l : List Int) :
    (spread w h x y e l).length = l.length := by
  simp only [spread]
  split
  · split <;> split <;> simp
  · rfl

/-- What the shares of one pixel add to each entry of NXT_ERR (R128 to R130). -/
theorem getD_spread {w h x y : Nat} (e : Int) {l : List Int} (hx : x < w) (hl : w ≤ l.length) (i : Nat) :
    (spread w h x y e l).getD i 0 = l.getD i 0 +
      (if y + 1 < h ∧ i + 1 = x then share e 3 else 0) +
      (if y + 1 < h ∧ i = x then share e 5 else 0) +
      (if y + 1 < h ∧ x + 1 < w ∧ i = x + 1 then share e 1 else 0) := by
  by_cases hy : y + 1 < h
  · have h0 : x - 1 < l.length := by omega
    have h1 : x < l.length := by omega
    simp only [spread, hy, if_true, true_and]
    by_cases hx1 : 1 ≤ x <;> by_cases hx2 : x + 1 < w
    · have h2 : x + 1 < l.length := by omega
      rw [if_pos hx2, if_pos hx1, getD_addAt _ _ _ _ (by simpa using h2),
        getD_addAt _ _ _ _ (by simpa using h1), getD_addAt _ _ _ _ h0]
      split_ifs <;> omega
    · rw [if_neg hx2, if_pos hx1, getD_addAt _ _ _ _ (by simpa using h1), getD_addAt _ _ _ _ h0]
      split_ifs <;> omega
    · have h2 : x + 1 < l.length := by omega
      rw [if_pos hx2, if_neg hx1, getD_addAt _ _ _ _ (by simpa using h2), getD_addAt _ _ _ _ h1]
      split_ifs <;> omega
    · rw [if_neg hx2, if_neg hx1, getD_addAt _ _ _ _ h1]
      split_ifs <;> omega
  · simp [spread, hy]

/-- FLOOR of R126: division by 16 rounds toward minus infinity. -/
theorem share_eq_fdiv (e w : Int) : share e w = Int.fdiv (e * w) 16 := by
  rw [share, Int.fdiv_eq_ediv_of_nonneg _ (by decide)]

end Sys2Proof.Machine
end

