-- ==== Sys2Proof/Laws/PerInstr.lean ====
section
/-! SUPPORT. What holds of each instruction as syntax, one lemma a constructor: its own word is one of its
encodings, decodes to it, and carries no bit outside its mask. -/

namespace Sys2Proof.Laws.RoundTrip

/-- The instruction is well formed, its word has only bits of its mask, and its word decodes to it. -/
def Statement (i : Instr) : Prop :=
  i.wellFormed = true ∧ encodeWord i &&& i.mask = encodeWord i ∧
    decodeWord i.port (encodeWord i) = .ok i

theorem nop : Statement .nop := ⟨rfl, rfl, rfl⟩
theorem start : Statement .start := ⟨rfl, rfl, rfl⟩
theorem abort : Statement .abort := ⟨rfl, rfl, rfl⟩
theorem clear : Statement .clear := ⟨rfl, rfl, rfl⟩
theorem quantFs : Statement .quantFs := ⟨rfl, rfl, rfl⟩
theorem quantDirect : Statement .quantDirect := ⟨rfl, rfl, rfl⟩

theorem outRaster (invert : Bool) : Statement (.outRaster invert) := by
  cases invert <;> exact ⟨rfl, rfl, rfl⟩

theorem outColumn (invert : Bool) : Statement (.outColumn invert) := by
  cases invert <;> exact ⟨rfl, rfl, rfl⟩

theorem outPacked (invert : Bool) : Statement (.outPacked invert) := by
  cases invert <;> exact ⟨rfl, rfl, rfl⟩

end Sys2Proof.Laws.RoundTrip
end

