-- ==== Sys2Proof/Laws/State.lean ====
section
/-! SUPPORT. What each shared update of State does to each field, one lemma a field, so that no later proof
unfolds a record update. -/

namespace Sys2Proof.Machine

/-! ### raiseError -/

@[simp] theorem raiseError_cfg (e : ErrCode) (s : State) : (raiseError e s).cfg = s.cfg := rfl
@[simp] theorem raiseError_ctrl (e : ErrCode) (s : State) : (raiseError e s).ctrl = s.ctrl := rfl
@[simp] theorem raiseError_dim (e : ErrCode) (s : State) : (raiseError e s).dim = s.dim := rfl
@[simp] theorem raiseError_status (e : ErrCode) (s : State) :
    (raiseError e s).status = { s.status with err := true, errCode := e } := rfl
@[simp] theorem raiseError_outLen (e : ErrCode) (s : State) : (raiseError e s).outLen = s.outLen := rfl
@[simp] theorem raiseError_jobCtrl (e : ErrCode) (s : State) : (raiseError e s).jobCtrl = s.jobCtrl := rfl
@[simp] theorem raiseError_jobW (e : ErrCode) (s : State) : (raiseError e s).jobW = s.jobW := rfl
@[simp] theorem raiseError_jobH (e : ErrCode) (s : State) : (raiseError e s).jobH = s.jobH := rfl
@[simp] theorem raiseError_phase (e : ErrCode) (s : State) : (raiseError e s).phase = s.phase := rfl
@[simp] theorem raiseError_x (e : ErrCode) (s : State) : (raiseError e s).x = s.x := rfl
@[simp] theorem raiseError_y (e : ErrCode) (s : State) : (raiseError e s).y = s.y := rfl
@[simp] theorem raiseError_wptr (e : ErrCode) (s : State) : (raiseError e s).wptr = s.wptr := rfl
@[simp] theorem raiseError_eCarry (e : ErrCode) (s : State) : (raiseError e s).eCarry = s.eCarry := rfl
@[simp] theorem raiseError_curErr (e : ErrCode) (s : State) : (raiseError e s).curErr = s.curErr := rfl
@[simp] theorem raiseError_nxtErr (e : ErrCode) (s : State) : (raiseError e s).nxtErr = s.nxtErr := rfl
@[simp] theorem raiseError_packSr (e : ErrCode) (s : State) : (raiseError e s).packSr = s.packSr := rfl
@[simp] theorem raiseError_src (e : ErrCode) (s : State) : (raiseError e s).src = s.src := rfl
@[simp] theorem raiseError_out (e : ErrCode) (s : State) : (raiseError e s).out = s.out := rfl
@[simp] theorem raiseError_hzSrc (e : ErrCode) (s : State) : (raiseError e s).hzSrc = s.hzSrc := rfl
@[simp] theorem raiseError_hzOut (e : ErrCode) (s : State) : (raiseError e s).hzOut = s.hzOut := rfl
@[simp] theorem raiseError_accOvf (e : ErrCode) (s : State) : (raiseError e s).accOvf = s.accOvf := rfl
@[simp] theorem raiseError_pixBit (e : ErrCode) (s : State) : (raiseError e s).pixBit = s.pixBit := rfl
@[simp] theorem raiseError_memEpoch (e : ErrCode) (s : State) : (raiseError e s).memEpoch = s.memEpoch := rfl
@[simp] theorem raiseError_draws (e : ErrCode) (s : State) : (raiseError e s).draws = s.draws := rfl
@[simp] theorem raiseError_host (e : ErrCode) (s : State) : (raiseError e s).host = s.host := rfl
@[simp] theorem raiseError_sched (e : ErrCode) (s : State) : (raiseError e s).sched = s.sched := rfl
@[simp] theorem raiseError_hostReads (e : ErrCode) (s : State) : (raiseError e s).hostReads = s.hostReads := rfl

/-! ### clearFlags -/

@[simp] theorem clearFlags_cfg (s : State) : (clearFlags s).cfg = s.cfg := rfl
@[simp] theorem clearFlags_ctrl (s : State) : (clearFlags s).ctrl = s.ctrl := rfl
@[simp] theorem clearFlags_dim (s : State) : (clearFlags s).dim = s.dim := rfl
@[simp] theorem clearFlags_status (s : State) :
    (clearFlags s).status = s.status.cleared := rfl
@[simp] theorem clearFlags_outLen (s : State) : (clearFlags s).outLen = s.outLen := rfl
@[simp] theorem clearFlags_jobCtrl (s : State) : (clearFlags s).jobCtrl = s.jobCtrl := rfl
@[simp] theorem clearFlags_jobW (s : State) : (clearFlags s).jobW = s.jobW := rfl
@[simp] theorem clearFlags_jobH (s : State) : (clearFlags s).jobH = s.jobH := rfl
@[simp] theorem clearFlags_phase (s : State) : (clearFlags s).phase = s.phase := rfl
@[simp] theorem clearFlags_x (s : State) : (clearFlags s).x = s.x := rfl
@[simp] theorem clearFlags_y (s : State) : (clearFlags s).y = s.y := rfl
@[simp] theorem clearFlags_wptr (s : State) : (clearFlags s).wptr = s.wptr := rfl
@[simp] theorem clearFlags_eCarry (s : State) : (clearFlags s).eCarry = s.eCarry := rfl
@[simp] theorem clearFlags_curErr (s : State) : (clearFlags s).curErr = s.curErr := rfl
@[simp] theorem clearFlags_nxtErr (s : State) : (clearFlags s).nxtErr = s.nxtErr := rfl
@[simp] theorem clearFlags_packSr (s : State) : (clearFlags s).packSr = s.packSr := rfl
@[simp] theorem clearFlags_src (s : State) : (clearFlags s).src = s.src := rfl
@[simp] theorem clearFlags_out (s : State) : (clearFlags s).out = s.out := rfl
@[simp] theorem clearFlags_hzSrc (s : State) : (clearFlags s).hzSrc = s.hzSrc := rfl
@[simp] theorem clearFlags_hzOut (s : State) : (clearFlags s).hzOut = s.hzOut := rfl
@[simp] theorem clearFlags_accOvf (s : State) : (clearFlags s).accOvf = s.accOvf := rfl
@[simp] theorem clearFlags_pixBit (s : State) : (clearFlags s).pixBit = s.pixBit := rfl
@[simp] theorem clearFlags_memEpoch (s : State) : (clearFlags s).memEpoch = s.memEpoch := rfl
@[simp] theorem clearFlags_draws (s : State) : (clearFlags s).draws = s.draws := rfl
@[simp] theorem clearFlags_host (s : State) : (clearFlags s).host = s.host := rfl
@[simp] theorem clearFlags_sched (s : State) : (clearFlags s).sched = s.sched := rfl
@[simp] theorem clearFlags_hostReads (s : State) : (clearFlags s).hostReads = s.hostReads := rfl

/-! ### ignoreCommand -/

@[simp] theorem ignoreCommand_cfg (s : State) : (ignoreCommand s).cfg = s.cfg := rfl
@[simp] theorem ignoreCommand_ctrl (s : State) : (ignoreCommand s).ctrl = s.ctrl := rfl
@[simp] theorem ignoreCommand_dim (s : State) : (ignoreCommand s).dim = s.dim := rfl
@[simp] theorem ignoreCommand_status (s : State) :
    (ignoreCommand s).status = { s.status with cmdIgn := true } := rfl
@[simp] theorem ignoreCommand_outLen (s : State) : (ignoreCommand s).outLen = s.outLen := rfl
@[simp] theorem ignoreCommand_jobCtrl (s : State) : (ignoreCommand s).jobCtrl = s.jobCtrl := rfl
@[simp] theorem ignoreCommand_jobW (s : State) : (ignoreCommand s).jobW = s.jobW := rfl
@[simp] theorem ignoreCommand_jobH (s : State) : (ignoreCommand s).jobH = s.jobH := rfl
@[simp] theorem ignoreCommand_phase (s : State) : (ignoreCommand s).phase = s.phase := rfl
@[simp] theorem ignoreCommand_x (s : State) : (ignoreCommand s).x = s.x := rfl
@[simp] theorem ignoreCommand_y (s : State) : (ignoreCommand s).y = s.y := rfl
@[simp] theorem ignoreCommand_wptr (s : State) : (ignoreCommand s).wptr = s.wptr := rfl
@[simp] theorem ignoreCommand_eCarry (s : State) : (ignoreCommand s).eCarry = s.eCarry := rfl
@[simp] theorem ignoreCommand_curErr (s : State) : (ignoreCommand s).curErr = s.curErr := rfl
@[simp] theorem ignoreCommand_nxtErr (s : State) : (ignoreCommand s).nxtErr = s.nxtErr := rfl
@[simp] theorem ignoreCommand_packSr (s : State) : (ignoreCommand s).packSr = s.packSr := rfl
@[simp] theorem ignoreCommand_src (s : State) : (ignoreCommand s).src = s.src := rfl
@[simp] theorem ignoreCommand_out (s : State) : (ignoreCommand s).out = s.out := rfl
@[simp] theorem ignoreCommand_hzSrc (s : State) : (ignoreCommand s).hzSrc = s.hzSrc := rfl
@[simp] theorem ignoreCommand_hzOut (s : State) : (ignoreCommand s).hzOut = s.hzOut := rfl
@[simp] theorem ignoreCommand_accOvf (s : State) : (ignoreCommand s).accOvf = s.accOvf := rfl
@[simp] theorem ignoreCommand_pixBit (s : State) : (ignoreCommand s).pixBit = s.pixBit := rfl
@[simp] theorem ignoreCommand_memEpoch (s : State) : (ignoreCommand s).memEpoch = s.memEpoch := rfl
@[simp] theorem ignoreCommand_draws (s : State) : (ignoreCommand s).draws = s.draws := rfl
@[simp] theorem ignoreCommand_host (s : State) : (ignoreCommand s).host = s.host := rfl
@[simp] theorem ignoreCommand_sched (s : State) : (ignoreCommand s).sched = s.sched := rfl
@[simp] theorem ignoreCommand_hostReads (s : State) : (ignoreCommand s).hostReads = s.hostReads := rfl

/-! ### logRead -/

@[simp] theorem logRead_cfg (w : Word) (s : State) : (logRead w s).cfg = s.cfg := rfl
@[simp] theorem logRead_ctrl (w : Word) (s : State) : (logRead w s).ctrl = s.ctrl := rfl
@[simp] theorem logRead_dim (w : Word) (s : State) : (logRead w s).dim = s.dim := rfl
@[simp] theorem logRead_status (w : Word) (s : State) : (logRead w s).status = s.status := rfl
@[simp] theorem logRead_outLen (w : Word) (s : State) : (logRead w s).outLen = s.outLen := rfl
@[simp] theorem logRead_jobCtrl (w : Word) (s : State) : (logRead w s).jobCtrl = s.jobCtrl := rfl
@[simp] theorem logRead_jobW (w : Word) (s : State) : (logRead w s).jobW = s.jobW := rfl
@[simp] theorem logRead_jobH (w : Word) (s : State) : (logRead w s).jobH = s.jobH := rfl
@[simp] theorem logRead_phase (w : Word) (s : State) : (logRead w s).phase = s.phase := rfl
@[simp] theorem logRead_x (w : Word) (s : State) : (logRead w s).x = s.x := rfl
@[simp] theorem logRead_y (w : Word) (s : State) : (logRead w s).y = s.y := rfl
@[simp] theorem logRead_wptr (w : Word) (s : State) : (logRead w s).wptr = s.wptr := rfl
@[simp] theorem logRead_eCarry (w : Word) (s : State) : (logRead w s).eCarry = s.eCarry := rfl
@[simp] theorem logRead_curErr (w : Word) (s : State) : (logRead w s).curErr = s.curErr := rfl
@[simp] theorem logRead_nxtErr (w : Word) (s : State) : (logRead w s).nxtErr = s.nxtErr := rfl
@[simp] theorem logRead_packSr (w : Word) (s : State) : (logRead w s).packSr = s.packSr := rfl
@[simp] theorem logRead_src (w : Word) (s : State) : (logRead w s).src = s.src := rfl
@[simp] theorem logRead_out (w : Word) (s : State) : (logRead w s).out = s.out := rfl
@[simp] theorem logRead_hzSrc (w : Word) (s : State) : (logRead w s).hzSrc = s.hzSrc := rfl
@[simp] theorem logRead_hzOut (w : Word) (s : State) : (logRead w s).hzOut = s.hzOut := rfl
@[simp] theorem logRead_accOvf (w : Word) (s : State) : (logRead w s).accOvf = s.accOvf := rfl
@[simp] theorem logRead_pixBit (w : Word) (s : State) : (logRead w s).pixBit = s.pixBit := rfl
@[simp] theorem logRead_memEpoch (w : Word) (s : State) : (logRead w s).memEpoch = s.memEpoch := rfl
@[simp] theorem logRead_draws (w : Word) (s : State) : (logRead w s).draws = s.draws := rfl
@[simp] theorem logRead_host (w : Word) (s : State) : (logRead w s).host = s.host := rfl
@[simp] theorem logRead_sched (w : Word) (s : State) : (logRead w s).sched = s.sched := rfl
@[simp] theorem logRead_hostReads (w : Word) (s : State) :
    (logRead w s).hostReads = w :: s.hostReads := rfl

/-! ### startClear -/

@[simp] theorem startClear_cfg (s : State) : (startClear s).cfg = s.cfg := rfl
@[simp] theorem startClear_ctrl (s : State) : (startClear s).ctrl = s.ctrl := rfl
@[simp] theorem startClear_dim (s : State) : (startClear s).dim = s.dim := rfl
@[simp] theorem startClear_status (s : State) :
    (startClear s).status = s.status.cleared := rfl
@[simp] theorem startClear_outLen (s : State) :
    (startClear s).outLen = 0 := rfl
@[simp] theorem startClear_jobCtrl (s : State) : (startClear s).jobCtrl = s.jobCtrl := rfl
@[simp] theorem startClear_jobW (s : State) : (startClear s).jobW = s.jobW := rfl
@[simp] theorem startClear_jobH (s : State) : (startClear s).jobH = s.jobH := rfl
@[simp] theorem startClear_phase (s : State) : (startClear s).phase = s.phase := rfl
@[simp] theorem startClear_x (s : State) : (startClear s).x = s.x := rfl
@[simp] theorem startClear_y (s : State) : (startClear s).y = s.y := rfl
@[simp] theorem startClear_wptr (s : State) : (startClear s).wptr = s.wptr := rfl
@[simp] theorem startClear_eCarry (s : State) : (startClear s).eCarry = s.eCarry := rfl
@[simp] theorem startClear_curErr (s : State) : (startClear s).curErr = s.curErr := rfl
@[simp] theorem startClear_nxtErr (s : State) : (startClear s).nxtErr = s.nxtErr := rfl
@[simp] theorem startClear_packSr (s : State) : (startClear s).packSr = s.packSr := rfl
@[simp] theorem startClear_src (s : State) : (startClear s).src = s.src := rfl
@[simp] theorem startClear_out (s : State) : (startClear s).out = s.out := rfl
@[simp] theorem startClear_hzSrc (s : State) : (startClear s).hzSrc = s.hzSrc := rfl
@[simp] theorem startClear_hzOut (s : State) : (startClear s).hzOut = s.hzOut := rfl
@[simp] theorem startClear_accOvf (s : State) : (startClear s).accOvf = s.accOvf := rfl
@[simp] theorem startClear_pixBit (s : State) : (startClear s).pixBit = s.pixBit := rfl
@[simp] theorem startClear_memEpoch (s : State) : (startClear s).memEpoch = s.memEpoch := rfl
@[simp] theorem startClear_draws (s : State) : (startClear s).draws = s.draws := rfl
@[simp] theorem startClear_host (s : State) : (startClear s).host = s.host := rfl
@[simp] theorem startClear_sched (s : State) : (startClear s).sched = s.sched := rfl
@[simp] theorem startClear_hostReads (s : State) : (startClear s).hostReads = s.hostReads := rfl

/-! ### packBit -/

@[simp] theorem packBit_cfg (s : State) : (packBit s).cfg = s.cfg := rfl
@[simp] theorem packBit_ctrl (s : State) : (packBit s).ctrl = s.ctrl := rfl
@[simp] theorem packBit_dim (s : State) : (packBit s).dim = s.dim := rfl
@[simp] theorem packBit_status (s : State) : (packBit s).status = s.status := rfl
@[simp] theorem packBit_outLen (s : State) : (packBit s).outLen = s.outLen := rfl
@[simp] theorem packBit_jobCtrl (s : State) : (packBit s).jobCtrl = s.jobCtrl := rfl
@[simp] theorem packBit_jobW (s : State) : (packBit s).jobW = s.jobW := rfl
@[simp] theorem packBit_jobH (s : State) : (packBit s).jobH = s.jobH := rfl
@[simp] theorem packBit_phase (s : State) : (packBit s).phase = s.phase := rfl
@[simp] theorem packBit_x (s : State) : (packBit s).x = s.x := rfl
@[simp] theorem packBit_y (s : State) : (packBit s).y = s.y := rfl
@[simp] theorem packBit_wptr (s : State) : (packBit s).wptr = s.wptr := rfl
@[simp] theorem packBit_eCarry (s : State) : (packBit s).eCarry = s.eCarry := rfl
@[simp] theorem packBit_curErr (s : State) : (packBit s).curErr = s.curErr := rfl
@[simp] theorem packBit_nxtErr (s : State) : (packBit s).nxtErr = s.nxtErr := rfl
@[simp] theorem packBit_packSr (s : State) :
    (packBit s).packSr = shiftIn s.packSr s.pixBit := rfl
@[simp] theorem packBit_src (s : State) : (packBit s).src = s.src := rfl
@[simp] theorem packBit_out (s : State) : (packBit s).out = s.out := rfl
@[simp] theorem packBit_hzSrc (s : State) : (packBit s).hzSrc = s.hzSrc := rfl
@[simp] theorem packBit_hzOut (s : State) : (packBit s).hzOut = s.hzOut := rfl
@[simp] theorem packBit_accOvf (s : State) : (packBit s).accOvf = s.accOvf := rfl
@[simp] theorem packBit_pixBit (s : State) : (packBit s).pixBit = s.pixBit := rfl
@[simp] theorem packBit_memEpoch (s : State) : (packBit s).memEpoch = s.memEpoch := rfl
@[simp] theorem packBit_draws (s : State) : (packBit s).draws = s.draws := rfl
@[simp] theorem packBit_host (s : State) : (packBit s).host = s.host := rfl
@[simp] theorem packBit_sched (s : State) : (packBit s).sched = s.sched := rfl
@[simp] theorem packBit_hostReads (s : State) : (packBit s).hostReads = s.hostReads := rfl

/-! ### stepFin -/

@[simp] theorem stepFin_cfg (s : State) : (stepFin s).cfg = s.cfg := rfl
@[simp] theorem stepFin_ctrl (s : State) : (stepFin s).ctrl = s.ctrl := rfl
@[simp] theorem stepFin_dim (s : State) : (stepFin s).dim = s.dim := rfl
@[simp] theorem stepFin_status (s : State) :
    (stepFin s).status = { s.status with busy := false, done := true } := rfl
@[simp] theorem stepFin_outLen (s : State) :
    (stepFin s).outLen = BitVec.ofNat 32 s.jobLen := rfl
@[simp] theorem stepFin_jobCtrl (s : State) : (stepFin s).jobCtrl = s.jobCtrl := rfl
@[simp] theorem stepFin_jobW (s : State) : (stepFin s).jobW = s.jobW := rfl
@[simp] theorem stepFin_jobH (s : State) : (stepFin s).jobH = s.jobH := rfl
@[simp] theorem stepFin_phase (s : State) :
    (stepFin s).phase = .idle := rfl
@[simp] theorem stepFin_x (s : State) : (stepFin s).x = s.x := rfl
@[simp] theorem stepFin_y (s : State) : (stepFin s).y = s.y := rfl
@[simp] theorem stepFin_wptr (s : State) : (stepFin s).wptr = s.wptr := rfl
@[simp] theorem stepFin_eCarry (s : State) : (stepFin s).eCarry = s.eCarry := rfl
@[simp] theorem stepFin_curErr (s : State) : (stepFin s).curErr = s.curErr := rfl
@[simp] theorem stepFin_nxtErr (s : State) : (stepFin s).nxtErr = s.nxtErr := rfl
@[simp] theorem stepFin_packSr (s : State) : (stepFin s).packSr = s.packSr := rfl
@[simp] theorem stepFin_src (s : State) : (stepFin s).src = s.src := rfl
@[simp] theorem stepFin_out (s : State) : (stepFin s).out = s.out := rfl
@[simp] theorem stepFin_hzSrc (s : State) : (stepFin s).hzSrc = s.hzSrc := rfl
@[simp] theorem stepFin_hzOut (s : State) : (stepFin s).hzOut = s.hzOut := rfl
@[simp] theorem stepFin_accOvf (s : State) : (stepFin s).accOvf = s.accOvf := rfl
@[simp] theorem stepFin_pixBit (s : State) : (stepFin s).pixBit = s.pixBit := rfl
@[simp] theorem stepFin_memEpoch (s : State) : (stepFin s).memEpoch = s.memEpoch := rfl
@[simp] theorem stepFin_draws (s : State) : (stepFin s).draws = s.draws := rfl
@[simp] theorem stepFin_host (s : State) : (stepFin s).host = s.host := rfl
@[simp] theorem stepFin_sched (s : State) : (stepFin s).sched = s.sched := rfl
@[simp] theorem stepFin_hostReads (s : State) : (stepFin s).hostReads = s.hostReads := rfl

/-! ### beginJob -/

@[simp] theorem beginJob_cfg (s : State) : (beginJob s).cfg = s.cfg := rfl
@[simp] theorem beginJob_ctrl (s : State) : (beginJob s).ctrl = s.ctrl := rfl
@[simp] theorem beginJob_dim (s : State) : (beginJob s).dim = s.dim := rfl
@[simp] theorem beginJob_status (s : State) :
    (beginJob s).status = { s.status with busy := true } := rfl
@[simp] theorem beginJob_outLen (s : State) : (beginJob s).outLen = s.outLen := rfl
@[simp] theorem beginJob_jobCtrl (s : State) :
    (beginJob s).jobCtrl = s.ctrl := rfl
@[simp] theorem beginJob_jobW (s : State) :
    (beginJob s).jobW = widthOf s.dim := rfl
@[simp] theorem beginJob_jobH (s : State) :
    (beginJob s).jobH = heightOf s.dim := rfl
@[simp] theorem beginJob_phase (s : State) :
    (beginJob s).phase = .hdr := rfl
@[simp] theorem beginJob_src (s : State) : (beginJob s).src = s.src := rfl
@[simp] theorem beginJob_out (s : State) : (beginJob s).out = s.out := rfl
@[simp] theorem beginJob_hzSrc (s : State) : (beginJob s).hzSrc = s.hzSrc := rfl
@[simp] theorem beginJob_hzOut (s : State) : (beginJob s).hzOut = s.hzOut := rfl
@[simp] theorem beginJob_accOvf (s : State) : (beginJob s).accOvf = s.accOvf := rfl
@[simp] theorem beginJob_pixBit (s : State) : (beginJob s).pixBit = s.pixBit := rfl
@[simp] theorem beginJob_memEpoch (s : State) : (beginJob s).memEpoch = s.memEpoch := rfl
@[simp] theorem beginJob_draws (s : State) : (beginJob s).draws = s.draws := rfl
@[simp] theorem beginJob_host (s : State) : (beginJob s).host = s.host := rfl
@[simp] theorem beginJob_sched (s : State) : (beginJob s).sched = s.sched := rfl
@[simp] theorem beginJob_hostReads (s : State) : (beginJob s).hostReads = s.hostReads := rfl

/-! ### abortJob -/

@[simp] theorem abortJob_cfg (s : State) : (abortJob s).cfg = s.cfg := rfl
@[simp] theorem abortJob_ctrl (s : State) : (abortJob s).ctrl = s.ctrl := rfl
@[simp] theorem abortJob_dim (s : State) : (abortJob s).dim = s.dim := rfl
@[simp] theorem abortJob_outLen (s : State) :
    (abortJob s).outLen = 0 := rfl
@[simp] theorem abortJob_jobCtrl (s : State) : (abortJob s).jobCtrl = s.jobCtrl := rfl
@[simp] theorem abortJob_jobW (s : State) : (abortJob s).jobW = s.jobW := rfl
@[simp] theorem abortJob_jobH (s : State) : (abortJob s).jobH = s.jobH := rfl
@[simp] theorem abortJob_phase (s : State) :
    (abortJob s).phase = .idle := rfl
@[simp] theorem abortJob_x (s : State) : (abortJob s).x = s.x := rfl
@[simp] theorem abortJob_y (s : State) : (abortJob s).y = s.y := rfl
@[simp] theorem abortJob_wptr (s : State) : (abortJob s).wptr = s.wptr := rfl
@[simp] theorem abortJob_eCarry (s : State) : (abortJob s).eCarry = s.eCarry := rfl
@[simp] theorem abortJob_curErr (s : State) : (abortJob s).curErr = s.curErr := rfl
@[simp] theorem abortJob_nxtErr (s : State) : (abortJob s).nxtErr = s.nxtErr := rfl
@[simp] theorem abortJob_packSr (s : State) : (abortJob s).packSr = s.packSr := rfl
@[simp] theorem abortJob_src (s : State) : (abortJob s).src = s.src := rfl
@[simp] theorem abortJob_hzSrc (s : State) : (abortJob s).hzSrc = s.hzSrc := rfl
@[simp] theorem abortJob_hzOut (s : State) : (abortJob s).hzOut = s.hzOut := rfl
@[simp] theorem abortJob_accOvf (s : State) : (abortJob s).accOvf = s.accOvf := rfl
@[simp] theorem abortJob_pixBit (s : State) : (abortJob s).pixBit = s.pixBit := rfl
@[simp] theorem abortJob_memEpoch (s : State) : (abortJob s).memEpoch = s.memEpoch := rfl
@[simp] theorem abortJob_draws (s : State) :
    (abortJob s).draws = s.draws + 1 := rfl
@[simp] theorem abortJob_host (s : State) : (abortJob s).host = s.host := rfl
@[simp] theorem abortJob_sched (s : State) : (abortJob s).sched = s.sched := rfl
@[simp] theorem abortJob_hostReads (s : State) : (abortJob s).hostReads = s.hostReads := rfl

/-! ### quantFsState -/

@[simp] theorem quantFsState_cfg (s : State) : (quantFsState s).cfg = s.cfg := rfl
@[simp] theorem quantFsState_ctrl (s : State) : (quantFsState s).ctrl = s.ctrl := rfl
@[simp] theorem quantFsState_dim (s : State) : (quantFsState s).dim = s.dim := rfl
@[simp] theorem quantFsState_status (s : State) : (quantFsState s).status = s.status := rfl
@[simp] theorem quantFsState_outLen (s : State) : (quantFsState s).outLen = s.outLen := rfl
@[simp] theorem quantFsState_jobCtrl (s : State) : (quantFsState s).jobCtrl = s.jobCtrl := rfl
@[simp] theorem quantFsState_jobW (s : State) : (quantFsState s).jobW = s.jobW := rfl
@[simp] theorem quantFsState_jobH (s : State) : (quantFsState s).jobH = s.jobH := rfl
@[simp] theorem quantFsState_phase (s : State) : (quantFsState s).phase = s.phase := rfl
@[simp] theorem quantFsState_x (s : State) : (quantFsState s).x = s.x := rfl
@[simp] theorem quantFsState_y (s : State) : (quantFsState s).y = s.y := rfl
@[simp] theorem quantFsState_wptr (s : State) : (quantFsState s).wptr = s.wptr := rfl
@[simp] theorem quantFsState_curErr (s : State) : (quantFsState s).curErr = s.curErr := rfl
@[simp] theorem quantFsState_packSr (s : State) : (quantFsState s).packSr = s.packSr := rfl
@[simp] theorem quantFsState_src (s : State) : (quantFsState s).src = s.src := rfl
@[simp] theorem quantFsState_out (s : State) : (quantFsState s).out = s.out := rfl
@[simp] theorem quantFsState_hzSrc (s : State) : (quantFsState s).hzSrc = s.hzSrc := rfl
@[simp] theorem quantFsState_hzOut (s : State) : (quantFsState s).hzOut = s.hzOut := rfl
@[simp] theorem quantFsState_memEpoch (s : State) : (quantFsState s).memEpoch = s.memEpoch := rfl
@[simp] theorem quantFsState_draws (s : State) : (quantFsState s).draws = s.draws := rfl
@[simp] theorem quantFsState_host (s : State) : (quantFsState s).host = s.host := rfl
@[simp] theorem quantFsState_sched (s : State) : (quantFsState s).sched = s.sched := rfl
@[simp] theorem quantFsState_hostReads (s : State) : (quantFsState s).hostReads = s.hostReads := rfl

/-! ### resetEvent -/

@[simp] theorem resetEvent_cfg (s : State) : (resetEvent s).cfg = s.cfg := rfl
@[simp] theorem resetEvent_jobCtrl (s : State) :
    (resetEvent s).jobCtrl = 0 := rfl
@[simp] theorem resetEvent_jobW (s : State) :
    (resetEvent s).jobW = 0 := rfl
@[simp] theorem resetEvent_jobH (s : State) :
    (resetEvent s).jobH = 0 := rfl
@[simp] theorem resetEvent_phase (s : State) :
    (resetEvent s).phase = .idle := rfl
@[simp] theorem resetEvent_hzSrc (s : State) : (resetEvent s).hzSrc = s.hzSrc := rfl
@[simp] theorem resetEvent_hzOut (s : State) : (resetEvent s).hzOut = s.hzOut := rfl
@[simp] theorem resetEvent_accOvf (s : State) : (resetEvent s).accOvf = s.accOvf := rfl
@[simp] theorem resetEvent_memEpoch (s : State) :
    (resetEvent s).memEpoch = s.draws := rfl
@[simp] theorem resetEvent_draws (s : State) :
    (resetEvent s).draws = s.draws + 1 := rfl
@[simp] theorem resetEvent_host (s : State) : (resetEvent s).host = s.host := rfl
@[simp] theorem resetEvent_sched (s : State) : (resetEvent s).sched = s.sched := rfl
@[simp] theorem resetEvent_hostReads (s : State) : (resetEvent s).hostReads = s.hostReads := rfl

/-! ### rowEnd -/

@[simp] theorem rowEnd_cfg (s : State) : (rowEnd s).cfg = s.cfg := rfl
@[simp] theorem rowEnd_ctrl (s : State) : (rowEnd s).ctrl = s.ctrl := rfl
@[simp] theorem rowEnd_dim (s : State) : (rowEnd s).dim = s.dim := rfl
@[simp] theorem rowEnd_status (s : State) : (rowEnd s).status = s.status := rfl
@[simp] theorem rowEnd_outLen (s : State) : (rowEnd s).outLen = s.outLen := rfl
@[simp] theorem rowEnd_jobCtrl (s : State) : (rowEnd s).jobCtrl = s.jobCtrl := rfl
@[simp] theorem rowEnd_jobW (s : State) : (rowEnd s).jobW = s.jobW := rfl
@[simp] theorem rowEnd_jobH (s : State) : (rowEnd s).jobH = s.jobH := rfl
@[simp] theorem rowEnd_x (s : State) :
    (rowEnd s).x = 0 := rfl
@[simp] theorem rowEnd_y (s : State) :
    (rowEnd s).y = s.y + 1 := rfl
@[simp] theorem rowEnd_wptr (s : State) : (rowEnd s).wptr = s.wptr := rfl
@[simp] theorem rowEnd_eCarry (s : State) :
    (rowEnd s).eCarry = 0 := rfl
@[simp] theorem rowEnd_packSr (s : State) : (rowEnd s).packSr = s.packSr := rfl
@[simp] theorem rowEnd_src (s : State) : (rowEnd s).src = s.src := rfl
@[simp] theorem rowEnd_out (s : State) : (rowEnd s).out = s.out := rfl
@[simp] theorem rowEnd_hzSrc (s : State) : (rowEnd s).hzSrc = s.hzSrc := rfl
@[simp] theorem rowEnd_hzOut (s : State) : (rowEnd s).hzOut = s.hzOut := rfl
@[simp] theorem rowEnd_accOvf (s : State) : (rowEnd s).accOvf = s.accOvf := rfl
@[simp] theorem rowEnd_pixBit (s : State) : (rowEnd s).pixBit = s.pixBit := rfl
@[simp] theorem rowEnd_memEpoch (s : State) : (rowEnd s).memEpoch = s.memEpoch := rfl
@[simp] theorem rowEnd_draws (s : State) : (rowEnd s).draws = s.draws := rfl
@[simp] theorem rowEnd_host (s : State) : (rowEnd s).host = s.host := rfl
@[simp] theorem rowEnd_sched (s : State) : (rowEnd s).sched = s.sched := rfl
@[simp] theorem rowEnd_hostReads (s : State) : (rowEnd s).hostReads = s.hostReads := rfl

end Sys2Proof.Machine
end

