-- ==== Sys2Proof/Laws/Step.lean ====
section
/-! SUPPORT. Once for each layer of the step, what it can do: the turns, the engine's steps, the operations a
job's CTRL word selects, the host's accesses. -/

namespace Sys2Proof.Machine

/-! ### Turns -/

theorem step_of_sched {s : State} {t : Turn} {ts : List Turn} (h : s.sched = t :: ts) :
    step s = takeTurn t { s with sched := ts } := by
  simp only [step, nextMove, h]

theorem idleTurn_of_idle {s : State} (h : s.phase = .idle) : idleTurn s = .host := by
  simp [idleTurn, State.running, h]

theorem idleTurn_of_running {s : State} (h : s.phase ≠ .idle) : idleTurn s = .engine := by
  simp [idleTurn, State.running, h]

theorem step_of_idle {s : State} (h : s.sched = []) (hp : s.phase = .idle) : step s = hostTurn s := by
  simp only [step, nextMove, h, idleTurn_of_idle hp, takeTurn]

theorem step_of_running {s : State} (h : s.sched = []) (hp : s.phase ≠ .idle) :
    step s = engineTurn s := by
  simp only [step, nextMove, h, idleTurn_of_running hp, takeTurn]

/-- The host's turn: the schedule names it, or is empty while no job runs. -/
theorem step_of_host {s : State} {ts : List Turn}
    (h : s.sched = .host :: ts ∨ (s.sched = [] ∧ ts = [] ∧ s.phase = .idle)) :
    step s = hostTurn { s with sched := ts } := by
  obtain h | ⟨h, rfl, hp⟩ := h
  · exact step_of_sched h
  · rw [step_of_idle h hp, ← h]

theorem hostTurn_line {s : State} {op : HostOp} {rest : List HostOp} (h : s.host = op :: rest) :
    hostTurn s = hostOp op { s with host := rest } := by
  simp only [hostTurn, h]

/-- Every step is one turn, on the state or on the state with its schedule shortened. -/
theorem step_eq_turn (s : State) :
    ∃ (t : Turn) (ts : List Turn), step s = takeTurn t { s with sched := ts } ∧
      (t = .reset → s.sched.head? = some .reset) := by
  cases h : s.sched with
  | nil =>
    refine ⟨idleTurn s, [], ?_, ?_⟩
    · have hs : { s with sched := [] } = s := by rw [← h]
      rw [hs]
      simp only [step, nextMove, h]
    · unfold idleTurn; split <;> simp
  | cons t ts => exact ⟨t, ts, step_of_sched h, by rintro rfl; rfl⟩

theorem engineTurn_idle {s : State} (h : s.phase = .idle) : engineTurn s = .next s := by
  unfold engineTurn; rw [h]

theorem engineTurn_hdr {s : State} (h : s.phase = .hdr) : engineTurn s = stepHdr s := by
  unfold engineTurn; rw [h]

theorem engineTurn_pix {s : State} (h : s.phase = .pix) : engineTurn s = stepPix s := by
  unfold engineTurn; rw [h]

theorem engineTurn_fin {s : State} (h : s.phase = .fin) : engineTurn s = .next (stepFin s) := by
  unfold engineTurn; rw [h]

/-! ### The operations of a job -/

theorem runField_quant (s : State) :
    runField .quant s = if ditherOf s.jobCtrl then execQuantFs s else execQuantDirect s := by
  have hb : ditherBit s.jobWord = ditherOf s.jobCtrl := by
    simp [ditherBit, ditherOf, State.jobWord]
  simp only [runField, decodeWord, decodeQuant, hb]
  cases ditherOf s.jobCtrl <;> rfl

theorem formatField_jobWord (s : State) : formatField s.jobWord = fmtOf s.jobCtrl := by
  simp only [formatField, fmtOf, State.jobWord]
  generalize s.jobCtrl = c
  revert c
  decide

theorem invertBit_jobWord (s : State) : invertBit s.jobWord = invertOf s.jobCtrl := by
  simp [invertBit, invertOf, State.jobWord]

theorem runField_record (s : State) :
    runField .record s =
      if fmtOf s.jobCtrl = 0#2 then execOutRaster (invertOf s.jobCtrl) s
      else if fmtOf s.jobCtrl = 1#2 then execOutColumn (invertOf s.jobCtrl) s
      else if fmtOf s.jobCtrl = 2#2 then execOutPacked (invertOf s.jobCtrl) s
      else .fault .reservedJobFormat := by
  simp only [runField, decodeWord, decodeRecord, formatField_jobWord, invertBit_jobWord]
  split_ifs <;> rfl

theorem quantFsPixel_eq_next {s t : State} (h : quantFsPixel s = .next t) :
    s.pixelAddr < s.cfg.srcSize ∧ s.rowsFit = true ∧ t = quantFsState s := by
  unfold quantFsPixel at h
  split at h
  · next h1 =>
    split at h
    · next h2 => cases h; exact ⟨h1, h2, rfl⟩
    · cases h
  · cases h

theorem quantDirectPixel_eq_next {s t : State} (h : quantDirectPixel s = .next t) :
    s.pixelAddr < s.cfg.srcSize ∧ t = { s with pixBit := directBlack (s.srcByte s.pixelAddr) } := by
  unfold quantDirectPixel at h
  split at h
  · next h1 => cases h; exact ⟨h1, rfl⟩
  · cases h

/-- What the quantiser of a STEP_PIX can do. -/
theorem runQuant_pix {s t : State} (hp : s.phase = .pix) (h : runField .quant s = .next t) :
    s.pixelAddr < s.cfg.srcSize ∧
      ((ditherOf s.jobCtrl = true ∧ s.rowsFit = true ∧ t = quantFsState s) ∨
        (ditherOf s.jobCtrl = false ∧
          t = { s with pixBit := directBlack (s.srcByte s.pixelAddr) })) := by
  rw [runField_quant] at h
  cases hd : ditherOf s.jobCtrl with
  | true =>
    simp only [hd, if_true, execQuantFs, hp] at h
    obtain ⟨h1, h2, h3⟩ := quantFsPixel_eq_next h
    exact ⟨h1, .inl ⟨rfl, h2, h3⟩⟩
  | false =>
    simp only [hd, Bool.false_eq_true, if_false, execQuantDirect, hp] at h
    obtain ⟨h1, h2⟩ := quantDirectPixel_eq_next h
    exact ⟨h1, .inr ⟨rfl, h2⟩⟩

/-- What the packed formats' part of a STEP_PIX can do. -/
theorem packPixel_eq_next {invert : Bool} {s t : State} (h : packPixel invert s = .next t) :
    (groupEnds s.jobW.toNat s.x.toNat = false ∧ t = packBit s) ∨
    (groupEnds s.jobW.toNat s.x.toNat = true ∧ s.wptr.toNat < s.cfg.outSize ∧
      t = { s with
        out := s.out.put s.wptr.toNat (emittedByte invert (packBit s))
        wptr := s.wptr + 1, packSr := 0 }) := by
  unfold packPixel at h
  split at h
  · next hg =>
    obtain ⟨u, hu, h⟩ := andThen_eq_next.mp h
    obtain ⟨hlt, rfl⟩ := putOut_eq_next hu
    cases h
    exact .inr ⟨hg, hlt, rfl⟩
  · next hg => cases h; exact .inl ⟨by simpa using hg, rfl⟩

/-- What the record row of a STEP_PIX can do. -/
theorem runRecord_pix {s t : State} (hp : s.phase = .pix) (h : runField .record s = .next t) :
    (fmtOf s.jobCtrl = 1#2 ∧ columnAddr s.jobH.toNat s.x.toNat s.y.toNat < s.cfg.outSize ∧
      t = { s with
        out := s.out.put (columnAddr s.jobH.toNat s.x.toNat s.y.toNat)
          (invertByte (invertOf s.jobCtrl) (pixelByte s.pixBit)) }) ∨
    (fmtOf s.jobCtrl ≠ 1#2 ∧ fmtOf s.jobCtrl ≠ 3#2 ∧
      packPixel (invertOf s.jobCtrl) s = .next t) := by
  rw [runField_record] at h
  split at h
  · next h0 =>
    simp only [execOutRaster, hp] at h
    exact .inr ⟨by rw [h0]; decide, by rw [h0]; decide, h⟩
  · split at h
    · next h1 =>
      simp only [execOutColumn, hp, columnPixel] at h
      obtain ⟨ha, rfl⟩ := putOut_eq_next h
      exact .inl ⟨h1, ha, rfl⟩
    · split at h
      · next h2 =>
        simp only [execOutPacked, hp] at h
        exact .inr ⟨by rw [h2]; decide, by rw [h2]; decide, h⟩
      · cases h

/-- What the record row of a STEP_HDR can do: it writes the header, if there is one, and nothing else. -/
theorem runRecord_hdr {s t : State} (hp : s.phase = .hdr) (h : runField .record s = .next t) :
    fmtOf s.jobCtrl ≠ 3#2 ∧
    ∃ bs : List Byte, bs.length = headerLen (fmtOf s.jobCtrl) ∧
      (bs = [] ∨ bs.length ≤ s.cfg.outSize) ∧
      (fmtOf s.jobCtrl = 0#2 → bs = rasterHeader s.jobW.toNat s.jobH.toNat) ∧
      (fmtOf s.jobCtrl = 1#2 → bs = columnHeader s.jobW.toNat) ∧
      t = { s with out := s.out.puts 0 bs } := by
  rw [runField_record] at h
  split at h
  · next h0 =>
    simp only [execOutRaster, hp] at h
    obtain ⟨hle, rfl⟩ := putOuts_eq_next h
    refine ⟨by rw [h0]; decide, _, by simp [h0, headerLen, rasterHeader, le16],
      by simpa using hle, fun _ => rfl, fun h1 => by simp [h0] at h1, rfl⟩
  · next h0 =>
    split at h
    · next h1 =>
      simp only [execOutColumn, hp] at h
      obtain ⟨hle, rfl⟩ := putOuts_eq_next h
      refine ⟨by rw [h1]; decide, _, by simp [h1, headerLen, columnHeader, le16],
        by simpa using hle, fun e => absurd e h0, fun _ => rfl, rfl⟩
    · next h1 =>
      split at h
      · next h2 =>
        simp only [execOutPacked, hp] at h
        cases h
        exact ⟨by rw [h2]; decide, [], by simp [h2, headerLen], .inl rfl,
          fun e => absurd e h0, fun e => absurd e h1, rfl⟩
      · cases h

/-- The four kinds of engine step, each with what its parts can do. -/
theorem engineTurn_cases {s t : State} (h : engineTurn s = .next t) :
    (s.phase = .idle ∧ t = s) ∨
    (s.phase = .hdr ∧ ∃ u, runField .record s = .next u ∧ t = { u with phase := .pix }) ∨
    (s.phase = .pix ∧ ∃ u v, runField .quant s = .next u ∧ runField .record u = .next v ∧
      t = advancePixel v) ∨
    (s.phase = .fin ∧ t = stepFin s) := by
  cases hp : s.phase with
  | idle => rw [engineTurn_idle hp] at h; cases h; exact .inl ⟨rfl, rfl⟩
  | hdr =>
    rw [engineTurn_hdr hp] at h
    obtain ⟨u, hu, h⟩ := andThen_eq_next.mp h
    cases h
    exact .inr (.inl ⟨rfl, u, hu, rfl⟩)
  | pix =>
    rw [engineTurn_pix hp] at h
    obtain ⟨u, hu, h⟩ := andThen_eq_next.mp h
    obtain ⟨v, hv, h⟩ := andThen_eq_next.mp h
    cases h
    exact .inr (.inr (.inl ⟨rfl, u, v, hu, hv, rfl⟩))
  | fin => rw [engineTurn_fin hp] at h; cases h; exact .inr (.inr (.inr ⟨rfl, rfl⟩))

/-- The end of a STEP_PIX: the next column, or the end of the row. -/
theorem advancePixel_of_lt {s : State} (h : s.x.toNat + 1 < s.jobW.toNat) :
    advancePixel s = { s with x := s.x + 1, pixBit := false } := by
  unfold advancePixel; rw [if_pos h]

theorem advancePixel_of_ge {s : State} (h : ¬ s.x.toNat + 1 < s.jobW.toNat) :
    advancePixel s = rowEnd { s with pixBit := false } := by
  unfold advancePixel; rw [if_neg h]

/-! ### Commands -/

/-- A command always completes; what it can leave. -/
theorem command_cases (w : Word) (s : State) :
    ∃ t, command w s = .next t ∧
      (t = s ∨
       (s.phase ≠ .idle ∧ t = ignoreCommand s) ∨
       (s.phase = .idle ∧ t = clearFlags s) ∨
       (s.phase = .idle ∧ t = raiseError .reservedCommand s) ∨
       (s.phase ≠ .idle ∧ t = abortJob s) ∨
       (s.phase = .idle ∧ ∃ e, e ≠ .none ∧ startError s.cfg s.ctrl s.dim = some e ∧
         t = raiseError e (startClear s)) ∨
       (s.phase = .idle ∧ startError s.cfg s.ctrl s.dim = none ∧ t = beginJob (startClear s))) := by
  have hne : ∀ {p c d e}, startError p c d = some e → e ≠ .none := by
    intro p c d e he
    unfold startError at he
    dsimp only at he
    split_ifs at he <;> cases he <;> decide
  have hstart : ∃ t, execStart s = .next t ∧ ((s.phase ≠ .idle ∧ t = ignoreCommand s) ∨
      (s.phase = .idle ∧ ∃ e, e ≠ .none ∧ startError s.cfg s.ctrl s.dim = some e ∧
        t = raiseError e (startClear s)) ∨
      (s.phase = .idle ∧ startError s.cfg s.ctrl s.dim = none ∧ t = beginJob (startClear s))) := by
    unfold execStart
    cases hp : s.phase with
    | idle =>
      unfold startIdle
      cases he : startError s.cfg s.ctrl s.dim with
      | none => exact ⟨_, rfl, .inr (.inr ⟨rfl, rfl, rfl⟩)⟩
      | some e => exact ⟨_, rfl, .inr (.inl ⟨rfl, e, hne he, rfl, rfl⟩)⟩
    | hdr => exact ⟨_, rfl, .inl ⟨by simp, rfl⟩⟩
    | pix => exact ⟨_, rfl, .inl ⟨by simp, rfl⟩⟩
    | fin => exact ⟨_, rfl, .inl ⟨by simp, rfl⟩⟩
  unfold command decodeWord decodeCmd
  dsimp only
  split_ifs
  · exact ⟨s, rfl, .inl rfl⟩
  · obtain ⟨t, ht, h⟩ := hstart
    refine ⟨t, ht, ?_⟩
    rcases h with h | h | h
    · exact .inr (.inl h)
    · exact .inr (.inr (.inr (.inr (.inr (.inl h)))))
    · exact .inr (.inr (.inr (.inr (.inr (.inr h)))))
  · cases hp : s.phase with
    | idle => exact ⟨s, by simp only [exec, execAbort, hp], .inl rfl⟩
    | hdr | pix | fin =>
      exact ⟨abortJob s, by simp only [exec, execAbort, hp], .inr (.inr (.inr (.inr (.inl ⟨by simp, rfl⟩))))⟩
  · cases hp : s.phase with
    | idle => exact ⟨clearFlags s, by simp only [exec, execClear, hp], .inr (.inr (.inl ⟨rfl, rfl⟩))⟩
    | hdr | pix | fin =>
      exact ⟨ignoreCommand s, by simp only [exec, execClear, hp], .inr (.inl ⟨by simp, rfl⟩)⟩
  · cases hp : s.phase with
    | idle =>
      exact ⟨raiseError .reservedCommand s, by simp only [reservedCommand, hp],
        .inr (.inr (.inr (.inl ⟨rfl, rfl⟩)))⟩
    | hdr | pix | fin =>
      exact ⟨ignoreCommand s, by simp only [reservedCommand, hp], .inr (.inl ⟨by simp, rfl⟩)⟩

/-! ### The host's accesses -/

/-- What a host access can do. -/
theorem hostAccess_cases {a : Access} {s t : State} (h : hostAccess a s = .next t) :
    (∃ w, t = logRead w s) ∨
    (s.phase ≠ .idle ∧ ∃ w, t = logRead w { s with draws := s.draws + 1 }) ∨
    (∃ c, t = { s with ctrl := c }) ∨ (∃ d, t = { s with dim := d }) ∨ t = s ∨
    (∃ w, command w s = .next t) ∨
    (∃ k b, k < s.cfg.srcSize ∧ t = srcWrite k b s) ∨
    (∃ k b, k < s.cfg.outSize ∧ t = outWrite k b s) := by
  unfold hostAccess at h
  split at h
  · next hl =>
    have hr : a.inRange s.cfg = true := by
      simp only [Access.legal, Bool.and_eq_true] at hl; exact hl.2
    unfold legalAccess at h
    unfold Access.inRange at hr
    split at h <;> rename_i hsp _ <;> simp only [hsp, decide_eq_true_eq] at hr
    · cases h; exact .inl ⟨_, rfl⟩
    · unfold regWrite at h
      split_ifs at h
      · cases h; exact .inr (.inr (.inl ⟨_, rfl⟩))
      · cases h; exact .inr (.inr (.inr (.inl ⟨_, rfl⟩)))
      · exact .inr (.inr (.inr (.inr (.inr (.inl ⟨_, h⟩)))))
      · cases h; exact .inr (.inr (.inr (.inr (.inl rfl))))
    · cases h; exact .inl ⟨_, rfl⟩
    · cases h; exact .inr (.inr (.inr (.inr (.inr (.inr (.inl ⟨_, _, hr, rfl⟩))))))
    · cases h
      unfold outRead
      split
      · next hrun => exact .inr (.inl ⟨by simpa [State.running] using hrun, _, rfl⟩)
      · exact .inl ⟨_, rfl⟩
    · cases h; exact .inr (.inr (.inr (.inr (.inr (.inr (.inr ⟨_, _, hr, rfl⟩))))))
  · cases h

/-- What the host's turn can do: nothing, or one access on the state without that line of its program, after which
a POLL may put its line back. -/
theorem hostTurn_cases {s t : State} (h : hostTurn s = .next t) :
    t = s ∨ ∃ rest a u, hostAccess a { s with host := rest } = .next u ∧
      (t = u ∨ ∃ l, t = { u with host := l }) := by
  unfold hostTurn at h
  split at h
  · cases h; exact .inl rfl
  · next op rest hh =>
    refine .inr ⟨rest, ?_⟩
    cases op with
    | access a => exact ⟨a, t, h, .inl rfl⟩
    | poll off hi lo value =>
      obtain ⟨u, hu, h⟩ := andThen_eq_next.mp h
      refine ⟨rd32 off, u, hu, ?_⟩
      split at h <;> cases h
      · exact .inl rfl
      · exact .inr ⟨_, rfl⟩

/-- What a step can do: an engine step, a host's turn, or a reset, on the state with its schedule shortened. -/
theorem step_cases {s t : State} (h : step s = .next t) :
    ∃ ts, engineTurn { s with sched := ts } = .next t ∨ hostTurn { s with sched := ts } = .next t ∨
      (s.sched.head? = some .reset ∧ t = resetEvent { s with sched := ts }) := by
  obtain ⟨turn, ts, hs, hr⟩ := step_eq_turn s
  rw [hs] at h
  refine ⟨ts, ?_⟩
  cases turn with
  | host => exact .inr (.inl h)
  | engine => exact .inl h
  | reset => cases h; exact .inr (.inr ⟨hr rfl, rfl⟩)

end Sys2Proof.Machine
end

