-- ==== Sys2Proof/Tests/Slice0.lean ====
section
/-! SUPPORT. Tests of the model, each about one step or one access; the expected values are those of
spec/95_test_vectors.md (named T1 to T9, L1) or of the rule named. Then, for every statement with hypotheses, a
concrete state and operands that meet them together. -/

namespace Sys2Proof.Tests

open Sys2Proof Sys2Proof.Machine

/-! ### Small states -/

/-- A build with three columns, eight samples and sixteen output bytes. -/
def smallParams : Params := { maxWidth := 3, srcSize := 8, outSize := 16 }

def small : State := State.resetWith smallParams

/-- A state of that build with a job of JOB_CTRL = `c` on a `w`-by-`h` image, about to process pixel (x, y). -/
def job (c : BitVec 4) (w h : Half) (ph : Phase) (x y : Half) (wptr : Word) : State :=
  { small with
    jobCtrl := c, jobW := w, jobH := h, phase := ph, x := x, y := y, wptr := wptr
    status := { small.status with busy := true } }

/-- `job` with its first sample. -/
def jobOn (c : BitVec 4) (w h : Half) (g : Byte) : State :=
  { job c w h .pix 0 0 0 with src := [(0, g)] }

/-- The reset state with DIM and CTRL written. -/
def configured (dim : Word) (ctrl : BitVec 4) : State := { State.reset with dim := dim, ctrl := ctrl }

/-- What a field of the next state is, where there is one. -/
def after {α : Type} (o : Result) (f : State → α) : Option α := (nextState? o).map f

/-! ### Decoding: one word of every row, written out from 30_encoding.md R91, R93, R94 -/

theorem test_decode_nop : decode .cmd [0x00, 0x00, 0x00, 0x00] = .ok (.nop, []) := rfl
theorem test_decode_start : decode .cmd [0x01, 0x00, 0x00, 0x00] = .ok (.start, []) := rfl
theorem test_decode_abort : decode .cmd [0x02, 0x00, 0x00, 0x00] = .ok (.abort, []) := rfl
theorem test_decode_clear : decode .cmd [0x03, 0x00, 0x00, 0x00] = .ok (.clear, []) := rfl
theorem test_decode_quant_fs : decodeWord .quant 0b1001#32 = .ok .quantFs := rfl
theorem test_decode_quant_direct : decodeWord .quant 0b1110#32 = .ok .quantDirect := rfl
theorem test_decode_out_raster : decodeWord .record 0b0010#32 = .ok (.outRaster true) := rfl
theorem test_decode_out_column : decodeWord .record 0b0101#32 = .ok (.outColumn false) := rfl
theorem test_decode_out_packed : decodeWord .record 0b1011#32 = .ok (.outPacked true) := rfl

/-- R92: the first and the last reserved word; R93: OUT_FMT = 3. -/
theorem test_decode_reserved :
    decodeWord .cmd 0x00000004#32 = .error (.reservedCommand 0x00000004#32) ∧
    decodeWord .cmd 0xFFFFFFFF#32 = .error (.reservedCommand 0xFFFFFFFF#32) ∧
    decodeWord .record 0b1100#32 = .error .reservedFormat := ⟨rfl, rfl, rfl⟩

/-- The table's rows, at the sizes their fixed bits have. -/
theorem test_table_words :
    decodeTableWord 32 0 = some .nop ∧ decodeTableWord 32 1 = some .start ∧
    decodeTableWord 32 2 = some .abort ∧ decodeTableWord 32 3 = some .clear ∧
    decodeTableWord 8 1 = some .quantFs ∧ decodeTableWord 8 0 = some .quantDirect ∧
    decodeTableWord 8 2 = some (.outRaster true) ∧ decodeTableWord 8 4 = some (.outColumn false) ∧
    decodeTableWord 8 8 = some (.outPacked false) := ⟨rfl, rfl, rfl, rfl, rfl, rfl, rfl, rfl, rfl⟩

/-! ### Well-formedness: the forms that R64 and R65 refuse -/

/-- No instruction is ill formed: the one operand is one bit. -/
theorem test_wf_instructions :
    [Instr.nop, .start, .abort, .clear, .quantFs, .quantDirect, .outRaster true, .outColumn true,
      .outPacked true].all Instr.wellFormed = true := by decide

theorem test_wf_reg_narrow :
    HostOp.wellFormed (.access ⟨.reg, 0x00, 16, .read, 0⟩) = false := by decide
theorem test_wf_reg_misaligned :
    HostOp.wellFormed (.access ⟨.reg, 0x02, 32, .write, 0⟩) = false := by decide
theorem test_wf_reg_offset :
    HostOp.wellFormed (.access ⟨.reg, 0x100, 32, .read, 0⟩) = false := by decide
theorem test_wf_src_wide :
    HostOp.wellFormed (.access ⟨.src, 0x00, 32, .read, 0⟩) = false := by decide
theorem test_wf_out_wide :
    HostOp.wellFormed (.access ⟨.out, 0x00, 16, .write, 0⟩) = false := by decide
theorem test_wf_poll_register : HostOp.wellFormed (.poll 0x0E 0 0 0) = false := by decide
theorem test_wf_poll_field_reversed : HostOp.wellFormed (.poll 0x0C 0 1 0) = false := by decide
theorem test_wf_poll_field_wide : HostOp.wellFormed (.poll 0x0C 32 0 0) = false := by decide
theorem test_wf_legal :
    (waitOp :: cmd 1 :: .access (wr8 .out 7 1) :: loadSrc 0 [1, 2]).all HostOp.wellFormed = true := by
  decide

/-! ### Commands (T9) -/

/-- T9-15. -/
theorem test_nop : exec .nop State.reset = .next State.reset := rfl

/-- T9-8 and T9-3. -/
theorem test_start_accepted :
    after (exec .start (configured 0x00710240 0)) (fun t => (t.status.word, t.phase, t.wptr, t.jobLen)) =
      some (0x00000001, .hdr, 8, 8144) := by decide +kernel
theorem test_start_too_wide :
    after (exec .start (configured 0x00010241 0)) (fun t => (t.status.word, t.phase)) =
      some (0x00000204, .idle) := by decide +kernel

/-- T9-19: CMD_IGN stays. T9-14: idle, no effect. -/
theorem test_abort_running :
    after (exec .abort (ignoreCommand (job 1 3 1 .pix 1 0 8)))
      (fun t => (t.status.word, t.phase, t.outLen, t.x)) = some (0x0000070C, .idle, 0, 1) := by
  decide +kernel
theorem test_abort_idle : exec .abort State.reset = .next State.reset := rfl

/-- T9-13 and T9-17. -/
theorem test_clear_idle :
    after (andThen (hostAccess (wr32 0x08 4) State.reset) (exec .clear)) (fun t => t.status.word) =
      some 0x00000000 := by decide +kernel
theorem test_clear_running :
    after (exec .clear (job 1 3 1 .hdr 0 0 8)) (fun t => t.status.word) = some 0x00000009 := by
  decide +kernel

/-- T9-12. -/
theorem test_reserved_command :
    after (hostAccess (wr32 0x08 4) State.reset) (fun t => t.status.word) = some 0x00000604 := by
  decide +kernel

/-! ### Quantisers (T1 to T4) -/

/-- T2, the row e = -71. -/
theorem test_share : [7, 3, 5, 1].map (share (-71)) = [-32, -14, -23, -5] := by decide

/-- T1, at and above the threshold. -/
theorem test_threshold :
    (isWhite 128, quantError 128, isWhite 129, quantError 129) = (false, 128, true, -126) := by decide

/-- T3-1, pixel (0,0). -/
theorem test_quant_fs_first :
    after (exec .quantFs (jobOn 1 2 2 0x80)) (fun t => (t.pixBit, t.eCarry, t.nxtErr)) =
      some (true, 56, [40, 8, 0]) := by decide +kernel

/-- T3-1, pixel (1,0). -/
theorem test_quant_fs_last_column :
    after (exec .quantFs { job 1 2 2 .pix 1 0 8 with src := [(1, 0x80)], eCarry := 56, nxtErr := [40, 8, 0] })
      (fun t => (t.pixBit, t.eCarry, t.nxtErr)) = some (false, 0, [26, -15, 0]) := by decide +kernel

/-- T4-1: 128 is black, 127 is white. -/
theorem test_quant_direct :
    after (exec .quantDirect (jobOn 0 1 1 0x80)) (fun t => t.pixBit) = some true ∧
    after (exec .quantDirect (jobOn 0 1 1 0x7F)) (fun t => t.pixBit) = some false := by decide +kernel

/-! ### Records (T6 to T8, L1) -/

/-- T7-4. -/
theorem test_raster_header :
    after (exec (.outRaster true) (job 3 1 1 .hdr 0 0 8)) (fun t => t.out.map Prod.snd) =
      some [0x1D, 0x76, 0x30, 0x00, 0x01, 0x00, 0x01, 0x00] := by decide +kernel

/-- T6-5: bits 1,1,0 give C0. -/
theorem test_raster_byte :
    after (exec (.outRaster false) { job 1 3 2 .pix 2 0 8 with packSr := 3 })
      (fun t => (t.out, t.wptr, t.packSr)) = some ([(8, 0xC0)], 9, 0) := by decide +kernel

/-- T7-2. -/
theorem test_column_header :
    after (exec (.outColumn false) { job 5 300 1 .hdr 0 0 5 with jobW := 300 }) (fun t => t.out.map Prod.snd) =
      some [0x1B, 0x2A, 0x21, 0x2C, 0x01] := by decide +kernel

/-- T8-2, pixel (1,2): black, inverted, at address 10. -/
theorem test_column_byte :
    after (exec (.outColumn true) { job 7 2 3 .pix 1 2 5 with pixBit := true }) (fun t => t.out) =
      some [(10, 0x00)] := by decide +kernel

/-- T6-1 and T6-2, byte 1 of row 0: PACK_SR trace at x = 8. -/
theorem test_packed_byte :
    after (exec (.outPacked false) { job 9 9 1 .pix 8 0 1 with pixBit := true }) (fun t => t.out) =
      some [(1, 0x80)] ∧
    after (exec (.outPacked true) { job 9 9 1 .pix 8 0 1 with pixBit := true }) (fun t => t.out) =
      some [(1, 0x7F)] := by decide +kernel

/-- R170. -/
theorem test_packed_header : exec (.outPacked true) (job 9 1 1 .hdr 0 0 0) = .next (job 9 1 1 .hdr 0 0 0) := rfl

/-- T3-1, row end after pixel (1,0). -/
theorem test_row_end :
    (advancePixel { job 1 2 2 .pix 1 0 8 with nxtErr := [26, -15, 0] }).curErr = [26, -15, 0] ∧
    (advancePixel { job 1 2 2 .pix 1 0 8 with nxtErr := [26, -15, 0] }).nxtErr = [0, 0, 0] := by
  decide +kernel

/-- L1-1, as the record of the rules. -/
theorem test_record_of_the_rules :
    (List.range 9).map (recordByte 1 1 1 (refBit 1 1 (fun _ => 0x00))) =
      [0x1D, 0x76, 0x30, 0x00, 0x01, 0x00, 0x01, 0x00, 0x80] := by decide +kernel

/-! ### Witnesses: states and operands that meet the hypotheses of the statements -/

theorem witness_CmdWordsDecode : 4 ≤ (0x00000004#32).toNat ∧ 4 ≤ (0xFFFFFFFF#32).toNat := by decide

theorem witness_CtrlFieldsSelectOperations :
    (0xFFFFFFFF#32).toNat % 2 = 1 ∧ (0xFFFFFFFE#32).toNat % 2 = 0 ∧
    (0xFFFFFFF3#32).toNat / 4 % 4 = 0 ∧ (0x00000005#32).toNat / 4 % 4 = 1 ∧
    (0x00000008#32).toNat / 4 % 4 = 2 ∧ (0x0000000C#32).toNat / 4 % 4 = 3 := by decide

theorem witness_DecodeInvertsEncode : (Instr.outPacked true).wellFormed = true := rfl

/-- The reset state with a command as the host's program. -/
def issuing (w : Word) (sched : List Turn) : State := { State.reset with host := [cmd w], sched := sched }

/-- A legal and an illegal access in a turn that the schedule names, and a command with the empty schedule. -/
theorem witness_StepRunsDecodedCommand :
    (let s := { small with host := [.access (wr8 .src 7 0xFF), .access (rd32 0x100)], sched := [.host, .host] }
     s.sched = .host :: [.host] ∧ s.host = .access (wr8 .src 7 0xFF) :: [.access (rd32 0x100)]) ∧
    (let s := { small with host := [.access (rd32 0x100)], sched := [.host] }
     s.sched = .host :: [] ∧ s.host = .access (rd32 0x100) :: []) ∧
    ((issuing 3 []).host = [cmd 3] ∧ (issuing 3 []).sched = [] ∧ (issuing 3 []).phase = .idle) ∧
    decodeWord .cmd 3 = .ok .clear := ⟨⟨rfl, rfl⟩, ⟨rfl, rfl⟩, ⟨rfl, rfl, rfl⟩, rfl⟩

theorem witness_StepRunsJobOperations_header :
    ∃ r t, (job 1 1 1 .hdr 0 0 8).sched = [] ∧ (job 1 1 1 .hdr 0 0 8).phase = .hdr ∧
      decodeWord .record ((job 1 1 1 .hdr 0 0 8).jobCtrl.setWidth 32) = .ok r ∧
      exec r (job 1 1 1 .hdr 0 0 8) = .next t :=
  ⟨.outRaster false, _, rfl, rfl, rfl, rfl⟩

/-- A pixel inside a row (x = 0 of 2) and the last of a row (x = 1 of 2). -/
theorem witness_StepRunsJobOperations_pixel (x : Half) (h : x = 0 ∨ x = 1) :
    ∃ q t r u, (job 5 2 1 .pix x 0 5).sched = [] ∧ (job 5 2 1 .pix x 0 5).phase = .pix ∧
      decodeWord .quant ((job 5 2 1 .pix x 0 5).jobCtrl.setWidth 32) = .ok q ∧
      exec q (job 5 2 1 .pix x 0 5) = .next t ∧
      decodeWord .record (t.jobCtrl.setWidth 32) = .ok r ∧ exec r t = .next u ∧
      (x = 0 → u.x.toNat + 1 < u.jobW.toNat) ∧ (x = 1 → u.jobW.toNat ≤ u.x.toNat + 1) := by
  rcases h with rfl | rfl <;>
    exact ⟨.quantFs, _, .outColumn false, _, rfl, rfl, rfl, rfl, rfl, rfl, by decide, by decide⟩

theorem witness_RowEndMovesBuffers :
    (job 1 2 2 .pix 1 0 8).x.toNat + 1 = (job 1 2 2 .pix 1 0 8).jobW.toNat ∧
    (job 1 2 2 .pix 1 0 8).jobW.toNat ≤ (job 1 2 2 .pix 1 0 8).curErr.length ∧
    (job 1 2 2 .pix 1 0 8).jobW.toNat ≤ (job 1 2 2 .pix 1 0 8).nxtErr.length := by decide

/-- A turn that the schedule names, and the empty schedule. -/
theorem witness_FinStepCompletesJob :
    (({ job 1 1 1 .fin 0 1 9 with sched := [.engine] }).sched = .engine :: [] ∧
      ({ job 1 1 1 .fin 0 1 9 with sched := [.engine] }).phase = .fin) ∧
    (job 1 1 1 .fin 0 1 9).sched = [] ∧ (job 1 1 1 .fin 0 1 9).phase = .fin := ⟨⟨rfl, rfl⟩, rfl, rfl⟩

theorem witness_IdleEngineHasNoStep :
    (State.reset.phase = .idle ∧ State.reset.sched = [] ∧ State.reset.host = []) ∧
    ({ State.reset with sched := [.engine] }).phase = .idle := ⟨⟨rfl, rfl, rfl⟩, rfl⟩

theorem witness_RecordLengths : (65535 : Nat) ≤ 65535 ∧ recordLen 1#2 65535 65535 = 4294836230 := by decide

theorem witness_PlacedInstructionRunsNext :
    (decodeTableWord 32 2 = some .abort ∧ Instr.abort.port = .cmd) ∧
    (decodeTableWord 8 6 = some (.outColumn true) ∧ (Instr.outColumn true).port = .record) ∧
    (decodeTableWord 8 1 = some .quantFs ∧ Instr.quantFs.port = .quant) :=
  ⟨⟨rfl, rfl⟩, ⟨rfl, rfl⟩, ⟨rfl, rfl⟩⟩

theorem witness_ResetEventRestoresValues :
    ({ job 1 2 2 .pix 1 0 8 with sched := [.reset, .host] }).sched = .reset :: [.host] := rfl

theorem witness_RegisterReadsReturnValues :
    Config.exampleParams.Legal ∧ ({ maxWidth := 65535, srcSize := 4294967295, outSize := 1 } : Params).Legal ∧
    ((0x28#32).toNat % 4 = 0 ∧ 0x28 ≤ (0x28#32).toNat ∧ (0x28#32).toNat ≤ 0xFC) ∧
    ((0xFC#32).toNat % 4 = 0 ∧ 0x28 ≤ (0xFC#32).toNat ∧ (0xFC#32).toNat ≤ 0xFC) := by decide

theorem witness_RegisterWritesStoreOrIgnore :
    decodeWord .cmd 3 = .ok .clear ∧ 4 ≤ (4#32).toNat ∧
    ((0x0C#32).toNat % 4 = 0 ∧ 0x0C ≤ (0x0C#32).toNat ∧ (0x0C#32).toNat ≤ 0xFC) ∧
    ((0xFC#32).toNat % 4 = 0 ∧ 0x0C ≤ (0xFC#32).toNat ∧ (0xFC#32).toNat ≤ 0xFC) :=
  ⟨rfl, by decide, by decide, by decide⟩

theorem witness_IllegalAccessesAreRefused :
    (⟨.reg, 0x00, 8, .read, 0⟩ : Access).width ≠ 32 ∧ (0x01#32).toNat % 4 ≠ 0 ∧ 0x100 ≤ (0x100#32).toNat ∧
    (⟨.src, 0x00, 32, .read, 0⟩ : Access).width ≠ 8 ∧ small.cfg.srcSize ≤ (8#32).toNat ∧
    (⟨.out, 0x00, 16, .write, 0⟩ : Access).width ≠ 8 ∧ small.cfg.outSize ≤ (16#32).toNat := by decide

theorem witness_LegalAccessesComplete :
    ((rd32 0xFC).space = .reg ∧ (rd32 0xFC).width = 32 ∧ (rd32 0xFC).addr.toNat % 4 = 0 ∧
      (rd32 0xFC).addr.toNat < 0x100) ∧
    ((wr8 .src 7 1).space = .src ∧ (wr8 .src 7 1).width = 8 ∧ (wr8 .src 7 1).addr.toNat < small.cfg.srcSize) ∧
    ((rd8 .out 15).space = .out ∧ (rd8 .out 15).width = 8 ∧ (rd8 .out 15).addr.toNat < small.cfg.outSize) := by
  decide

/-- The last address, idle and while a job runs. -/
theorem witness_SrcWritePerformedAndMarked :
    (7#32).toNat < small.cfg.srcSize ∧ small.phase = .idle ∧
    (7#32).toNat < (job 1 1 1 .hdr 0 0 8).cfg.srcSize ∧ (job 1 1 1 .hdr 0 0 8).phase ≠ .idle := by decide

theorem witness_OutWritePerformedAndMarked :
    (15#32).toNat < small.cfg.outSize ∧ small.phase = .idle ∧
    (15#32).toNat < (job 1 1 1 .fin 0 1 9).cfg.outSize ∧ (job 1 1 1 .fin 0 1 9).phase ≠ .idle := by decide

theorem witness_ByteReadsReturnByteOrDraw :
    (7#32).toNat < small.cfg.srcSize ∧ ((15#32).toNat < small.cfg.outSize ∧ small.phase = .idle) ∧
    ((15#32).toNat < (job 1 1 1 .pix 0 0 8).cfg.outSize ∧ (job 1 1 1 .pix 0 0 8).phase ≠ .idle) := by decide

/-- WAIT while no job runs (empty schedule) and while one runs; a POLL of the top field of the last offset, met and
not met. -/
theorem witness_WaitPollsBusy :
    (let s := { small with host := [waitOp] }
     s.sched = [] ∧ s.phase = .idle ∧ s.host = waitOp :: [] ∧ s.status.busy = false) ∧
    (let s := { job 1 1 1 .pix 0 0 8 with host := [waitOp], sched := [.host] }
     s.sched = .host :: [] ∧ s.host = waitOp :: [] ∧ s.status.busy = true) ∧
    ((0xFC#32).toNat % 4 = 0 ∧ (0xFC#32).toNat < 0x100 ∧
      (regRead 0xFC small).toNat / 2 ^ 31 % 2 ^ (31 + 1 - 31) = (0#32).toNat ∧
      (regRead 0xFC small).toNat / 2 ^ 31 % 2 ^ (31 + 1 - 31) ≠ (1#32).toNat) := by decide

/-- Each clause of START, at the edge of its range: T9-1, T9-2, T9-3, T9-4, T9-7, T9-9, T9-8. -/
theorem witness_StartWhenIdle :
    let w := fun d : Word => (d.extractLsb' 0 16).toNat
    let h := fun d : Word => (d.extractLsb' 16 16).toNat
    let p := Config.exampleParams
    (configured 0 0).phase = .idle ∧
    w 0x00010000 = 0 ∧ h 0x00000001 = 0 ∧
    (1 ≤ w 0x00010241 ∧ 1 ≤ h 0x00010241 ∧ p.maxWidth < w 0x00010241) ∧
    (1 ≤ w 0x00010240 ∧ 1 ≤ h 0x00010240 ∧ w 0x00010240 ≤ p.maxWidth ∧ fmtOf 0xC = 3#2) ∧
    (w 0x00720240 ≤ p.maxWidth ∧ fmtOf 0x0 ≠ 3#2 ∧ p.srcSize < w 0x00720240 * h 0x00720240) ∧
    (w 0x01000100 ≤ p.maxWidth ∧ fmtOf 0x4 = 1#2 ∧ w 0x01000100 * h 0x01000100 ≤ p.srcSize ∧
      p.outSize < 5 + w 0x01000100 * h 0x01000100) ∧
    (w 0x00710240 ≤ p.maxWidth ∧ fmtOf 0x0 = 0#2 ∧ w 0x00710240 * h 0x00710240 ≤ p.srcSize ∧
      8 + (w 0x00710240 + 7) / 8 * h 0x00710240 ≤ p.outSize) := by decide +kernel

theorem witness_StartWhileBusyIgnored : (job 1 1 1 .hdr 0 0 8).phase ≠ .idle := by decide

theorem witness_AbortStopsJob :
    small.phase = .idle ∧ (job 1 3 2 .pix 2 1 9).phase ≠ .idle ∧
    recordLen (fmtOf (job 1 3 2 .pix 2 1 9).jobCtrl) (job 1 3 2 .pix 2 1 9).jobW.toNat
      (job 1 3 2 .pix 2 1 9).jobH.toNat ≤ (job 1 3 2 .pix 2 1 9).cfg.outSize := by decide

theorem witness_ClearClearsFlags : small.phase = .idle ∧ (job 1 1 1 .fin 0 1 9).phase ≠ .idle := by decide

theorem witness_ReservedCommandWord :
    4 ≤ (4#32).toNat ∧ 4 ≤ (0xFFFFFFFF#32).toNat ∧ small.phase = .idle ∧ (job 1 1 1 .fin 0 1 9).phase ≠ .idle := by
  decide

theorem witness_ErrorsDoNotStack :
    let s := raiseError .reservedCommand small
    s.status.err = true ∧ s.phase = .idle ∧ 4 ≤ (5#32).toNat ∧
    startError s.cfg s.ctrl s.dim = some .invalidDimensions ∧
    (raiseError .outRange (job 1 1 1 .hdr 0 0 8)).status.err = true ∧
    (raiseError .outRange (job 1 1 1 .hdr 0 0 8)).phase ≠ .idle := by decide

/-- The last column of the last row, and the first column of the first row. -/
theorem witness_QuantFsPixel (p : Half × Half) (hp : p = (2, 1) ∨ p = (0, 0)) :
    let s := job 1 3 2 .pix p.1 p.2 8
    s.phase = .pix ∧ s.x.toNat < s.jobW.toNat ∧ s.jobW.toNat ≤ s.curErr.length ∧
    s.jobW.toNat ≤ s.nxtErr.length ∧ s.y.toNat * s.jobW.toNat + s.x.toNat < s.cfg.srcSize := by
  rcases hp with rfl | rfl <;> decide

theorem witness_QuantDirectPixel :
    let s := job 0 3 2 .pix 2 1 9
    s.phase = .pix ∧ s.y.toNat * s.jobW.toNat + s.x.toNat < s.cfg.srcSize := by decide

theorem witness_JobOperationsActOnlyInTheirPhase :
    (job 1 1 1 .hdr 0 0 8).phase ≠ .pix ∧ small.phase = .idle ∧ (job 1 1 1 .fin 0 1 9).phase = .fin := by decide

/-- The buffers hold what a wider job left at and above JOB_W. -/
theorem witness_BilevelSampleHasNoError (g : Byte) (hg : g = 0 ∨ g = 255) :
    let s := { jobOn 1 2 2 g with curErr := [0, 0, 9], nxtErr := [0, 0, -9] }
    s.phase = .pix ∧ s.x.toNat < s.jobW.toNat ∧ s.jobW.toNat ≤ s.curErr.length ∧
    s.jobW.toNat ≤ s.nxtErr.length ∧ s.y.toNat * s.jobW.toNat + s.x.toNat < s.cfg.srcSize ∧
    s.eCarry = 0 ∧ s.curErr.getD s.x.toNat 0 = 0 ∧ (∀ v ∈ s.nxtErr, -32768 ≤ v ∧ v ≤ 32767) ∧
    ((s.srcByte (s.y.toNat * s.jobW.toNat + s.x.toNat)).toNat = 0 ∨
      (s.srcByte (s.y.toNat * s.jobW.toNat + s.x.toNat)).toNat = 255) := by
  rcases hg with rfl | rfl <;> decide +kernel

/-- A 2-by-2 image of both values; DITHER_EN = 1 and 0. -/
theorem witness_BilevelImageHasNoError :
    (∀ x, x < 2 → ∀ y, y < 2 →
      (if (y * 2 + x) % 3 = 0 then 0#8 else 255#8).toNat = 0 ∨
      (if (y * 2 + x) % 3 = 0 then 0#8 else 255#8).toNat = 255) ∧
    ditherOf 1 = true ∧ ditherOf 0 = false := by decide

/-- The states of a 1-by-1 dithered raster job after START and after its last pixel (program P1). -/
def jobStarted : State := { job 1 1 1 .hdr 0 0 8 with src := [(0, 0x00)] }

def jobAtPixel : State :=
  { job 1 1 1 .pix 0 0 8 with
    src := [(0, 0x00)]
    out := [(0, 0x1D), (1, 0x76), (2, 0x30), (3, 0x00), (4, 0x01), (5, 0x00), (6, 0x01), (7, 0x00)] }

def jobFinished : State :=
  { job 1 1 1 .fin 0 1 9 with
    src := [(0, 0x00)]
    out := [(0, 0x1D), (1, 0x76), (2, 0x30), (3, 0x00), (4, 0x01), (5, 0x00), (6, 0x01), (7, 0x00),
      (8, 0x80)] }

theorem inv_jobStarted : StateInv jobStarted where
  cfg := by decide
  status := by unfold StatusOk; decide
  memory := by unfold MemoryOk; decide
  buffers := by unfold BuffersOk; decide
  job := fun _ => by unfold JobOk; decide
  position := ⟨rfl, rfl, fun _ => by decide⟩
  wire := rfl

theorem inv_jobAtPixel : StateInv jobAtPixel where
  cfg := by decide
  status := by unfold StatusOk; decide
  memory := by unfold MemoryOk; decide
  buffers := by unfold BuffersOk; decide
  job := fun _ => by unfold JobOk; decide
  position := ⟨by decide, by decide, fun _ => by decide⟩
  wire := rfl

theorem inv_jobFinished : StateInv jobFinished where
  cfg := by decide
  status := by unfold StatusOk; decide
  memory := by unfold MemoryOk; decide
  buffers := by unfold BuffersOk; decide
  job := fun _ => by unfold JobOk; decide
  position := ⟨rfl, rfl⟩
  wire := rfl

theorem accOk_jobAtPixel : AccOk jobAtPixel where
  carry := by unfold within; decide
  cur := by unfold within; decide
  nxt := by unfold within; decide
  partials := fun _ => by unfold within; decide

theorem track_jobStarted : Track jobStarted where
  dither := fun _ _ => ⟨rfl, by decide, by decide⟩
  group := fun _ _ => rfl
  header := fun h => by cases h
  packed := fun h => by cases h
  column := fun h => by cases h
  whole := fun h => by cases h

theorem track_jobAtPixel : Track jobAtPixel where
  dither := fun _ _ => ⟨rfl, by decide, by decide⟩
  group := fun _ _ => rfl
  header := fun _ => by decide +kernel
  packed := fun _ _ => by decide +kernel
  column := fun _ h => by cases h
  whole := fun h => by cases h

theorem track_jobFinished : Track jobFinished where
  dither := fun h => by rcases h with h | h <;> cases h
  group := fun h => by rcases h with h | h <;> cases h
  header := fun h => by cases h
  packed := fun h => by cases h
  column := fun h => by cases h
  whole := fun _ => by decide +kernel

theorem witness_AccumulatorBoundsKept :
    StateInv jobAtPixel ∧ AccOk jobAtPixel ∧ ∃ t, step jobAtPixel = .next t :=
  ⟨inv_jobAtPixel, accOk_jobAtPixel, _, rfl⟩

theorem witness_IntensityAndErrorBounds :
    StateInv jobAtPixel ∧ AccOk jobAtPixel ∧ jobAtPixel.phase = .pix :=
  ⟨inv_jobAtPixel, accOk_jobAtPixel, rfl⟩

theorem witness_RowwiseEqualsFullFrame : 2 < 3 ∧ 1 < 2 := by decide

theorem witness_RasterHeaderWritten :
    (job 3 1 1 .hdr 0 0 8).phase = .hdr ∧ 8 ≤ (job 3 1 1 .hdr 0 0 8).cfg.outSize := by decide

theorem witness_ColumnHeaderWritten :
    (job 5 1 1 .hdr 0 0 5).phase = .hdr ∧ 5 ≤ (job 5 1 1 .hdr 0 0 5).cfg.outSize := by decide

theorem witness_PackedHeaderIsEmpty :
    (job 9 1 1 .hdr 0 0 0).phase = .hdr ∧
    (let s := configured 0x00010001 9
     s.phase = .idle ∧ startError s.cfg s.ctrl s.dim = none ∧ fmtOf s.ctrl = 2#2) := by decide

/-- Inside a group, at a full group (x = 7), and at the end of a row. -/
theorem witness_PackBitAndEmitByte :
    (Instr.outRaster true = .outRaster true ∧ Instr.outPacked true = .outPacked true) ∧
    (let s := job 1 3 1 .pix 1 0 8
     s.phase = .pix ∧ s.x.toNat % 8 ≠ 7 ∧ s.x.toNat + 1 ≠ s.jobW.toNat) ∧
    (let s := job 1 9 1 .pix 7 0 8
     s.phase = .pix ∧ s.x.toNat % 8 = 7 ∧ s.wptr.toNat < s.cfg.outSize) ∧
    (let s := job 1 3 1 .pix 2 0 15
     s.phase = .pix ∧ s.x.toNat + 1 = s.jobW.toNat ∧ s.wptr.toNat < s.cfg.outSize) := by decide

theorem witness_ColumnPixelByte :
    let s := job 5 3 3 .pix 2 2 5
    s.phase = .pix ∧ 5 + s.x.toNat * s.jobH.toNat + s.y.toNat < s.cfg.outSize := by decide

theorem witness_GroupByteIsLeftAligned :
    (1 ≤ [true].length ∧ [true].length ≤ 8) ∧
    (1 ≤ (List.replicate 8 true).length ∧ (List.replicate 8 true).length ≤ 8) ∧ 0 < 8 ∧ 7 < 8 := by decide

theorem witness_UnpackInvertsPack : 8 < 9 := by decide

/-- W = 9, byte 1: bit 0 is a pixel, bit 1 is padding. -/
theorem witness_InvertComposesOnPixelBits : (0 < 8 ∧ 8 * 1 + 0 < 9) ∧ (1 < 8 ∧ 9 ≤ 8 * 1 + 1) := by decide

theorem witness_InvariantKept : StateInv jobAtPixel ∧ ∃ t, step jobAtPixel = .next t :=
  ⟨inv_jobAtPixel, _, rfl⟩

theorem witness_InvariantAtReset : Config.exampleParams.Legal ∧ smallParams.Legal := by decide

theorem witness_StatusInvariantsHold : StatusOk jobAtPixel ∧ ∃ t, step jobAtPixel = .next t :=
  ⟨inv_jobAtPixel.status, _, rfl⟩

theorem witness_CanonicalMemoryKept :
    jobAtPixel.src.wf ∧ jobAtPixel.out.wf ∧ ∃ t, step jobAtPixel = .next t :=
  ⟨by decide, by decide, _, rfl⟩

theorem witness_EngineLeavesInputsAlone : ∃ t, engineTurn jobAtPixel = .next t := ⟨_, rfl⟩

theorem witness_EngineWritesOnlyTheRecord :
    StateInv jobAtPixel ∧ (∃ t, engineTurn jobAtPixel = .next t) ∧ jobAtPixel.jobLen ≤ 9 :=
  ⟨inv_jobAtPixel, ⟨_, rfl⟩, by decide⟩

/-- COLUMN, its last pixel; RASTER at the end of a row; PACKED inside a group. -/
theorem witness_StepPixWritesAtMostOneByte :
    (let s := job 5 2 2 .pix 1 1 5
     s.phase = .pix ∧ (∃ t, engineTurn s = .next t) ∧ fmtOf s.jobCtrl = 1#2) ∧
    (jobAtPixel.phase = .pix ∧ (∃ t, engineTurn jobAtPixel = .next t) ∧ fmtOf jobAtPixel.jobCtrl ≠ 1#2 ∧
      groupEnds jobAtPixel.jobW.toNat jobAtPixel.x.toNat = true) ∧
    (let s := job 9 2 1 .pix 0 0 0
     s.phase = .pix ∧ (∃ t, engineTurn s = .next t) ∧ fmtOf s.jobCtrl ≠ 1#2 ∧
      groupEnds s.jobW.toNat s.x.toNat = false) :=
  ⟨⟨rfl, ⟨_, rfl⟩, rfl⟩, ⟨rfl, ⟨_, rfl⟩, by decide, rfl⟩, rfl, ⟨_, rfl⟩, by decide, rfl⟩

theorem witness_LatchesChangeOnlyByStartOrReset : ∃ t, step (issuing 1 [.host]) = .next t := ⟨_, rfl⟩

theorem witness_MarksAreSticky :
    let s := { jobAtPixel with hzSrc := true, hzOut := true, accOvf := true, sched := [.reset] }
    (∃ t, step s = .next t) ∧ s.hzSrc = true ∧ s.hzOut = true ∧ s.accOvf = true := ⟨⟨_, rfl⟩, rfl, rfl, rfl⟩

theorem witness_NoStepFaults : StateInv jobStarted ∧ StateInv jobAtPixel ∧ StateInv jobFinished :=
  ⟨inv_jobStarted, inv_jobAtPixel, inv_jobFinished⟩

/-- The refusals of a step: a REG access and a POLL at offset 0x100, an OUT access at P_OUT_SIZE. -/
theorem test_step_refuses_illegal_access :
    step { small with host := [.access (rd32 0x100)] } = .refused .illegalRegAccess ∧
    step { small with host := [.poll 0x100 0 0 0] } = .refused .illegalRegAccess ∧
    step { small with host := [.access (wr8 .out 16 0)] } = .refused .illegalByteAccess := ⟨rfl, rfl, rfl⟩

theorem witness_JobFollowsTheRules_header :
    StateInv jobStarted ∧ Track jobStarted ∧ ∃ t, step jobStarted = .next t ∧ t.hzSrc = false ∧ t.hzOut = false :=
  ⟨inv_jobStarted, track_jobStarted, _, rfl, rfl, rfl⟩

theorem witness_JobFollowsTheRules_pixel :
    StateInv jobAtPixel ∧ Track jobAtPixel ∧ ∃ t, step jobAtPixel = .next t ∧ t.hzSrc = false ∧ t.hzOut = false :=
  ⟨inv_jobAtPixel, track_jobAtPixel, _, rfl, rfl, rfl⟩

theorem witness_JobFollowsTheRules_end :
    StateInv jobFinished ∧ Track jobFinished ∧ ∃ t, step jobFinished = .next t ∧ t.hzSrc = false ∧ t.hzOut = false :=
  ⟨inv_jobFinished, track_jobFinished, _, rfl, rfl, rfl⟩

/-- Program P1 at its START. -/
def readyToStart : State :=
  { small with ctrl := 1, dim := 0x00010001, src := [(0, 0x00)], host := [cmd 1] }

theorem inv_readyToStart : StateInv readyToStart where
  cfg := by decide
  status := by unfold StatusOk; decide
  memory := by unfold MemoryOk; decide
  buffers := by unfold BuffersOk; decide
  job := fun h => absurd rfl h
  position := trivial
  wire := rfl

theorem witness_JobRunsToItsRecord :
    let s := readyToStart
    StateInv s ∧ s.phase = .idle ∧ s.sched = [] ∧ s.host = cmd 1 :: [] ∧
    1 ≤ (widthOf s.dim).toNat ∧ 1 ≤ (heightOf s.dim).toNat ∧ (widthOf s.dim).toNat ≤ s.cfg.maxWidth ∧
    fmtOf s.ctrl ≠ 3#2 ∧ (widthOf s.dim).toNat * (heightOf s.dim).toNat ≤ s.cfg.srcSize ∧
    recordLen (fmtOf s.ctrl) (widthOf s.dim).toNat (heightOf s.dim).toNat ≤ s.cfg.outSize :=
  ⟨inv_readyToStart, rfl, rfl, rfl, by decide, by decide, by decide, by decide, by decide, by decide⟩

/-- The same job from a state in which an earlier job has left other values. -/
def readyAgain : State :=
  { readyToStart with
    jobW := 3, y := 2, wptr := 77, packSr := 0xAA, eCarry := 5, nxtErr := [1, 2, 3], out := [(8, 0x11)] }

theorem inv_readyAgain : StateInv readyAgain where
  cfg := by decide
  status := by unfold StatusOk; decide
  memory := by unfold MemoryOk; decide
  buffers := by unfold BuffersOk; decide
  job := fun h => absurd rfl h
  position := trivial
  wire := rfl

/-- STATUS of the state a run ends in. -/
def runStatus (n : Nat) (s : State) : Option Status := (nextState? (core.run n s)).map State.status

theorem run_of_runStatus {n : Nat} {s : State} {st : Status} (h : runStatus n s = some st) :
    ∃ t, core.run n s = .next t ∧ t.status = st := by
  unfold runStatus at h
  cases hr : core.run n s with
  | next t => rw [hr] at h; exact ⟨t, rfl, Option.some.inj h⟩
  | fault r => rw [hr] at h; simp [nextState?] at h
  | refused r => rw [hr] at h; simp [nextState?] at h

theorem witness_RestartGivesTheSameRecord :
    let s := readyToStart
    let s' := readyAgain
    (StateInv s ∧ StateInv s' ∧ s.phase = .idle ∧ s'.phase = .idle ∧ s.sched = [] ∧ s'.sched = [] ∧
      s.host = [cmd 1] ∧ s'.host = [cmd 1] ∧ s.cfg = s'.cfg ∧ s.ctrl = s'.ctrl ∧ s.dim = s'.dim ∧
      (∀ a, s.srcByte a = s'.srcByte a)) ∧
    (∃ t t', core.run 4 s = .next t ∧ core.run 4 s' = .next t' ∧ t.status.done = true) := by
  refine ⟨⟨inv_readyToStart, inv_readyAgain, rfl, rfl, rfl, rfl, rfl, rfl, rfl, rfl, rfl, fun _ => rfl⟩, ?_⟩
  obtain ⟨t, ht, hs⟩ := run_of_runStatus
    (show runStatus 4 readyToStart = some ⟨false, true, false, false, .none⟩ by decide +kernel)
  obtain ⟨t', ht', _⟩ := run_of_runStatus
    (show runStatus 4 readyAgain = some ⟨false, true, false, false, .none⟩ by decide +kernel)
  exact ⟨t, t', ht, ht', by rw [hs]⟩

end Sys2Proof.Tests
end

/-! PROOF. The invariants of STATUS (10_state.md R26) hold at reset and are kept by every step: what `StatusOk` says in
each phase, then one lemma for each operation that writes STATUS or PHASE, then the layers of the step. -/

namespace Sys2Proof.Machine

/-! ### STATUS after an ABORT and after a reset -/

@[simp] theorem abortJob_status (s : State) :
    (abortJob s).status = { s.status with busy := false, err := true, errCode := .aborted } := rfl

@[simp] theorem resetEvent_status (s : State) :
    (resetEvent s).status = (State.resetWith s.cfg).status := rfl

/-! ### What `StatusOk` says in each phase -/

/-- While IDLE, only BUSY = 0 and the rule for ERR_CODE are left. -/
theorem statusOk_iff_of_idle {s : State} (hp : s.phase = .idle) :
    StatusOk s ↔ s.status.busy = false ∧ (s.status.err = false → s.status.errCode = .none) := by
  cases hb : s.status.busy <;> simp [StatusOk, hp, hb]

/-- While a job runs, STATUS is fixed but for CMD_IGN. -/
theorem statusOk_iff_of_running {s : State} (hp : s.phase ≠ .idle) :
    StatusOk s ↔ s.status.busy = true ∧ s.status.done = false ∧ s.status.err = false ∧
      s.status.errCode = .none := by
  cases hb : s.status.busy <;> simp +contextual [StatusOk, hp, hb]

/-- `StatusOk` reads STATUS and whether PHASE is IDLE, and nothing else. -/
theorem StatusOk.congr {s t : State} (h : StatusOk s) (hs : t.status = s.status)
    (hp : t.phase = .idle ↔ s.phase = .idle) : StatusOk t := by
  simpa only [StatusOk, hs, ne_eq, hp] using h

/-! ### The operations that write STATUS or PHASE -/

theorem statusOk_resetWith (p : Params) : StatusOk (State.resetWith p) :=
  (statusOk_iff_of_idle rfl).mpr ⟨rfl, fun _ => rfl⟩

theorem statusOk_resetEvent (s : State) : StatusOk (resetEvent s) :=
  (statusOk_resetWith s.cfg).congr rfl Iff.rfl

/-- CMD_IGN is in none of the invariants. -/
theorem statusOk_ignoreCommand {s : State} (h : StatusOk s) : StatusOk (ignoreCommand s) := h

theorem statusOk_clearFlags {s : State} (h : StatusOk s) (hp : s.phase = .idle) :
    StatusOk (clearFlags s) :=
  (statusOk_iff_of_idle (s := clearFlags s) hp).mpr ⟨((statusOk_iff_of_idle hp).mp h).1, fun _ => rfl⟩

theorem statusOk_startClear {s : State} (h : StatusOk s) (hp : s.phase = .idle) :
    StatusOk (startClear s) :=
  statusOk_clearFlags h hp

/-- An error entered while IDLE: ERR is 1, so ERR_CODE is free. -/
theorem statusOk_raiseError {s : State} (h : StatusOk s) (hp : s.phase = .idle) (e : ErrCode) :
    StatusOk (raiseError e s) :=
  (statusOk_iff_of_idle (s := raiseError e s) hp).mpr ⟨((statusOk_iff_of_idle hp).mp h).1, by simp⟩

/-- An accepted START: the flags were cleared before BUSY is set. -/
theorem statusOk_beginJob_startClear (s : State) : StatusOk (beginJob (startClear s)) :=
  (statusOk_iff_of_running (by simp)).mpr ⟨rfl, rfl, rfl, rfl⟩

theorem statusOk_abortJob (s : State) : StatusOk (abortJob s) :=
  (statusOk_iff_of_idle rfl).mpr ⟨rfl, by simp⟩

/-- STEP_FIN sets DONE and ends the job; the running job had no error. -/
theorem statusOk_stepFin {s : State} (h : StatusOk s) (hp : s.phase = .fin) : StatusOk (stepFin s) := by
  obtain ⟨-, -, -, hcode⟩ := (statusOk_iff_of_running (by simp [hp])).mp h
  exact (statusOk_iff_of_idle rfl).mpr ⟨rfl, fun _ => hcode⟩

/-! ### The engine -/

/-- The quantiser of a STEP_PIX writes neither STATUS nor PHASE. -/
theorem runQuant_pix_status_phase {s t : State} (hp : s.phase = .pix) (h : runField .quant s = .next t) :
    t.status = s.status ∧ t.phase = s.phase := by
  obtain ⟨-, ⟨-, -, rfl⟩ | ⟨-, rfl⟩⟩ := runQuant_pix hp h
  · exact ⟨rfl, rfl⟩
  · exact ⟨rfl, rfl⟩

/-- The record row of a STEP_PIX writes neither STATUS nor PHASE. -/
theorem runRecord_pix_status_phase {s t : State} (hp : s.phase = .pix) (h : runField .record s = .next t) :
    t.status = s.status ∧ t.phase = s.phase := by
  obtain ⟨-, -, rfl⟩ | ⟨-, -, h⟩ := runRecord_pix hp h
  · exact ⟨rfl, rfl⟩
  · obtain ⟨-, rfl⟩ | ⟨-, -, rfl⟩ := packPixel_eq_next h
    · exact ⟨rfl, rfl⟩
    · exact ⟨rfl, rfl⟩

@[simp] theorem advancePixel_status (s : State) : (advancePixel s).status = s.status := by
  unfold advancePixel
  split <;> rfl

/-- The end of a STEP_PIX goes on in PIX or to FIN, so the job still runs. -/
theorem advancePixel_phase_ne_idle {s : State} (hp : s.phase = .pix) : (advancePixel s).phase ≠ .idle := by
  unfold advancePixel rowEnd
  split
  · simp [hp]
  · dsimp only
    split <;> simp [hp]

theorem StatusOk.of_engineTurn {s t : State} (hs : StatusOk s) (h : engineTurn s = .next t) : StatusOk t := by
  obtain ⟨-, rfl⟩ | ⟨hp, u, hu, rfl⟩ | ⟨hp, u, v, hu, hv, rfl⟩ | ⟨hp, rfl⟩ := engineTurn_cases h
  · exact hs
  · obtain ⟨-, _, -, -, -, -, rfl⟩ := runRecord_hdr hp hu
    exact hs.congr rfl (by simp [hp])
  · obtain ⟨hus, hup⟩ := runQuant_pix_status_phase hp hu
    obtain ⟨hvs, hvp⟩ := runRecord_pix_status_phase (hup.trans hp) hv
    have hne := advancePixel_phase_ne_idle (hvp.trans (hup.trans hp))
    refine hs.congr ?_ (by simp [hne, hp])
    rw [advancePixel_status, hvs, hus]
  · exact statusOk_stepFin hs hp

/-! ### The host -/

theorem StatusOk.of_command {w : Word} {s t : State} (hs : StatusOk s) (h : command w s = .next t) :
    StatusOk t := by
  obtain ⟨t', ht, hcases⟩ := command_cases w s
  obtain rfl : t' = t := Host.Outcome.next.inj (ht.symm.trans h)
  obtain rfl | ⟨-, rfl⟩ | ⟨hp, rfl⟩ | ⟨hp, rfl⟩ | ⟨-, rfl⟩ | ⟨hp, e, -, -, rfl⟩ | ⟨-, -, rfl⟩ := hcases
  · exact hs
  · exact statusOk_ignoreCommand hs
  · exact statusOk_clearFlags hs hp
  · exact statusOk_raiseError hs hp _
  · exact statusOk_abortJob s
  · exact statusOk_raiseError (statusOk_startClear hs hp) hp e
  · exact statusOk_beginJob_startClear s

/-- Of the host's accesses only a command writes STATUS or PHASE. -/
theorem StatusOk.of_hostAccess {a : Access} {s t : State} (hs : StatusOk s)
    (h : hostAccess a s = .next t) : StatusOk t := by
  obtain ⟨w, rfl⟩ | ⟨-, w, rfl⟩ | ⟨c, rfl⟩ | ⟨d, rfl⟩ | rfl | ⟨w, hw⟩ | ⟨k, b, -, rfl⟩ | ⟨k, b, -, rfl⟩ :=
    hostAccess_cases h
  · exact hs.congr rfl Iff.rfl
  · exact hs.congr rfl Iff.rfl
  · exact hs.congr rfl Iff.rfl
  · exact hs.congr rfl Iff.rfl
  · exact hs
  · exact hs.of_command hw
  · exact hs.congr rfl Iff.rfl
  · exact hs.congr rfl Iff.rfl

theorem StatusOk.of_hostTurn {s t : State} (hs : StatusOk s) (h : hostTurn s = .next t) : StatusOk t := by
  obtain rfl | ⟨rest, a, u, hu, ht⟩ := hostTurn_cases h
  · exact hs
  · have huOk : StatusOk u := StatusOk.of_hostAccess (s := { s with host := rest }) hs hu
    obtain rfl | ⟨l, rfl⟩ := ht
    · exact huOk
    · exact huOk.congr rfl Iff.rfl

/-! ### The step -/

/-- Each step is a turn on the state with its schedule shortened, and the schedule is in none of the invariants. -/
theorem StatusOk.of_step {s t : State} (hs : StatusOk s) (h : step s = .next t) : StatusOk t := by
  obtain ⟨ts, he | hh | ⟨-, rfl⟩⟩ := step_cases h
  · exact StatusOk.of_engineTurn (s := { s with sched := ts }) hs he
  · exact StatusOk.of_hostTurn (s := { s with sched := ts }) hs hh
  · exact statusOk_resetEvent _

/-- Settles O48: R26 holds at every reset state, and every step that answers a next state keeps it. -/
theorem statusInvariantsHold : Obligations.StatusInvariantsHold :=
  ⟨statusOk_resetWith, fun _ _ => StatusOk.of_step⟩

end Sys2Proof.Machine

/-! PROOF. Which accesses exist (20_memory.md R64, R65): what `Access.legal` says in each of the three spaces, and what
`hostAccess` answers to an access that is legal and to one that is not. -/

namespace Sys2Proof.Machine

/-! ### What `Access.legal` says in each space -/

theorem Access.legal_iff_of_reg {a : Access} (p : Params) (h : a.space = .reg) :
    a.legal p = true ↔ a.width = 32 ∧ a.addr.toNat % 4 = 0 ∧ a.addr.toNat < 0x100 := by
  simp [Access.legal, Access.formOk, Access.inRange, h, and_assoc]

theorem Access.legal_iff_of_src {a : Access} (p : Params) (h : a.space = .src) :
    a.legal p = true ↔ a.width = 8 ∧ a.addr.toNat < p.srcSize := by
  simp [Access.legal, Access.formOk, Access.inRange, h]

theorem Access.legal_iff_of_out {a : Access} (p : Params) (h : a.space = .out) :
    a.legal p = true ↔ a.width = 8 ∧ a.addr.toNat < p.outSize := by
  simp [Access.legal, Access.formOk, Access.inRange, h]

/-! ### What `hostAccess` answers -/

theorem hostAccess_of_legal {a : Access} {s : State} (h : a.legal s.cfg = true) :
    hostAccess a s = legalAccess a s :=
  if_pos h

theorem hostAccess_of_not_legal {a : Access} {s : State} (h : ¬ a.legal s.cfg = true) :
    hostAccess a s = .refused (refuseAccess a) :=
  if_neg h

theorem refuseAccess_of_reg {a : Access} (h : a.space = .reg) : refuseAccess a = .illegalRegAccess := by
  simp [refuseAccess, h]

theorem refuseAccess_of_ne_reg {a : Access} (h : a.space ≠ .reg) : refuseAccess a = .illegalByteAccess := by
  cases hs : a.space with
  | reg => exact absurd hs h
  | src | out => simp [refuseAccess, hs]

/-- Settles O16: each listed defect denies one part of what R64 or R65 asks of a legal access in that space, so the
access is refused, with the refusal of its space. -/
theorem illegalAccessesAreRefused : Obligations.IllegalAccessesAreRefused := by
  intro s a
  refine ⟨fun hsp hbad => ?_, fun hsp hbad => ?_, fun hsp hbad => ?_⟩
  · have hill : ¬ a.legal s.cfg = true := by
      rw [Access.legal_iff_of_reg s.cfg hsp]; omega
    rw [hostAccess_of_not_legal hill, refuseAccess_of_reg hsp]
  · have hill : ¬ a.legal s.cfg = true := by
      rw [Access.legal_iff_of_src s.cfg hsp]; omega
    rw [hostAccess_of_not_legal hill, refuseAccess_of_ne_reg (by simp [hsp])]
  · have hill : ¬ a.legal s.cfg = true := by
      rw [Access.legal_iff_of_out s.cfg hsp]; omega
    rw [hostAccess_of_not_legal hill, refuseAccess_of_ne_reg (by simp [hsp])]

end Sys2Proof.Machine

/-! PROOF. The commands of 30_encoding.md R91 and R92: a word at CMD decodes to a command exactly when it is that
command's encoding, and the four encodings are the words below 4. -/

namespace Sys2Proof

@[simp] theorem decodeWord_cmd (w : Word) : decodeWord .cmd w = decodeCmd w := rfl

/-- The whole word is the opcode: no two words decode to one command. -/
theorem decodeCmd_eq_ok_iff {w : Word} {i : Instr} :
    decodeCmd w = .ok i ↔ i.port = .cmd ∧ w = encodeWord i := by
  constructor
  · unfold decodeCmd
    split_ifs with h0 h1 h2 h3 <;> rintro ⟨⟩
    · exact ⟨rfl, h0⟩
    · exact ⟨rfl, h1⟩
    · exact ⟨rfl, h2⟩
    · exact ⟨rfl, h3⟩
  · rintro ⟨hp, rfl⟩
    cases i with
    | nop | start | abort | clear => rfl
    | quantFs | quantDirect | outRaster | outColumn | outPacked => cases hp

/-- R91 in numbers: the word of a command is known by its value. -/
theorem decodeCmd_eq_ok_iff_toNat {w : Word} {i : Instr} (hi : i.port = .cmd) :
    decodeCmd w = .ok i ↔ w.toNat = (encodeWord i).toNat := by
  rw [decodeCmd_eq_ok_iff, BitVec.toNat_inj, and_iff_right hi]

theorem decodeCmd_of_four_le {w : Word} (h : 4 ≤ w.toNat) :
    decodeCmd w = .error (.reservedCommand w) := by
  have hne : ∀ k : Word, k.toNat < 4 → w ≠ k := by
    rintro k hk rfl
    omega
  simp [decodeCmd, hne]

/-- Settles O1: each command is decoded from its encoding alone, and a word from 4 on is no command's encoding. -/
theorem cmdWordsDecode : Obligations.CmdWordsDecode := by
  intro w
  simp only [decodeWord_cmd]
  exact ⟨decodeCmd_eq_ok_iff_toNat rfl, decodeCmd_eq_ok_iff_toNat rfl, decodeCmd_eq_ok_iff_toNat rfl,
    decodeCmd_eq_ok_iff_toNat rfl, decodeCmd_of_four_le⟩

end Sys2Proof

/-! PROOF. The lengths of the records (30_encoding.md R96, R100): HL and L for each format, and the bound on L. -/

namespace Sys2Proof.Machine

@[simp] theorem headerLen_raster : headerLen 0#2 = 8 := rfl

@[simp] theorem headerLen_column : headerLen 1#2 = 5 := rfl

@[simp] theorem headerLen_packed : headerLen 2#2 = 0 := rfl

@[simp] theorem recordLen_raster (w h : Nat) : recordLen 0#2 w h = 8 + bytesPerRow w * h := rfl

@[simp] theorem recordLen_column (w h : Nat) : recordLen 1#2 w h = 5 + w * h := rfl

@[simp] theorem recordLen_packed (w h : Nat) : recordLen 2#2 w h = bytesPerRow w * h := rfl

theorem bytesPerRow_mono {w v : Nat} (h : w ≤ v) : bytesPerRow w ≤ bytesPerRow v :=
  Nat.div_le_div_right (Nat.add_le_add_right h 7)

/-- L grows with both dimensions, whatever the format. -/
theorem recordLen_mono (f : BitVec 2) {w v h k : Nat} (hw : w ≤ v) (hh : h ≤ k) :
    recordLen f w h ≤ recordLen f v k := by
  have hrows := Nat.mul_le_mul (bytesPerRow_mono hw) hh
  unfold recordLen
  split_ifs
  · exact Nat.add_le_add_left hrows 8
  · exact Nat.add_le_add_left (Nat.mul_le_mul hw hh) 5
  · exact hrows

/-- R100's bound: L of the largest image, of which COLUMN is the longest record. -/
theorem recordLen_le_of_le {w h : Nat} (hw : w ≤ 65535) (hh : h ≤ 65535) (f : BitVec 2) :
    recordLen f w h ≤ 4294836230 := by
  have hmax : ∀ g : BitVec 2, recordLen g 65535 65535 ≤ 4294836230 := by decide
  exact (recordLen_mono f hw hh).trans (hmax f)

/-- Settles O10: L and HL are those of each format, and L grows with W and H up to its largest value. -/
theorem recordLengths : Obligations.RecordLengths := fun w h =>
  ⟨recordLen_raster w h, recordLen_column w h, recordLen_packed w h, headerLen_raster, headerLen_column,
    headerLen_packed, recordLen_le_of_le⟩

end Sys2Proof.Machine

/-! PROOF. The header step (41_pack.md R168 to R170): a header that fits is written at OUT[0] upwards and nothing else
changes; then the bytes of the two headers, and the PACKED format, which has none. -/

namespace Sys2Proof.Machine

/-! ### The header bytes -/

@[simp] theorem length_rasterHeader (w h : Nat) : (rasterHeader w h).length = 8 := rfl

@[simp] theorem length_columnHeader (w : Nat) : (columnHeader w).length = 5 := rfl

theorem toNat_le16_low (n : Nat) : ((le16 n).getD 0 0).toNat = n % 256 := by
  simp [le16]

theorem toNat_le16_high {n : Nat} (hn : n < 65536) : ((le16 n).getD 1 0).toNat = n / 256 := by
  have hhigh : n / 256 < 256 := by omega
  simpa [le16] using hhigh

theorem bytesPerRow_lt {w : Nat} (hw : w < 65536) : bytesPerRow w < 65536 := by
  unfold bytesPerRow
  omega

/-! ### The header step -/

/-- A header that fits in OUT: its bytes stand at OUT[0] upwards, every other byte and all else is unchanged. -/
theorem putOuts_header {s : State} {bs : List Byte} (hfit : bs.length ≤ s.cfg.outSize) :
    ∃ t, putOuts s 0 bs = .next t ∧ t = { s with out := t.out } ∧
      (∀ a, a < bs.length → t.outByte a = bs.getD a 0) ∧
      ∀ a, bs.length ≤ a → t.outByte a = s.outByte a := by
  refine ⟨_, putOuts_of_le (by simpa using hfit), rfl, fun a ha => ?_, fun a ha => ?_⟩
  · rw [outByte_puts, if_pos (by omega), Nat.sub_zero]
  · rw [outByte_puts, if_neg (by omega)]

/-- HDR_RASTER: INVERT is not used. -/
theorem exec_outRaster_of_hdr {s : State} (hp : s.phase = .hdr) (invert : Bool) :
    exec (.outRaster invert) s = putOuts s 0 (rasterHeader s.jobW.toNat s.jobH.toNat) := by
  simp only [exec, execOutRaster, hp]

/-- HDR_COLUMN: INVERT is not used. -/
theorem exec_outColumn_of_hdr {s : State} (hp : s.phase = .hdr) (invert : Bool) :
    exec (.outColumn invert) s = putOuts s 0 (columnHeader s.jobW.toNat) := by
  simp only [exec, execOutColumn, hp]

theorem exec_outPacked_of_hdr {s : State} (hp : s.phase = .hdr) (invert : Bool) :
    exec (.outPacked invert) s = .next s := by
  simp only [exec, execOutPacked, hp]

/-- The data starts at HL, right behind the header (R202). -/
@[simp] theorem beginJob_wptr (s : State) :
    (beginJob s).wptr = BitVec.ofNat 32 (headerLen (fmtOf s.ctrl)) := rfl

/-- A START that passes its checks begins the job. -/
theorem exec_start_of_accepted {s : State} (hp : s.phase = .idle)
    (he : startError s.cfg s.ctrl s.dim = none) :
    exec .start s = .next (beginJob (startClear s)) := by
  simp only [exec, execStart, hp, startIdle, he]

/-! ### The obligations -/

/-- Settles O38: the header step writes `rasterHeader` at OUT[0], and BPR and JOB_H have 16 bits each, so their two
bytes hold them whole. -/
theorem rasterHeaderWritten : Obligations.RasterHeaderWritten := by
  intro s invert hp hfit bpr h
  obtain ⟨t, ht, hframe, hbyte, hrest⟩ :=
    putOuts_header (s := s) (bs := rasterHeader s.jobW.toNat s.jobH.toNat) hfit
  have hbpr : bpr < 65536 := bytesPerRow_lt s.jobW.isLt
  refine ⟨t, (exec_outRaster_of_hdr hp invert).trans ht, hframe, hbyte 0 (by simp), hbyte 1 (by simp),
    hbyte 2 (by simp), hbyte 3 (by simp), ?_, ?_, ?_, ?_, hrest⟩
  · rw [hbyte 4 (by simp)]; exact toNat_le16_low bpr
  · rw [hbyte 5 (by simp)]; exact toNat_le16_high hbpr
  · rw [hbyte 6 (by simp)]; exact toNat_le16_low h
  · rw [hbyte 7 (by simp)]; exact toNat_le16_high s.jobH.isLt

/-- Settles O39: the header step writes `columnHeader` at OUT[0], and JOB_W has 16 bits, so its two bytes hold it
whole. -/
theorem columnHeaderWritten : Obligations.ColumnHeaderWritten := by
  intro s invert hp hfit
  obtain ⟨t, ht, hframe, hbyte, hrest⟩ :=
    putOuts_header (s := s) (bs := columnHeader s.jobW.toNat) hfit
  refine ⟨t, (exec_outColumn_of_hdr hp invert).trans ht, hframe, hbyte 0 (by simp), hbyte 1 (by simp),
    hbyte 2 (by simp), ?_, ?_, hrest⟩
  · rw [hbyte 3 (by simp)]; exact toNat_le16_low _
  · rw [hbyte 4 (by simp)]; exact toNat_le16_high s.jobW.isLt

/-- Settles O40: OUT_PACKED has no header, and an accepted START puts WPTR at HL, which is 0 for PACKED. -/
theorem packedHeaderIsEmpty : Obligations.PackedHeaderIsEmpty := by
  intro s invert
  refine ⟨fun hp => exec_outPacked_of_hdr hp invert, fun hp he hfmt => ?_⟩
  have hwptr : (beginJob (startClear s)).wptr = 0 := by simp [hfmt]
  exact ⟨_, exec_start_of_accepted hp he, rfl, rfl, hwptr⟩

end Sys2Proof.Machine

/-! PROOF. A write to REG (42_commands.md R207): which offsets exist, what `regWrite` does at each of them, and which
command a word at CMD issues. -/

namespace Sys2Proof.Machine

/-- R64: an aligned write below 0x100 exists in every phase, and is a register write. -/
theorem hostAccess_wr32 {off : Word} (hal : off.toNat % 4 = 0) (hlt : off.toNat < 0x100) (w : Word) (s : State) :
    hostAccess (wr32 off w) s = regWrite off w s := by
  have hlegal : (wr32 off w).legal s.cfg = true := (Access.legal_iff_of_reg s.cfg rfl).mpr ⟨rfl, hal, hlt⟩
  exact hostAccess_of_legal hlegal

@[simp] theorem regWrite_ctrl (w : Word) (s : State) :
    regWrite 0x00 w s = .next { s with ctrl := w.setWidth 4 } := rfl

@[simp] theorem regWrite_dim (w : Word) (s : State) : regWrite 0x04 w s = .next { s with dim := w } := rfl

@[simp] theorem regWrite_cmd (w : Word) (s : State) : regWrite 0x08 w s = command w s := rfl

/-- R207: a write from STATUS on is ignored, at a read-only register and at a reserved offset alike. -/
theorem regWrite_of_status_le {off : Word} (h : 0x0C ≤ off.toNat) (w : Word) (s : State) :
    regWrite off w s = .next s := by
  have hne : ∀ k : Word, k.toNat < 0x0C → off ≠ k := by
    rintro k hk rfl
    omega
  simp [regWrite, hne]

theorem command_of_decode {w : Word} {i : Instr} (h : decodeWord .cmd w = .ok i) (s : State) :
    command w s = exec i s := by
  simp only [command, h]

/-- R92: a word from 4 on is a reserved command. -/
theorem command_of_four_le {w : Word} (h : 4 ≤ w.toNat) (s : State) : command w s = reservedCommand s := by
  simp only [command, decodeWord_cmd, decodeCmd_of_four_le h]

/-- R200: a write to CMD issues the command that its word encodes. -/
theorem hostAccess_wr32_cmd (w : Word) (s : State) : hostAccess (wr32 0x08 w) s = command w s :=
  hostAccess_wr32 (by decide) (by decide) w s

/-- Settles O15: each write is a legal access, so it is `regWrite` at its offset; CTRL keeps the low four bits of the
word, and no offset from STATUS on is one of the three that `regWrite` stores at. -/
theorem registerWritesStoreOrIgnore : Obligations.RegisterWritesStoreOrIgnore := by
  intro s w
  refine ⟨?_, ?_, fun i hi => ?_, fun hw => ?_, fun off hal hge hle => ?_⟩
  · rw [hostAccess_wr32 (by decide) (by decide), regWrite_ctrl, BitVec.setWidth_eq_extractLsb' (by decide)]
  · rw [hostAccess_wr32 (by decide) (by decide), regWrite_dim]
  · rw [hostAccess_wr32_cmd, command_of_decode hi]
  · rw [hostAccess_wr32_cmd, command_of_four_le hw]
  · rw [hostAccess_wr32 hal (by omega), regWrite_of_status_le hge]

end Sys2Proof.Machine

/-! PROOF. The commands in each phase (42_commands.md R201 to R206): what each does when idle, that START, CLEAR and a
reserved word are ignored while a job runs, and the checks of START in the order of R248. -/

namespace Sys2Proof.Machine

/-! ### Each command when idle -/

theorem exec_start_of_rejected {s : State} (hp : s.phase = .idle) {e : ErrCode}
    (he : startError s.cfg s.ctrl s.dim = some e) :
    exec .start s = .next (raiseError e (startClear s)) := by
  simp only [exec, execStart, hp, startIdle, he]

theorem exec_clear_of_idle {s : State} (hp : s.phase = .idle) : exec .clear s = .next (clearFlags s) := by
  simp only [exec, execClear, hp]

theorem reservedCommand_of_idle {s : State} (hp : s.phase = .idle) :
    reservedCommand s = .next (raiseError .reservedCommand s) := by
  simp only [reservedCommand, hp]

/-! ### The commands while a job runs -/

/-- R203, R205, R206: START, CLEAR and a reserved word are ignored in every phase of a running job. -/
theorem commands_ignored_of_running {s : State} (hp : s.phase ≠ .idle) :
    exec .start s = .next (ignoreCommand s) ∧ exec .clear s = .next (ignoreCommand s) ∧
      reservedCommand s = .next (ignoreCommand s) := by
  cases hph : s.phase with
  | idle => exact absurd hph hp
  | hdr | pix | fin => simp only [exec, execStart, execClear, reservedCommand, hph, and_self]

/-! ### The obligations on one command -/

/-- Settles O22: NOP's meaning is the unchanged state. -/
theorem nopHasNoEffect : Obligations.NopHasNoEffect := fun _ => rfl

/-- Settles O24: `ignoreCommand` sets CMD_IGN and nothing else. -/
theorem startWhileBusyIgnored : Obligations.StartWhileBusyIgnored := by
  intro s hp
  obtain ⟨hstart, -, -⟩ := commands_ignored_of_running hp
  exact hstart

/-- Settles O26: when idle CLEAR is the error exit of R250, and while a job runs it is ignored. -/
theorem clearClearsFlags : Obligations.ClearClearsFlags := by
  refine fun s => ⟨exec_clear_of_idle, fun hp => ?_⟩
  obtain ⟨-, hclear, -⟩ := commands_ignored_of_running hp
  exact hclear

/-- Settles O27: a word from 4 on is no command's encoding, so the write is the reserved command of R206. -/
theorem reservedCommandWord : Obligations.ReservedCommandWord := by
  intro s w hw
  rw [hostAccess_wr32_cmd, command_of_four_le hw]
  refine ⟨reservedCommand_of_idle, fun hp => ?_⟩
  obtain ⟨-, -, hreserved⟩ := commands_ignored_of_running hp
  exact hreserved

/-! ### The checks of START, each behind those before it (R248) -/

section

variable {p : Params} {ctrl : BitVec 4} {dim : Word}

theorem startError_of_empty (h : (widthOf dim).toNat = 0 ∨ (heightOf dim).toNat = 0) :
    startError p ctrl dim = some .invalidDimensions :=
  if_pos h

variable (hw : 1 ≤ (widthOf dim).toNat) (hh : 1 ≤ (heightOf dim).toNat)
include hw hh

theorem not_empty_of_one_le : ¬ ((widthOf dim).toNat = 0 ∨ (heightOf dim).toNat = 0) := by
  omega

theorem startError_of_tooWide (h : p.maxWidth < (widthOf dim).toNat) :
    startError p ctrl dim = some .widthUnsupported :=
  (if_neg (not_empty_of_one_le hw hh)).trans <| if_pos h

variable (hmax : (widthOf dim).toNat ≤ p.maxWidth)
include hmax

theorem startError_of_reservedFormat (h : fmtOf ctrl = 3#2) :
    startError p ctrl dim = some .reservedFormat :=
  (if_neg (not_empty_of_one_le hw hh)).trans <| (if_neg hmax.not_gt).trans <| if_pos h

variable (hfmt : fmtOf ctrl ≠ 3#2)
include hfmt

theorem startError_of_srcTooSmall (h : p.srcSize < (widthOf dim).toNat * (heightOf dim).toNat) :
    startError p ctrl dim = some .srcRange :=
  (if_neg (not_empty_of_one_le hw hh)).trans <| (if_neg hmax.not_gt).trans <| (if_neg hfmt).trans <| if_pos h

variable (hsrc : (widthOf dim).toNat * (heightOf dim).toNat ≤ p.srcSize)
include hsrc

theorem startError_of_outTooSmall
    (h : p.outSize < recordLen (fmtOf ctrl) (widthOf dim).toNat (heightOf dim).toNat) :
    startError p ctrl dim = some .outRange :=
  (if_neg (not_empty_of_one_le hw hh)).trans <| (if_neg hmax.not_gt).trans <| (if_neg hfmt).trans <|
    (if_neg hsrc.not_gt).trans <| if_pos h

theorem startError_of_fits
    (h : recordLen (fmtOf ctrl) (widthOf dim).toNat (heightOf dim).toNat ≤ p.outSize) :
    startError p ctrl dim = none :=
  (if_neg (not_empty_of_one_le hw hh)).trans <| (if_neg hmax.not_gt).trans <| (if_neg hfmt).trans <|
    (if_neg hsrc.not_gt).trans <| if_neg h.not_gt

end

/-! ### START when idle -/

/-- R202: WPTR starts at HL, here for each format as the word it is. -/
theorem ofNat_headerLen (f : BitVec 2) :
    BitVec.ofNat 32 (headerLen f) = if f = 0#2 then 8#32 else if f = 1#2 then 5#32 else 0#32 := by
  unfold headerLen
  split_ifs <;> rfl

/-- Settles O23: the first check that fails decides which error START records; when none fails, START begins the job,
and `zeroFirst` is what it does to the two row buffers. -/
theorem startWhenIdle : Obligations.StartWhenIdle := by
  intro s hp w h f l rejected
  have reject : ∀ {e}, startError s.cfg s.ctrl s.dim = some e → rejected e := exec_start_of_rejected hp
  refine ⟨fun hempty => reject (startError_of_empty hempty),
    fun hw hh hwide => reject (startError_of_tooWide hw hh hwide),
    fun hw hh hmax hf => reject (startError_of_reservedFormat hw hh hmax hf),
    fun hw hh hmax hf hsrc => reject (startError_of_srcTooSmall hw hh hmax hf hsrc),
    fun hw hh hmax hf hsrc hout => reject (startError_of_outTooSmall hw hh hmax hf hsrc hout),
    fun hw hh hmax hf hsrc hout => ?_⟩
  refine ⟨beginJob (startClear s), exec_start_of_accepted hp (startError_of_fits hw hh hmax hf hsrc hout), ?_,
    length_zeroFirst w s.curErr, length_zeroFirst w s.nxtErr,
    fun i => ⟨getD_zeroFirst w s.curErr i, getD_zeroFirst w s.nxtErr i⟩⟩
  rw [← ofNat_headerLen f]
  rfl

end Sys2Proof.Machine

/-! PROOF. Nested errors (60_exceptions.md R251): every command that raises an error does so by `raiseError`, which
records its own code whatever STATUS held before. -/

namespace Sys2Proof.Machine

/-- R204: ABORT stops the job in every phase of a running job. -/
theorem exec_abort_of_running {s : State} (hp : s.phase ≠ .idle) : exec .abort s = .next (abortJob s) := by
  cases hph : s.phase with
  | idle => exact absurd hph hp
  | hdr | pix | fin => simp only [exec, execAbort, hph]

/-- R249: an error entry sets ERR and puts its own code in ERR_CODE, over the code that stood there. -/
theorem raiseError_records (e : ErrCode) (s : State) :
    (raiseError e s).status.err = true ∧ (raiseError e s).status.errCode = e := by
  simp

/-- Settles O28: the reserved word, the rejected START and the ABORT each end in an error entry, which overwrites
ERR_CODE; that ERR was 1 before makes no difference. -/
theorem errorsDoNotStack : Obligations.ErrorsDoNotStack := by
  intro s w _
  refine ⟨fun hp hw => ?_, fun e hp he => ?_, fun hp => ?_⟩
  · obtain ⟨herr, hcode⟩ := raiseError_records .reservedCommand s
    refine ⟨raiseError .reservedCommand s, ?_, herr, congrArg ErrCode.code hcode⟩
    rw [hostAccess_wr32_cmd, command_of_four_le hw, reservedCommand_of_idle hp]
  · exact ⟨raiseError e (startClear s), exec_start_of_rejected hp he, raiseError_records e (startClear s)⟩
  · have ⟨herr, hcode⟩ : (abortJob s).status.err = true ∧ (abortJob s).status.errCode = .aborted :=
      raiseError_records .aborted _
    exact ⟨abortJob s, exec_abort_of_running hp, herr, congrArg ErrCode.code hcode⟩

end Sys2Proof.Machine

/-! PROOF. A host write of one byte to SRC or OUT (70_reset_and_hazards.md R273, R274): it exists for every address in
range, changes that byte alone, and marks the hazard exactly when a job runs. -/

namespace Sys2Proof.Machine

/-! ### The byte write as an access -/

/-- The data of WR8 is the byte zero-extended, so its low eight bits are the byte. -/
theorem setWidth_wr8_data (sp : Space) (a : Word) (b : Byte) : (wr8 sp a b).data.setWidth 8 = b :=
  BitVec.setWidth_setWidth_of_le b (by decide)

theorem hostAccess_wr8_src {a : Word} {s : State} (ha : a.toNat < s.cfg.srcSize) (b : Byte) :
    hostAccess (wr8 .src a b) s = .next (srcWrite a.toNat b s) := by
  have hlegal : (wr8 .src a b).legal s.cfg = true := (Access.legal_iff_of_src s.cfg rfl).mpr ⟨rfl, ha⟩
  calc hostAccess (wr8 .src a b) s
      = .next (srcWrite a.toNat ((wr8 .src a b).data.setWidth 8) s) := hostAccess_of_legal hlegal
    _ = .next (srcWrite a.toNat b s) := by rw [setWidth_wr8_data]

theorem hostAccess_wr8_out {a : Word} {s : State} (ha : a.toNat < s.cfg.outSize) (b : Byte) :
    hostAccess (wr8 .out a b) s = .next (outWrite a.toNat b s) := by
  have hlegal : (wr8 .out a b).legal s.cfg = true := (Access.legal_iff_of_out s.cfg rfl).mpr ⟨rfl, ha⟩
  calc hostAccess (wr8 .out a b) s
      = .next (outWrite a.toNat ((wr8 .out a b).data.setWidth 8) s) := hostAccess_of_legal hlegal
    _ = .next (outWrite a.toNat b s) := by rw [setWidth_wr8_data]

/-! ### The byte and the mark after the write -/

theorem running_of_idle {s : State} (hp : s.phase = .idle) : s.running = false := by
  simp [State.running, hp]

theorem running_of_ne_idle {s : State} (hp : s.phase ≠ .idle) : s.running = true := by
  simp [State.running, hp]

/-- The mark is in no byte of SRC. -/
theorem srcByte_srcWrite (a c : Nat) (b : Byte) (s : State) :
    (srcWrite a b s).srcByte c = if c = a then b else s.srcByte c :=
  srcByte_put s a c b

/-- The mark is in no byte of OUT. -/
theorem outByte_outWrite (a c : Nat) (b : Byte) (s : State) :
    (outWrite a b s).outByte c = if c = a then b else s.outByte c :=
  outByte_put s a c b

@[simp] theorem srcWrite_hzSrc (a : Nat) (b : Byte) (s : State) :
    (srcWrite a b s).hzSrc = (s.hzSrc || s.running) := rfl

@[simp] theorem outWrite_hzOut (a : Nat) (b : Byte) (s : State) :
    (outWrite a b s).hzOut = (s.hzOut || s.running) := rfl

/-! ### The obligations -/

/-- Settles O18: the access is `srcWrite`, which puts the byte and joins HZ_SRC with whether a job runs. -/
theorem srcWritePerformedAndMarked : Obligations.SrcWritePerformedAndMarked := by
  intro s a b ha
  refine ⟨srcWrite a.toNat b s, hostAccess_wr8_src ha b, rfl, fun c => srcByte_srcWrite a.toNat c b s,
    fun hrun => ?_, fun hidle => ?_⟩
  · rw [srcWrite_hzSrc, running_of_ne_idle hrun, Bool.or_true]
  · rw [srcWrite_hzSrc, running_of_idle hidle, Bool.or_false]

/-- Settles O19: the access is `outWrite`, which puts the byte and joins HZ_OUT with whether a job runs. -/
theorem outWritePerformedAndMarked : Obligations.OutWritePerformedAndMarked := by
  intro s a b ha
  refine ⟨outWrite a.toNat b s, hostAccess_wr8_out ha b, rfl, fun c => outByte_outWrite a.toNat c b s,
    fun hrun => ?_, fun hidle => ?_⟩
  · rw [outWrite_hzOut, running_of_ne_idle hrun, Bool.or_true]
  · rw [outWrite_hzOut, running_of_idle hidle, Bool.or_false]

end Sys2Proof.Machine

/-! PROOF. The decoder (30_encoding.md R91 to R94, 20_memory.md R63): a CTRL word decodes by its low four bits, each
operation is decoded from the bits of its mask alone, and the four bytes of a word give the word back. -/

namespace Sys2Proof

open Machine

/-! ### A CTRL word is its low four bits -/

theorem formatField_eq_fmtOf (w : Word) : formatField w = fmtOf (w.setWidth 4) := by
  ext k hk
  have hlow : 2 + k < 4 := by omega
  simp [formatField, fmtOf, hlow]

theorem invertBit_eq_invertOf (w : Word) : invertBit w = invertOf (w.setWidth 4) := by
  simp [invertBit, invertOf]

theorem ditherBit_eq_ditherOf (w : Word) : ditherBit w = ditherOf (w.setWidth 4) := by
  simp [ditherBit, ditherOf]

/-- A mask of four bits sees the low four bits. -/
theorem and_setWidth_eq (w : Word) (m : BitVec 4) :
    w &&& m.setWidth 32 = (w.setWidth 4 &&& m).setWidth 32 := by
  ext k hk
  simp only [BitVec.getElem_and, BitVec.getElem_setWidth, BitVec.getLsbD_and, BitVec.getLsbD_setWidth]
  by_cases h : k < 4
  · simp [h, hk]
  · simp [h, BitVec.getLsbD_of_ge m k (by omega)]

/-! ### Each operation is decoded from the bits of its mask -/

theorem decodeQuant_eq_ok_iff {w : Word} {i : Instr} :
    decodeQuant w = .ok i ↔ i.port = .quant ∧ w &&& i.mask = encodeWord i := by
  have hmask : w &&& 1#32 = (w.setWidth 4 &&& 1#4).setWidth 32 := and_setWidth_eq w 1#4
  rw [decodeQuant, ditherBit_eq_ditherOf]
  cases i with
  | quantFs | quantDirect =>
    simp only [Instr.port, Instr.mask, encodeWord, hmask, true_and]
    generalize w.setWidth 4 = c
    revert c
    decide
  | nop | start | abort | clear | outRaster | outColumn | outPacked =>
    split <;> simp [Instr.port]

theorem decodeRecord_eq_ok_iff {w : Word} {i : Instr} :
    decodeRecord w = .ok i ↔ i.port = .record ∧ w &&& i.mask = encodeWord i := by
  have hmask : w &&& 0x0000000E#32 = (w.setWidth 4 &&& 0xE#4).setWidth 32 := and_setWidth_eq w 0xE#4
  rw [decodeRecord, formatField_eq_fmtOf, invertBit_eq_invertOf]
  cases i with
  | outRaster invert | outColumn invert | outPacked invert =>
    simp only [Instr.port, Instr.mask, encodeWord, hmask, true_and]
    generalize w.setWidth 4 = c
    revert c invert
    decide
  | nop | start | abort | clear | quantFs | quantDirect =>
    split_ifs <;> simp [Instr.port]

/-- At every port: a word decodes to the operations of that port alone, and to each by the bits of its mask. -/
theorem decodeWord_eq_ok_iff {p : Port} {w : Word} {i : Instr} :
    decodeWord p w = .ok i ↔ i.port = p ∧ w &&& i.mask = encodeWord i := by
  cases p with
  | cmd =>
    rw [decodeWord_cmd, decodeCmd_eq_ok_iff]
    refine and_congr_right fun hp => ?_
    have hmask : i.mask = BitVec.allOnes 32 := by
      cases i with
      | nop | start | abort | clear => rfl
      | quantFs | quantDirect | outRaster | outColumn | outPacked => cases hp
    rw [hmask, BitVec.and_allOnes]
  | quant => exact decodeQuant_eq_ok_iff
  | record => exact decodeRecord_eq_ok_iff

/-! ### Bytes -/

/-- R63: the bytes of a word, in the order of the bus, are the word. -/
theorem wordOfBytes_extractLsb' (w : Word) :
    wordOfBytes (w.extractLsb' 0 8) (w.extractLsb' 8 8) (w.extractLsb' 16 8) (w.extractLsb' 24 8) = w := by
  rw [wordOfBytes, BitVec.extractLsb'_append_extractLsb'_eq_extractLsb' (rfl : 24 = 16 + 8),
    BitVec.extractLsb'_append_extractLsb'_eq_extractLsb' (rfl : 16 = 8 + 8),
    BitVec.extractLsb'_append_extractLsb'_eq_extractLsb' (rfl : 8 = 0 + 8)]
  exact BitVec.extractLsb'_eq_self

/-- R102: a word's bytes decode as the word does, and the bytes behind them are left. -/
theorem decode_bytesOfWord_append {p : Port} {w : Word} {i : Instr} {rest rest' : List Byte} :
    decode p (bytesOfWord w ++ rest) = .ok (i, rest') ↔ decodeWord p w = .ok i ∧ rest = rest' := by
  simp only [decode, bytesOfWord, List.cons_append, List.nil_append, wordOfBytes_extractLsb']
  cases decodeWord p w <;> simp

/-- Every instruction's own word decodes to it. -/
theorem decodeWord_encodeWord (i : Instr) : decodeWord i.port (encodeWord i) = .ok i := by
  have h : Laws.RoundTrip.Statement i := by
    cases i with
    | nop => exact Laws.RoundTrip.nop
    | start => exact Laws.RoundTrip.start
    | abort => exact Laws.RoundTrip.abort
    | clear => exact Laws.RoundTrip.clear
    | quantFs => exact Laws.RoundTrip.quantFs
    | quantDirect => exact Laws.RoundTrip.quantDirect
    | outRaster invert => exact Laws.RoundTrip.outRaster invert
    | outColumn invert => exact Laws.RoundTrip.outColumn invert
    | outPacked invert => exact Laws.RoundTrip.outPacked invert
  obtain ⟨-, -, hdec⟩ := h
  exact hdec

/-- Settles O4: at its own port an instruction is decoded from the bits of its mask, and its four bytes are those of
such a word. -/
theorem decodeInvertsEncode : Obligations.DecodeInvertsEncode := by
  intro i _
  refine ⟨fun w => decodeWord_eq_ok_iff.trans (and_iff_right rfl), fun rest => ?_⟩
  exact decode_bytesOfWord_append.mpr ⟨decodeWord_encodeWord i, rfl⟩

/-! ### CTRL words in numbers -/

theorem toNat_formatField (w : Word) : (formatField w).toNat = w.toNat / 4 % 4 := by
  simp [formatField, Nat.shiftRight_eq_div_pow]

theorem formatField_eq_iff {w : Word} {f : BitVec 2} : formatField w = f ↔ w.toNat / 4 % 4 = f.toNat := by
  rw [← BitVec.toNat_inj, toNat_formatField]

theorem ditherBit_eq (w : Word) : ditherBit w = decide (w.toNat % 2 = 1) := by
  simp [ditherBit, BitVec.getLsbD, Nat.testBit_zero]

/-- Settles O2: DITHER_EN is the word modulo 2 and OUT_FMT the word over 4 modulo 4; each record keeps bit 1 as its
operand. -/
theorem ctrlFieldsSelectOperations : Obligations.CtrlFieldsSelectOperations := by
  intro w
  refine ⟨fun h => ?_, fun h => ?_, fun h => ?_, fun h => ?_, fun h => ?_, fun h => ?_⟩
  · simp [decodeWord, decodeQuant, ditherBit_eq, h]
  · simp [decodeWord, decodeQuant, ditherBit_eq, h]
  · simp [decodeWord, decodeRecord, formatField_eq_iff, h, invertBit]
  · simp [decodeWord, decodeRecord, formatField_eq_iff, h, invertBit]
  · simp [decodeWord, decodeRecord, formatField_eq_iff, h, invertBit]
  · simp [decodeWord, decodeRecord, formatField_eq_iff, h]

/-- Settles O3: each sequence is evaluated by the decoder. -/
theorem writtenOutWordsDecode : Obligations.WrittenOutWordsDecode :=
  ⟨rfl, rfl, rfl, rfl, rfl, rfl, rfl, rfl, rfl, rfl, rfl, rfl⟩

end Sys2Proof

/-! PROOF. What one step can do, said once for all invariants: the engine's step in closed form, the host's turn as one
of a dozen effects on the DPE, and the step as one of the two or a reset. -/

namespace Sys2Proof.Machine

/-- The format that is none of the other three is PACKED. -/
theorem eq_packed_of_ne : ∀ {f : BitVec 2}, f ≠ 3#2 → f ≠ 0#2 → f ≠ 1#2 → f = 2#2 := by
  decide

/-! ### The engine's header step -/

/-- The header bytes of the job's record (R97 to R99). -/
def State.header (s : State) : List Byte :=
  if fmtOf s.jobCtrl = 0#2 then rasterHeader s.jobW.toNat s.jobH.toNat
  else if fmtOf s.jobCtrl = 1#2 then columnHeader s.jobW.toNat
  else []

/-- The state after STEP_HDR. -/
def headerDone (s : State) : State := { s with out := s.out.puts 0 s.header, phase := .pix }

theorem length_header (s : State) : s.header.length = headerLen (fmtOf s.jobCtrl) := by
  unfold State.header headerLen
  split_ifs <;> rfl

/-- STEP_HDR in closed form. -/
theorem engineTurn_hdr_eq_next {s t : State} (hp : s.phase = .hdr) (h : engineTurn s = .next t) :
    (s.header = [] ∨ s.header.length ≤ s.cfg.outSize) ∧ t = headerDone s := by
  rw [engineTurn_hdr hp] at h
  obtain ⟨u, hu, h⟩ := andThen_eq_next.mp h
  cases h
  obtain ⟨h3, bs, hlen, hfit, h0, h1, rfl⟩ := runRecord_hdr hp hu
  have hbs : bs = s.header := by
    unfold State.header
    split_ifs with e0 e1
    · exact h0 e0
    · exact h1 e1
    · simpa [headerLen, e0, e1] using hlen
  rw [← hbs]
  exact ⟨hfit, by rw [headerDone, ← hbs]⟩

theorem engineTurn_of_hdr {s : State} (hp : s.phase = .hdr) (hfmt : fmtOf s.jobCtrl ≠ 3#2)
    (hfit : s.header.length ≤ s.cfg.outSize) : engineTurn s = .next (headerDone s) := by
  have hrun : runField .record s = putOuts s 0 s.header := by
    rw [runField_record, State.header]
    split_ifs with h0 h1 h2
    · simp only [execOutRaster, hp]
    · simp only [execOutColumn, hp]
    · simp only [execOutPacked, hp, putOuts]
    · exact absurd (eq_packed_of_ne hfmt h0 h1) h2
  rw [engineTurn_hdr hp, stepHdr, hrun, putOuts_of_le (by simpa using hfit)]
  rfl

/-! ### The engine's pixel step -/

/-- The state after the quantiser of a STEP_PIX. -/
def quantPixel (s : State) : State :=
  if ditherOf s.jobCtrl then quantFsState s
  else { s with pixBit := directBlack (s.srcByte s.pixelAddr) }

/-- The state after the record row of a STEP_PIX. -/
def recordPixel (s : State) : State :=
  if fmtOf s.jobCtrl = 1#2 then
    { s with
      out := s.out.put (columnAddr s.jobH.toNat s.x.toNat s.y.toNat)
        (invertByte (invertOf s.jobCtrl) (pixelByte s.pixBit)) }
  else if groupEnds s.jobW.toNat s.x.toNat then
    { s with
      out := s.out.put s.wptr.toNat (emittedByte (invertOf s.jobCtrl) (packBit s))
      wptr := s.wptr + 1, packSr := 0 }
  else packBit s

/-- The state after STEP_PIX. -/
def pixelDone (s : State) : State := advancePixel (recordPixel (quantPixel s))

/-- The sample and the buffer entries that the quantiser uses exist. -/
def State.QuantFits (s : State) : Prop :=
  s.pixelAddr < s.cfg.srcSize ∧ (ditherOf s.jobCtrl = true → s.rowsFit = true)

/-- The OUT byte that the record row writes exists. -/
def State.RecordFits (s : State) : Prop :=
  fmtOf s.jobCtrl ≠ 3#2 ∧
  (fmtOf s.jobCtrl = 1#2 → columnAddr s.jobH.toNat s.x.toNat s.y.toNat < s.cfg.outSize) ∧
  (fmtOf s.jobCtrl ≠ 1#2 → groupEnds s.jobW.toNat s.x.toNat = true → s.wptr.toNat < s.cfg.outSize)

theorem runField_quant_of_fits {s : State} (hp : s.phase = .pix) (h : s.QuantFits) :
    runField .quant s = .next (quantPixel s) := by
  obtain ⟨hsrc, hrows⟩ := h
  rw [runField_quant, quantPixel]
  split_ifs with hd
  · simp only [execQuantFs, hp, quantFsPixel, hsrc, hrows hd, if_true]
  · simp only [execQuantDirect, hp, quantDirectPixel, hsrc, if_true]

theorem runField_quant_eq_next {s t : State} (hp : s.phase = .pix) (h : runField .quant s = .next t) :
    s.QuantFits ∧ t = quantPixel s := by
  obtain ⟨hsrc, ⟨hd, hrows, rfl⟩ | ⟨hd, rfl⟩⟩ := runQuant_pix hp h
  · exact ⟨⟨hsrc, fun _ => hrows⟩, by simp [quantPixel, hd]⟩
  · exact ⟨⟨hsrc, by simp [hd]⟩, by simp [quantPixel, hd]⟩

theorem packPixel_of_fits {s : State} (invert : Bool)
    (h : groupEnds s.jobW.toNat s.x.toNat = true → s.wptr.toNat < s.cfg.outSize) :
    packPixel invert s = .next (if groupEnds s.jobW.toNat s.x.toNat then
      { s with
        out := s.out.put s.wptr.toNat (emittedByte invert (packBit s))
        wptr := s.wptr + 1, packSr := 0 } else packBit s) := by
  unfold packPixel
  split_ifs with hg
  · rw [emitByte, putOut_of_lt _ (by simpa using h hg)]
    rfl
  · rfl

theorem runField_record_of_fits {s : State} (hp : s.phase = .pix) (h : s.RecordFits) :
    runField .record s = .next (recordPixel s) := by
  obtain ⟨hfmt, hcol, hpack⟩ := h
  rw [runField_record, recordPixel]
  by_cases h1 : fmtOf s.jobCtrl = 1#2
  · simp only [h1, execOutColumn, hp, columnPixel, putOut_of_lt _ (hcol h1)]
    rfl
  · by_cases h0 : fmtOf s.jobCtrl = 0#2
    · rw [if_pos h0, if_neg h1]
      simp only [execOutRaster, hp, packPixel_of_fits _ (hpack h1)]
    · rw [if_neg h0, if_neg h1, if_pos (eq_packed_of_ne hfmt h0 h1), if_neg h1]
      simp only [execOutPacked, hp, packPixel_of_fits _ (hpack h1)]

theorem runField_record_eq_next {s t : State} (hp : s.phase = .pix) (h : runField .record s = .next t) :
    s.RecordFits ∧ t = recordPixel s := by
  obtain ⟨h1, hcol, rfl⟩ | ⟨h1, h3, h⟩ := runRecord_pix hp h
  · exact ⟨⟨by rw [h1]; decide, fun _ => hcol, fun e => absurd h1 e⟩, by simp [recordPixel, h1]⟩
  · obtain ⟨hg, rfl⟩ | ⟨hg, hlt, rfl⟩ := packPixel_eq_next h
    · exact ⟨⟨h3, fun e => absurd e h1, fun _ e => by simp [hg] at e⟩, by simp [recordPixel, h1, hg]⟩
    · exact ⟨⟨h3, fun e => absurd e h1, fun _ _ => hlt⟩, by simp [recordPixel, h1, hg]⟩

/-! What each part of a STEP_PIX leaves unchanged. -/

theorem quantPixel_frame (s : State) :
    ∃ c n o b, quantPixel s = { s with eCarry := c, nxtErr := n, accOvf := o, pixBit := b } := by
  unfold quantPixel
  split <;> exact ⟨_, _, _, _, rfl⟩

theorem recordPixel_frame (s : State) :
    ∃ o p r, recordPixel s = { s with out := o, wptr := p, packSr := r } := by
  unfold recordPixel
  split_ifs <;> exact ⟨_, _, _, rfl⟩

theorem advancePixel_frame (s : State) :
    ∃ c n e x y p, advancePixel s = { s with
      curErr := c, nxtErr := n, eCarry := e, x := x, y := y, phase := p, pixBit := false } := by
  unfold advancePixel
  split <;> exact ⟨_, _, _, _, _, _, rfl⟩

/-- The record row of the quantised pixel needs what it needs of the pixel. -/
theorem recordFits_quantPixel (s : State) : (quantPixel s).RecordFits ↔ s.RecordFits := by
  obtain ⟨_, _, _, _, hq⟩ := quantPixel_frame s
  rw [hq]
  rfl

theorem quantPixel_phase (s : State) : (quantPixel s).phase = s.phase := by
  obtain ⟨_, _, _, _, hq⟩ := quantPixel_frame s
  rw [hq]

/-- STEP_PIX in closed form. -/
theorem engineTurn_pix_eq_next_iff {s t : State} (hp : s.phase = .pix) :
    engineTurn s = .next t ↔ (s.QuantFits ∧ s.RecordFits) ∧ t = pixelDone s := by
  have hq : (quantPixel s).phase = .pix := (quantPixel_phase s).trans hp
  rw [engineTurn_pix hp]
  constructor
  · intro h
    obtain ⟨u, hu, h⟩ := andThen_eq_next.mp h
    obtain ⟨v, hv, h⟩ := andThen_eq_next.mp h
    obtain ⟨hqf, rfl⟩ := runField_quant_eq_next hp hu
    obtain ⟨hrf, rfl⟩ := runField_record_eq_next hq hv
    cases h
    exact ⟨⟨hqf, (recordFits_quantPixel s).mp hrf⟩, rfl⟩
  · rintro ⟨⟨hqf, hrf⟩, rfl⟩
    rw [stepPix, runField_quant_of_fits hp hqf, andThen_next,
      runField_record_of_fits hq ((recordFits_quantPixel s).mpr hrf), andThen_next, pixelDone]

/-! ### The engine's turn -/

/-- The engine's turn, phase by phase, in closed form. -/
theorem engineTurn_effect {s t : State} (h : engineTurn s = .next t) :
    (s.phase = .idle ∧ t = s) ∨
    (s.phase = .hdr ∧ (s.header = [] ∨ s.header.length ≤ s.cfg.outSize) ∧ t = headerDone s) ∨
    (s.phase = .pix ∧ s.QuantFits ∧ s.RecordFits ∧ t = pixelDone s) ∨
    (s.phase = .fin ∧ t = stepFin s) := by
  cases hp : s.phase with
  | idle => rw [engineTurn_idle hp] at h; cases h; exact .inl ⟨rfl, rfl⟩
  | hdr => exact .inr (.inl ⟨rfl, engineTurn_hdr_eq_next hp h⟩)
  | pix =>
    obtain ⟨⟨hq, hr⟩, ht⟩ := (engineTurn_pix_eq_next_iff hp).mp h
    exact .inr (.inr (.inl ⟨rfl, hq, hr, ht⟩))
  | fin => rw [engineTurn_fin hp] at h; cases h; exact .inr (.inr (.inr ⟨rfl, rfl⟩))

theorem pixelDone_frame (s : State) :
    pixelDone s = { s with
      phase := (pixelDone s).phase, x := (pixelDone s).x, y := (pixelDone s).y, wptr := (pixelDone s).wptr
      eCarry := (pixelDone s).eCarry, curErr := (pixelDone s).curErr, nxtErr := (pixelDone s).nxtErr
      packSr := (pixelDone s).packSr, out := (pixelDone s).out, accOvf := (pixelDone s).accOvf
      pixBit := false } := by
  unfold pixelDone
  obtain ⟨_, _, _, _, hq⟩ := quantPixel_frame s
  rw [hq]
  obtain ⟨_, _, _, hr⟩ := recordPixel_frame { s with eCarry := _, nxtErr := _, accOvf := _, pixBit := _ }
  rw [hr]
  obtain ⟨_, _, _, _, _, _, ha⟩ := advancePixel_frame
    { s with eCarry := _, nxtErr := _, accOvf := _, pixBit := _, out := _, wptr := _, packSr := _ }
  rw [ha]

/-- What an engine's turn leaves unchanged: the host's registers, the latches, SRC, the hazard marks, and all of STATUS
but BUSY and DONE. -/
theorem engineTurn_frame {s t : State} (h : engineTurn s = .next t) :
    t = { s with
      status := { s.status with busy := t.status.busy, done := t.status.done }
      outLen := t.outLen, phase := t.phase, x := t.x, y := t.y, wptr := t.wptr, eCarry := t.eCarry
      curErr := t.curErr, nxtErr := t.nxtErr, packSr := t.packSr, out := t.out, accOvf := t.accOvf
      pixBit := t.pixBit } := by
  obtain ⟨-, rfl⟩ | ⟨-, -, rfl⟩ | ⟨-, -, -, rfl⟩ | ⟨-, rfl⟩ := engineTurn_effect h
  · rfl
  · rfl
  · rw [pixelDone_frame s]
  · rfl

/-- Settles O50: each field is one that `engineTurn_frame` lists as unchanged. -/
theorem engineLeavesInputsAlone : Obligations.EngineLeavesInputsAlone := by
  intro s t h
  have hf := engineTurn_frame h
  exact ⟨(congrArg State.cfg hf :), (congrArg State.ctrl hf :), (congrArg State.dim hf :),
    (congrArg State.jobCtrl hf :), (congrArg State.jobW hf :), (congrArg State.jobH hf :), (congrArg State.src hf :), (congrArg State.hzSrc hf :),
    (congrArg State.hzOut hf :), (congrArg (·.status.err) hf :), (congrArg (·.status.errCode) hf :),
    (congrArg (·.status.cmdIgn) hf :), (congrArg State.memEpoch hf :), (congrArg State.draws hf :),
    (congrArg State.host hf :), (congrArg State.sched hf :), (congrArg State.hostReads hf :)⟩

/-! ### The host's turn -/

/-- What one line of the host's program can do to the DPE. The host's own data (its program, the schedule, the reads it
made) is not in it. -/
inductive HostEffect (s : State) : State → Prop
  /-- A read, or a write that is ignored, or a command without effect. -/
  | nothing : HostEffect s s
  /-- A read of OUT while a job runs. -/
  | draw : s.phase ≠ .idle → HostEffect s { s with draws := s.draws + 1 }
  | writeCtrl (c : BitVec 4) : HostEffect s { s with ctrl := c }
  | writeDim (d : Word) : HostEffect s { s with dim := d }
  | writeSrc (k : Nat) (b : Byte) : k < s.cfg.srcSize → HostEffect s (srcWrite k b s)
  | writeOut (k : Nat) (b : Byte) : k < s.cfg.outSize → HostEffect s (outWrite k b s)
  | ignored : s.phase ≠ .idle → HostEffect s (ignoreCommand s)
  | cleared : s.phase = .idle → HostEffect s (clearFlags s)
  | reserved : s.phase = .idle → HostEffect s (raiseError .reservedCommand s)
  | rejected (e : ErrCode) : s.phase = .idle → HostEffect s (raiseError e (startClear s))
  | accepted : s.phase = .idle → startError s.cfg s.ctrl s.dim = none → HostEffect s (beginJob (startClear s))
  | aborted : s.phase ≠ .idle → HostEffect s (abortJob s)

theorem hostEffect_of_command {w : Word} {s t : State} (h : command w s = .next t) : HostEffect s t := by
  obtain ⟨t', ht, hcases⟩ := command_cases w s
  obtain rfl : t' = t := Host.Outcome.next.inj (ht.symm.trans h)
  obtain rfl | ⟨hp, rfl⟩ | ⟨hp, rfl⟩ | ⟨hp, rfl⟩ | ⟨hp, rfl⟩ | ⟨hp, e, -, -, rfl⟩ | ⟨hp, he, rfl⟩ := hcases
  · exact .nothing
  · exact .ignored hp
  · exact .cleared hp
  · exact .reserved hp
  · exact .aborted hp
  · exact .rejected e hp
  · exact .accepted hp he

theorem hostEffect_of_hostAccess {a : Access} {s t : State} (h : hostAccess a s = .next t) :
    ∃ u, HostEffect s u ∧ t = { u with hostReads := t.hostReads } := by
  obtain ⟨w, rfl⟩ | ⟨hp, w, rfl⟩ | ⟨c, rfl⟩ | ⟨d, rfl⟩ | rfl | ⟨w, hw⟩ | ⟨k, b, hk, rfl⟩ | ⟨k, b, hk, rfl⟩ :=
    hostAccess_cases h
  · exact ⟨s, .nothing, rfl⟩
  · exact ⟨_, .draw hp, rfl⟩
  · exact ⟨_, .writeCtrl c, rfl⟩
  · exact ⟨_, .writeDim d, rfl⟩
  · exact ⟨_, .nothing, rfl⟩
  · exact ⟨_, hostEffect_of_command hw, rfl⟩
  · exact ⟨_, .writeSrc k b hk, rfl⟩
  · exact ⟨_, .writeOut k b hk, rfl⟩

/-- The effect does not depend on the host's own data. -/
theorem HostEffect.of_world {s u : State} {l : List HostOp} {ts : List Turn}
    (h : HostEffect { s with host := l, sched := ts } u) :
    ∃ v, HostEffect s v ∧ u = { v with host := l, sched := ts } := by
  cases h with
  | nothing => exact ⟨_, .nothing, rfl⟩
  | draw hp => exact ⟨_, .draw hp, rfl⟩
  | writeCtrl c => exact ⟨_, .writeCtrl c, rfl⟩
  | writeDim d => exact ⟨_, .writeDim d, rfl⟩
  | writeSrc k b hk => exact ⟨_, .writeSrc k b hk, rfl⟩
  | writeOut k b hk => exact ⟨_, .writeOut k b hk, rfl⟩
  | ignored hp => exact ⟨_, .ignored hp, rfl⟩
  | cleared hp => exact ⟨_, .cleared hp, rfl⟩
  | reserved hp => exact ⟨_, .reserved hp, rfl⟩
  | rejected e hp => exact ⟨_, .rejected e hp, rfl⟩
  | accepted hp he => exact ⟨_, .accepted hp he, rfl⟩
  | aborted hp => exact ⟨_, .aborted hp, rfl⟩

theorem hostEffect_of_hostTurn {s t : State} {ts : List Turn} (h : hostTurn { s with sched := ts } = .next t) :
    ∃ u, HostEffect s u ∧ t = { u with host := t.host, sched := ts, hostReads := t.hostReads } := by
  obtain rfl | ⟨rest, a, u, hu, ht⟩ := hostTurn_cases h
  · exact ⟨s, .nothing, rfl⟩
  · obtain ⟨v, hv, hvu⟩ := hostEffect_of_hostAccess hu
    obtain ⟨v', hv', rfl⟩ := HostEffect.of_world (s := s) (l := rest) (ts := ts) hv
    refine ⟨v', hv', ?_⟩
    obtain rfl | ⟨l, rfl⟩ := ht <;> rw [hvu]

/-! ### The step -/

/-- What a step can do: an engine's turn, an effect of the host, or a reset. -/
theorem step_effect {s t : State} (h : step s = .next t) :
    (∃ ts, engineTurn { s with sched := ts } = .next t) ∨
    (∃ u, HostEffect s u ∧ t = { u with host := t.host, sched := t.sched, hostReads := t.hostReads }) ∨
    (s.sched.head? = some .reset ∧ ∃ ts, t = resetEvent { s with sched := ts }) := by
  obtain ⟨ts, he | hh | ⟨hr, ht⟩⟩ := step_cases h
  · exact .inl ⟨ts, he⟩
  · obtain ⟨u, hu, ht⟩ := hostEffect_of_hostTurn hh
    refine .inr (.inl ⟨u, hu, ?_⟩)
    have hts : t.sched = ts := congrArg State.sched ht
    rw [hts]
    exact ht
  · exact .inr (.inr ⟨hr, ts, ht⟩)

/-- A property of the DPE that the engine's turn, every effect of the host and reset keep is kept by every step. -/
theorem step_keeps {P : State → Prop}
    (world : ∀ s l ts r, P s → P { s with host := l, sched := ts, hostReads := r })
    (engine : ∀ s t, P s → engineTurn s = .next t → P t)
    (host : ∀ s t, P s → HostEffect s t → P t)
    (reset : ∀ s, P s → P (resetEvent s)) {s t : State} (hs : P s) (h : step s = .next t) : P t := by
  obtain ⟨ts, he⟩ | ⟨u, hu, ht⟩ | ⟨-, ts, rfl⟩ := step_effect h
  · exact engine _ t (world s s.host ts s.hostReads hs) he
  · rw [ht]
    exact world u _ _ _ (host s u hs hu)
  · exact reset _ (world s s.host ts s.hostReads hs)

end Sys2Proof.Machine

/-! PROOF. The fields of the state after a STEP_PIX, and what follows of every step without the invariant: the canonical
form of the memories, the marks, the latches, and the one OUT byte of a STEP_PIX. -/

namespace Sys2Proof.Machine

/-! ### The state after a STEP_PIX, field by field -/

/-- b of pixel (X, Y), as the quantiser of the job computes it (R124, R137). -/
def State.pixelBit (s : State) : Bool :=
  if ditherOf s.jobCtrl then !isWhite s.pixelV else directBlack (s.srcByte s.pixelAddr)

/-- The byte that EMIT_BYTE of pixel (X, Y) writes (R165, R167). -/
def State.groupDone (s : State) : Byte :=
  invertByte (invertOf s.jobCtrl) (groupByte (shiftIn s.packSr s.pixelBit) (s.x.toNat % 8 + 1))

/-- The byte that EMIT_COLUMN of pixel (X, Y) writes (R171). -/
def State.columnDone (s : State) : Byte :=
  invertByte (invertOf s.jobCtrl) (pixelByte s.pixelBit)

/-- The OUT address of the byte of pixel (X, Y) in a column record. -/
def State.pixelColumn (s : State) : Nat := columnAddr s.jobH.toNat s.x.toNat s.y.toNat

/-- Whether STEP_PIX of pixel (X, Y) completes a byte of a packed format. -/
def State.groupFull (s : State) : Bool := groupEnds s.jobW.toNat s.x.toNat

theorem quantPixel_pixBit (s : State) : (quantPixel s).pixBit = s.pixelBit := by
  unfold quantPixel State.pixelBit
  split <;> rfl

/-- The record row of the quantised pixel, in the fields it writes. -/
theorem recordPixel_quantPixel (s : State) :
    recordPixel (quantPixel s) = { quantPixel s with
      out := if fmtOf s.jobCtrl = 1#2 then s.out.put s.pixelColumn s.columnDone
        else if s.groupFull then s.out.put s.wptr.toNat s.groupDone else s.out
      wptr := if fmtOf s.jobCtrl ≠ 1#2 ∧ s.groupFull = true then s.wptr + 1 else s.wptr
      packSr := if fmtOf s.jobCtrl = 1#2 then s.packSr
        else if s.groupFull then 0 else shiftIn s.packSr s.pixelBit } := by
  have hb := quantPixel_pixBit s
  obtain ⟨_, _, _, b, hq⟩ := quantPixel_frame s
  rw [hq] at hb ⊢
  subst hb
  unfold recordPixel
  by_cases h1 : fmtOf s.jobCtrl = 1#2
  · simp only [h1, if_true, ne_eq, not_true, false_and, if_false]
    rfl
  · cases hg : s.groupFull with
    | true => simp only [h1, if_false, ne_eq, not_false_iff, true_and, if_true, show groupEnds _ _ = true from hg]; rfl
    | false =>
      simp only [h1, if_false, ne_eq, not_false_iff, true_and, Bool.false_eq_true, if_false,
        show groupEnds _ _ = false from hg]
      rfl

/-- The two rows of a STEP_PIX leave the job and its position. -/
theorem recordPixel_quantPixel_position (s : State) :
    let u := recordPixel (quantPixel s)
    u.x = s.x ∧ u.y = s.y ∧ u.phase = s.phase ∧ u.jobW = s.jobW ∧ u.jobH = s.jobH ∧ u.curErr = s.curErr := by
  obtain ⟨_, _, _, _, hq⟩ := quantPixel_frame s
  obtain ⟨_, _, _, hr⟩ := recordPixel_frame (quantPixel s)
  rw [hr, hq]
  exact ⟨rfl, rfl, rfl, rfl, rfl, rfl⟩

/-- STEP_PIX within a row. -/
theorem pixelDone_of_lt {s : State} (h : s.x.toNat + 1 < s.jobW.toNat) :
    pixelDone s = { recordPixel (quantPixel s) with x := s.x + 1, pixBit := false } := by
  obtain ⟨hx, -, -, hw, -⟩ := recordPixel_quantPixel_position s
  rw [pixelDone, advancePixel_of_lt (by rwa [hx, hw]), hx]

/-- STEP_PIX of the last column. -/
theorem pixelDone_of_last {s : State} (h : ¬ s.x.toNat + 1 < s.jobW.toNat) :
    pixelDone s = rowEnd { recordPixel (quantPixel s) with pixBit := false } := by
  obtain ⟨hx, -, -, hw, -⟩ := recordPixel_quantPixel_position s
  rw [pixelDone, advancePixel_of_ge (by rwa [hx, hw])]

@[simp] theorem pixelDone_cfg (s : State) : (pixelDone s).cfg = s.cfg :=
  (congrArg State.cfg (pixelDone_frame s) :)
@[simp] theorem pixelDone_outLen (s : State) : (pixelDone s).outLen = s.outLen :=
  (congrArg State.outLen (pixelDone_frame s) :)
@[simp] theorem pixelDone_jobCtrl (s : State) : (pixelDone s).jobCtrl = s.jobCtrl :=
  (congrArg State.jobCtrl (pixelDone_frame s) :)
@[simp] theorem pixelDone_jobW (s : State) : (pixelDone s).jobW = s.jobW :=
  (congrArg State.jobW (pixelDone_frame s) :)
@[simp] theorem pixelDone_jobH (s : State) : (pixelDone s).jobH = s.jobH :=
  (congrArg State.jobH (pixelDone_frame s) :)
@[simp] theorem pixelDone_src (s : State) : (pixelDone s).src = s.src :=
  (congrArg State.src (pixelDone_frame s) :)
@[simp] theorem pixelDone_memEpoch (s : State) : (pixelDone s).memEpoch = s.memEpoch :=
  (congrArg State.memEpoch (pixelDone_frame s) :)
@[simp] theorem pixelDone_pixBit (s : State) : (pixelDone s).pixBit = false :=
  (congrArg State.pixBit (pixelDone_frame s) :)

theorem pixelDone_out (s : State) :
    (pixelDone s).out = if fmtOf s.jobCtrl = 1#2 then s.out.put s.pixelColumn s.columnDone
      else if s.groupFull then s.out.put s.wptr.toNat s.groupDone else s.out := by
  by_cases h : s.x.toNat + 1 < s.jobW.toNat
  · rw [pixelDone_of_lt h, recordPixel_quantPixel]
  · rw [pixelDone_of_last h, rowEnd_out, recordPixel_quantPixel]

theorem pixelDone_wptr (s : State) :
    (pixelDone s).wptr = if fmtOf s.jobCtrl ≠ 1#2 ∧ s.groupFull = true then s.wptr + 1 else s.wptr := by
  by_cases h : s.x.toNat + 1 < s.jobW.toNat
  · rw [pixelDone_of_lt h, recordPixel_quantPixel]
  · rw [pixelDone_of_last h, rowEnd_wptr, recordPixel_quantPixel]

theorem pixelDone_packSr (s : State) :
    (pixelDone s).packSr = if fmtOf s.jobCtrl = 1#2 then s.packSr
      else if s.groupFull then 0 else shiftIn s.packSr s.pixelBit := by
  by_cases h : s.x.toNat + 1 < s.jobW.toNat
  · rw [pixelDone_of_lt h, recordPixel_quantPixel]
  · rw [pixelDone_of_last h, rowEnd_packSr, recordPixel_quantPixel]

theorem pixelDone_accOvf (s : State) : (pixelDone s).accOvf = (quantPixel s).accOvf := by
  by_cases h : s.x.toNat + 1 < s.jobW.toNat
  · rw [pixelDone_of_lt h, recordPixel_quantPixel]
  · rw [pixelDone_of_last h, rowEnd_accOvf, recordPixel_quantPixel]

theorem quantPixel_accOvf_of_accOvf {s : State} (h : s.accOvf = true) : (quantPixel s).accOvf = true := by
  unfold quantPixel quantFsState
  split <;> simp [h]

/-- Within one draw of the memories, the list OUT alone decides its bytes. -/
theorem outByte_eq_of_memEpoch {s t : State} (h : t.memEpoch = s.memEpoch) (a : Nat) :
    t.outByte a = ({ s with out := t.out } : State).outByte a := by
  simp only [State.outByte, h]

/-- A STEP_PIX writes at most one byte of OUT. -/
theorem pixelDone_outByte (s : State) (a : Nat) :
    (pixelDone s).outByte a = if fmtOf s.jobCtrl = 1#2 then (if a = s.pixelColumn then s.columnDone else s.outByte a)
      else if s.groupFull then (if a = s.wptr.toNat then s.groupDone else s.outByte a) else s.outByte a := by
  rw [outByte_eq_of_memEpoch (pixelDone_memEpoch s), pixelDone_out, ← outByte_put, ← outByte_put]
  split_ifs <;> rfl

theorem headerDone_outByte (s : State) (a : Nat) :
    (headerDone s).outByte a = if a < s.header.length then s.header.getD a 0 else s.outByte a := by
  have h := outByte_puts s 0 a s.header
  simp only [Nat.zero_le, Nat.zero_add, Nat.sub_zero, true_and] at h
  exact h

/-! ### The byte a STEP_PIX writes -/

/-- Settles O52: `pixelDone_outByte` names the byte of each format. -/
theorem stepPixWritesAtMostOneByte : Obligations.StepPixWritesAtMostOneByte := by
  intro s t hp h
  obtain ⟨-, rfl⟩ := (engineTurn_pix_eq_next_iff hp).mp h
  refine ⟨fun h1 a ha => ?_, fun h1 hg a ha => ?_, fun h1 hg a => ?_⟩
  · rw [pixelDone_outByte, if_pos h1]
    exact if_neg ha
  · rw [pixelDone_outByte, if_neg h1, State.groupFull, if_pos hg, if_neg ha]
  · rw [pixelDone_outByte, if_neg h1, State.groupFull, hg]
    rfl

/-! ### The canonical form of the memories -/

theorem wf_out_of_engineTurn {s t : State} (ho : s.out.wf) (h : engineTurn s = .next t) : t.out.wf := by
  obtain ⟨-, rfl⟩ | ⟨-, -, rfl⟩ | ⟨-, -, -, rfl⟩ | ⟨-, rfl⟩ := engineTurn_effect h
  · exact ho
  · exact Memory.wf_puts ho 0 s.header
  · rw [pixelDone_out]
    split_ifs
    · exact Memory.wf_put ho _ _
    · exact Memory.wf_put ho _ _
    · exact ho
  · exact ho

theorem wf_of_hostEffect {s t : State} (h : HostEffect s t) (hs : s.src.wf) (ho : s.out.wf) :
    t.src.wf ∧ t.out.wf := by
  cases h with
  | nothing | draw | writeCtrl | writeDim | ignored | cleared | reserved | rejected | accepted => exact ⟨hs, ho⟩
  | writeSrc k b => exact ⟨Memory.wf_put hs k b, ho⟩
  | writeOut k b => exact ⟨hs, Memory.wf_put ho k b⟩
  | aborted => exact ⟨hs, Memory.wf_fillBelow ho _ _⟩

/-- Settles O49: SRC changes by host writes alone; OUT by writes of single bytes and by the draws of an ABORT; a reset
empties both lists. -/
theorem canonicalMemoryKept : Obligations.CanonicalMemoryKept := by
  intro s t hs ho
  refine step_keeps (P := fun s => s.src.wf ∧ s.out.wf) (fun _ _ _ _ hP => hP) ?_ ?_
    (fun _ _ => ⟨List.Pairwise.nil, List.Pairwise.nil⟩) ⟨hs, ho⟩
  · rintro u v ⟨hus, huo⟩ he
    have hsrc : v.src = u.src := (congrArg State.src (engineTurn_frame he) :)
    exact ⟨hsrc ▸ hus, wf_out_of_engineTurn huo he⟩
  · rintro u v ⟨hus, huo⟩ he
    exact wf_of_hostEffect he hus huo

/-! ### The marks and the build -/

/-- Every mark of `s` is set in `t`, which is of the same build. -/
structure MarksKept (s t : State) : Prop where
  hzSrc : s.hzSrc = true → t.hzSrc = true
  hzOut : s.hzOut = true → t.hzOut = true
  accOvf : s.accOvf = true → t.accOvf = true
  cfg : t.cfg = s.cfg

theorem MarksKept.refl (s : State) : MarksKept s s := ⟨id, id, id, rfl⟩

theorem MarksKept.trans {s t u : State} (h : MarksKept s t) (h' : MarksKept t u) : MarksKept s u :=
  ⟨h'.hzSrc ∘ h.hzSrc, h'.hzOut ∘ h.hzOut, h'.accOvf ∘ h.accOvf, h'.cfg.trans h.cfg⟩

theorem marksKept_of_engineTurn {s t : State} (h : engineTurn s = .next t) : MarksKept s t := by
  have hf := engineTurn_frame h
  have hsrc : t.hzSrc = s.hzSrc := (congrArg State.hzSrc hf :)
  have hout : t.hzOut = s.hzOut := (congrArg State.hzOut hf :)
  refine ⟨hsrc ▸ id, hout ▸ id, fun hacc => ?_, (congrArg State.cfg hf :)⟩
  obtain ⟨-, rfl⟩ | ⟨-, -, rfl⟩ | ⟨-, -, -, rfl⟩ | ⟨-, rfl⟩ := engineTurn_effect h
  · exact hacc
  · exact hacc
  · rw [pixelDone_accOvf]
    exact quantPixel_accOvf_of_accOvf hacc
  · exact hacc

theorem marksKept_of_hostEffect {s t : State} (h : HostEffect s t) : MarksKept s t := by
  cases h with
  | nothing | draw | writeCtrl | writeDim | ignored | cleared | reserved | rejected | accepted | aborted =>
    exact ⟨id, id, id, rfl⟩
  | writeSrc => exact ⟨fun hm => by simp [hm], id, id, rfl⟩
  | writeOut => exact ⟨id, fun hm => by simp [hm], id, rfl⟩

theorem marksKept_of_step {s t : State} (h : step s = .next t) : MarksKept s t :=
  step_keeps (P := MarksKept s) (fun _ _ _ _ hP => hP.trans ⟨id, id, id, rfl⟩)
    (fun _ _ hP he => hP.trans (marksKept_of_engineTurn he))
    (fun _ _ hP he => hP.trans (marksKept_of_hostEffect he))
    (fun _ hP => hP.trans ⟨id, id, id, rfl⟩) (MarksKept.refl s) h

/-- Settles O54: the engine joins to ACC_OVF, the host joins to HZ_SRC and HZ_OUT, and a reset leaves all three. -/
theorem marksAreSticky : Obligations.MarksAreSticky := by
  intro s t h
  obtain ⟨hsrc, hout, hacc, hcfg⟩ := marksKept_of_step h
  exact ⟨hsrc, hout, hacc, hcfg⟩

/-! ### The latches -/

/-- Settles O53: the engine and every effect of the host but an accepted START leave the latches; `beginJob` takes them
from CTRL and DIM. -/
theorem latchesChangeOnlyByStartOrReset : Obligations.LatchesChangeOnlyByStartOrReset := by
  intro s t h
  obtain ⟨ts, he⟩ | ⟨u, hu, ht⟩ | ⟨hr, ts, rfl⟩ := step_effect h
  · have hf := engineTurn_frame he
    exact .inl ⟨(congrArg State.jobCtrl hf :), (congrArg State.jobW hf :), (congrArg State.jobH hf :)⟩
  · rw [ht]
    cases hu with
    | nothing | draw | writeCtrl | writeDim | writeSrc | writeOut | ignored | cleared | reserved | rejected | aborted =>
      exact .inl ⟨rfl, rfl, rfl⟩
    | accepted hp => exact .inr (.inl ⟨hp, rfl, rfl, rfl, rfl⟩)
  · exact .inr (.inr ⟨hr, rfl, rfl, rfl⟩)

end Sys2Proof.Machine

/-! PROOF. The invariant of the machine (`StateInv`): it holds at reset, the engine's turn, every effect of the host and
reset keep it, so every step does; with it the engine never faults and writes only the record. -/

namespace Sys2Proof.Machine

/-! ### Addresses of a job -/

/-- Cell b of row a of an m-by-n grid is one of its m*n cells. -/
theorem mul_add_lt_mul {a b m n : Nat} (ha : a < m) (hb : b < n) : a * n + b < m * n :=
  calc a * n + b < a * n + n := Nat.add_lt_add_left hb _
    _ = (a + 1) * n := (Nat.succ_mul a n).symm
    _ ≤ m * n := Nat.mul_le_mul_right n ha

theorem sampleAddr_lt {w h x y : Nat} (hx : x < w) (hy : y < h) : sampleAddr w x y < w * h := by
  rw [Nat.mul_comm w h]
  exact mul_add_lt_mul hy hx

theorem columnAddr_lt {w h x y : Nat} (hx : x < w) (hy : y < h) : columnAddr h x y < recordLen 1#2 w h := by
  have := mul_add_lt_mul hx hy
  rw [recordLen_column, columnAddr]
  omega

theorem recordLen_of_ne_column {f : BitVec 2} (hf : f ≠ 1#2) (w h : Nat) :
    recordLen f w h = headerLen f + bytesPerRow w * h := by
  unfold recordLen headerLen
  split_ifs <;> omega

theorem headerLen_le_recordLen (f : BitVec 2) (w h : Nat) : headerLen f ≤ recordLen f w h := by
  unfold recordLen headerLen
  split_ifs <;> omega

theorem div_eight_lt_bytesPerRow {w x : Nat} (hx : x < w) : x / 8 < bytesPerRow w := by
  unfold bytesPerRow
  omega

/-- The byte of pixel (x, y) in a packed format is one of the record. -/
theorem packedAddr_lt {f : BitVec 2} (hf : f ≠ 1#2) {w h x y : Nat} (hx : x < w) (hy : y < h) :
    headerLen f + y * bytesPerRow w + x / 8 < recordLen f w h := by
  have := mul_add_lt_mul hy (div_eight_lt_bytesPerRow hx)
  rw [recordLen_of_ne_column hf, Nat.mul_comm (bytesPerRow w)]
  omega

/-! ### PACK_SR in numbers -/

theorem toNat_shiftIn (sr : Byte) (b : Bool) : (shiftIn sr b).toNat = (sr.toNat * 2 + b.toNat) % 256 := by
  revert sr b
  decide

theorem toNat_shiftIn_lt {sr : Byte} {k : Nat} (h : sr.toNat < 2 ^ k) (b : Bool) :
    (shiftIn sr b).toNat < 2 ^ (k + 1) := by
  have hb := b.toNat_le
  rw [toNat_shiftIn, pow_succ]
  omega

/-! ### The remaining fields after a STEP_PIX -/

theorem length_nxtErr_quantPixel (s : State) : (quantPixel s).nxtErr.length = s.nxtErr.length := by
  unfold quantPixel
  split
  · exact length_spread ..
  · rfl

theorem pixelDone_eCarry (s : State) :
    (pixelDone s).eCarry = if s.x.toNat + 1 < s.jobW.toNat then (quantPixel s).eCarry else 0 := by
  split_ifs with h
  · rw [pixelDone_of_lt h, recordPixel_quantPixel]
  · rw [pixelDone_of_last h, rowEnd_eCarry]

theorem pixelDone_curErr (s : State) :
    (pixelDone s).curErr = if s.x.toNat + 1 < s.jobW.toNat then s.curErr
      else copyFirst s.jobW.toNat (quantPixel s).nxtErr s.curErr := by
  obtain ⟨-, -, -, hw, -, hcur⟩ := recordPixel_quantPixel_position s
  split_ifs with h
  · rw [pixelDone_of_lt h, hcur]
  · rw [pixelDone_of_last h, rowEnd, hcur, hw, recordPixel_quantPixel]

theorem pixelDone_nxtErr (s : State) :
    (pixelDone s).nxtErr = if s.x.toNat + 1 < s.jobW.toNat then (quantPixel s).nxtErr
      else zeroFirst s.jobW.toNat (quantPixel s).nxtErr := by
  obtain ⟨-, -, -, hw, -⟩ := recordPixel_quantPixel_position s
  split_ifs with h
  · rw [pixelDone_of_lt h, recordPixel_quantPixel]
  · rw [pixelDone_of_last h, rowEnd, hw, recordPixel_quantPixel]

/-- Where a STEP_PIX within a row leads. -/
theorem pixelDone_position_of_lt {s : State} (h : s.x.toNat + 1 < s.jobW.toNat) :
    (pixelDone s).x = s.x + 1 ∧ (pixelDone s).y = s.y ∧ (pixelDone s).phase = s.phase := by
  obtain ⟨-, hy, hp, -⟩ := recordPixel_quantPixel_position s
  rw [pixelDone_of_lt h]
  exact ⟨rfl, hy, hp⟩

/-- Where the STEP_PIX of the last column leads. -/
theorem pixelDone_position_of_last {s : State} (h : ¬ s.x.toNat + 1 < s.jobW.toNat) :
    (pixelDone s).x = 0 ∧ (pixelDone s).y = s.y + 1 ∧
      (pixelDone s).phase = if s.y + 1 = s.jobH then .fin else s.phase := by
  obtain ⟨-, hy, hp, -, hh, -⟩ := recordPixel_quantPixel_position s
  rw [pixelDone_of_last h, rowEnd, hy, hp, hh]
  exact ⟨rfl, rfl, rfl⟩

/-- A counter below a value of its own width does not wrap. -/
theorem toNat_add_one {n : Nat} {v w : BitVec n} (h : v.toNat < w.toNat) : (v + 1).toNat = v.toNat + 1 := by
  have hw := w.isLt
  have hlt : 1 < 2 ^ n := by omega
  have hone : (1 : BitVec n).toNat = 1 := Nat.mod_eq_of_lt hlt
  rw [BitVec.toNat_add_of_lt (by rw [hone]; omega), hone]

/-- The two coordinates that a STEP_PIX can lead to, in numbers. -/
theorem pixelDone_position {s : State} (hp : s.phase = .pix) (hx : s.x.toNat < s.jobW.toNat)
    (hy : s.y.toNat < s.jobH.toNat) :
    (s.x.toNat + 1 < s.jobW.toNat ∧ (pixelDone s).phase = .pix ∧ (pixelDone s).x.toNat = s.x.toNat + 1 ∧
      (pixelDone s).y.toNat = s.y.toNat) ∨
    (s.x.toNat + 1 = s.jobW.toNat ∧ s.y.toNat + 1 < s.jobH.toNat ∧ (pixelDone s).phase = .pix ∧
      (pixelDone s).x.toNat = 0 ∧ (pixelDone s).y.toNat = s.y.toNat + 1) ∨
    (s.x.toNat + 1 = s.jobW.toNat ∧ s.y.toNat + 1 = s.jobH.toNat ∧ (pixelDone s).phase = .fin ∧
      (pixelDone s).x = 0 ∧ (pixelDone s).y = s.jobH) := by
  by_cases h : s.x.toNat + 1 < s.jobW.toNat
  · obtain ⟨hx', hy', hp'⟩ := pixelDone_position_of_lt h
    exact .inl ⟨h, hp'.trans hp, by rw [hx', toNat_add_one hx], by rw [hy']⟩
  · obtain ⟨hx', hy', hp'⟩ := pixelDone_position_of_last h
    have hlast : s.x.toNat + 1 = s.jobW.toNat := by omega
    have hfin : s.y + 1 = s.jobH ↔ s.y.toNat + 1 = s.jobH.toNat := by
      rw [← BitVec.toNat_inj, toNat_add_one hy]
    by_cases he : s.y + 1 = s.jobH
    · exact .inr (.inr ⟨hlast, hfin.mp he, by rw [hp', if_pos he], hx', hy'.trans he⟩)
    · have := mt hfin.mpr he
      exact .inr (.inl ⟨hlast, by omega, by rw [hp', if_neg he, hp], by rw [hx']; rfl,
        by rw [hy', toNat_add_one hy]⟩)

/-! ### With the invariant the engine's turn completes -/

theorem StateInv.jobOk_of_hdr {s : State} (h : StateInv s) (hp : s.phase = .hdr) : JobOk s :=
  h.job (by simp [hp])

theorem StateInv.jobOk_of_pix {s : State} (h : StateInv s) (hp : s.phase = .pix) : JobOk s :=
  h.job (by simp [hp])

theorem StateInv.position_of_hdr {s : State} (h : StateInv s) (hp : s.phase = .hdr) :
    s.x = 0 ∧ s.y = 0 ∧ PackerOk s := by
  have := h.position
  rwa [PositionOk, hp] at this

theorem StateInv.position_of_pix {s : State} (h : StateInv s) (hp : s.phase = .pix) :
    s.x.toNat < s.jobW.toNat ∧ s.y.toNat < s.jobH.toNat ∧ PackerOk s := by
  have := h.position
  rwa [PositionOk, hp] at this

theorem StateInv.length_header_le {s : State} (h : StateInv s) (hp : s.phase = .hdr) :
    s.header.length ≤ s.jobLen ∧ s.jobLen ≤ s.cfg.outSize := by
  obtain ⟨-, -, -, -, -, hlen, -⟩ := h.jobOk_of_hdr hp
  rw [length_header]
  exact ⟨headerLen_le_recordLen _ _ _, hlen⟩

theorem StateInv.pixelColumn_lt {s : State} (h : StateInv s) (hp : s.phase = .pix) (hf : fmtOf s.jobCtrl = 1#2) :
    s.pixelColumn < s.jobLen := by
  obtain ⟨hx, hy, -⟩ := h.position_of_pix hp
  rw [State.jobLen, hf]
  exact columnAddr_lt hx hy

theorem StateInv.wptr_lt {s : State} (h : StateInv s) (hp : s.phase = .pix) (hf : fmtOf s.jobCtrl ≠ 1#2) :
    s.wptr.toNat < s.jobLen := by
  obtain ⟨hx, hy, hpack⟩ := h.position_of_pix hp
  obtain ⟨hw, -⟩ := hpack hf
  rw [hw]
  exact packedAddr_lt hf hx hy

theorem StateInv.quantFits {s : State} (h : StateInv s) (hp : s.phase = .pix) : s.QuantFits := by
  obtain ⟨hx, hy, -⟩ := h.position_of_pix hp
  obtain ⟨-, -, hmax, -, hsrc, -, -⟩ := h.jobOk_of_pix hp
  obtain ⟨hcur, hnxt⟩ := h.buffers
  refine ⟨lt_of_lt_of_le (sampleAddr_lt hx hy) hsrc, fun _ => ?_⟩
  simp only [State.rowsFit, hcur, hnxt, hmax, hx, decide_true, Bool.and_true]

theorem StateInv.recordFits {s : State} (h : StateInv s) (hp : s.phase = .pix) : s.RecordFits := by
  obtain ⟨hfmt, -, -, -, -, hlen, -⟩ := h.jobOk_of_pix hp
  exact ⟨hfmt, fun hf => lt_of_lt_of_le (h.pixelColumn_lt hp hf) hlen,
    fun hf _ => lt_of_lt_of_le (h.wptr_lt hp hf) hlen⟩

theorem StateInv.engineTurn_hdr {s : State} (h : StateInv s) (hp : s.phase = .hdr) :
    engineTurn s = .next (headerDone s) := by
  obtain ⟨hfmt, -⟩ := h.jobOk_of_hdr hp
  obtain ⟨hle, hlen⟩ := h.length_header_le hp
  exact engineTurn_of_hdr hp hfmt (hle.trans hlen)

theorem StateInv.engineTurn_pix {s : State} (h : StateInv s) (hp : s.phase = .pix) :
    engineTurn s = .next (pixelDone s) :=
  (engineTurn_pix_eq_next_iff hp).mpr ⟨⟨h.quantFits hp, h.recordFits hp⟩, rfl⟩

theorem StateInv.engineTurn_completes {s : State} (h : StateInv s) : ∃ t, engineTurn s = .next t := by
  cases hp : s.phase with
  | idle => exact ⟨_, engineTurn_idle hp⟩
  | hdr => exact ⟨_, h.engineTurn_hdr hp⟩
  | pix => exact ⟨_, h.engineTurn_pix hp⟩
  | fin => exact ⟨_, engineTurn_fin hp⟩

/-- Settles O51: the header's bytes, the column byte and the byte at WPTR all stand below L. -/
theorem engineWritesOnlyTheRecord : Obligations.EngineWritesOnlyTheRecord := by
  intro s t a h he ha
  obtain ⟨-, rfl⟩ | ⟨hp, -, rfl⟩ | ⟨hp, -, -, rfl⟩ | ⟨-, rfl⟩ := engineTurn_effect he
  · rfl
  · obtain ⟨hle, -⟩ := h.length_header_le hp
    rw [headerDone_outByte, if_neg (by omega)]
  · rw [pixelDone_outByte]
    split_ifs with hf hcol hg hwptr
    · have := h.pixelColumn_lt hp hf
      omega
    · rfl
    · have := h.wptr_lt hp hf
      omega
    · rfl
    · rfl
  · rfl

/-! ### The engine keeps the invariant -/

theorem StateInv.withWorld {s : State} (h : StateInv s) (l : List HostOp) (ts : List Turn) (r : List Word) :
    StateInv { s with host := l, sched := ts, hostReads := r } :=
  ⟨h.cfg, h.status, h.memory, h.buffers, h.job, h.position, h.wire⟩

theorem memoryOk_put_src {s : State} (h : MemoryOk s) {k : Nat} (hk : k < s.cfg.srcSize) (b : Byte) :
    MemoryOk { s with src := s.src.put k b } := by
  obtain ⟨hsrc, hout, hsrcIn, houtIn⟩ := h
  refine ⟨Memory.wf_put hsrc k b, hout, fun c hc => ?_, houtIn⟩
  rcases Memory.mem_put hc with rfl | hc
  · exact hk
  · exact hsrcIn c hc

theorem memoryOk_put_out {s : State} (h : MemoryOk s) {k : Nat} (hk : k < s.cfg.outSize) (b : Byte) :
    MemoryOk { s with out := s.out.put k b } := by
  obtain ⟨hsrc, hout, hsrcIn, houtIn⟩ := h
  refine ⟨hsrc, Memory.wf_put hout k b, hsrcIn, fun c hc => ?_⟩
  rcases Memory.mem_put hc with rfl | hc
  · exact hk
  · exact houtIn c hc

theorem memoryOk_headerDone {s : State} (h : StateInv s) (hp : s.phase = .hdr) : MemoryOk (headerDone s) := by
  obtain ⟨hsrc, hout, hsrcIn, houtIn⟩ := h.memory
  obtain ⟨hle, hlen⟩ := h.length_header_le hp
  refine ⟨hsrc, Memory.wf_puts hout 0 _, hsrcIn, fun c hc => ?_⟩
  rcases Memory.mem_puts hc with ⟨-, hc⟩ | hc
  · have hcfg : (headerDone s).cfg = s.cfg := rfl
    rw [hcfg]
    omega
  · exact houtIn c hc

theorem StateInv.headerDone {s : State} (h : StateInv s) (hp : s.phase = .hdr) : StateInv (headerDone s) := by
  obtain ⟨hx, hy, hpack⟩ := h.position_of_hdr hp
  obtain ⟨-, hw, -, hh, -⟩ := h.jobOk_of_hdr hp
  exact {
    cfg := h.cfg
    status := h.status.of_engineTurn (h.engineTurn_hdr hp)
    memory := memoryOk_headerDone h hp
    buffers := h.buffers
    job := fun _ => h.jobOk_of_hdr hp
    position := ⟨by rw [show (Machine.headerDone s).x = 0 from hx]; exact hw,
      by rw [show (Machine.headerDone s).y = 0 from hy]; exact hh, hpack⟩
    wire := h.wire }

theorem memoryOk_pixelDone {s : State} (h : StateInv s) (hp : s.phase = .pix) : MemoryOk (pixelDone s) := by
  obtain ⟨-, -, -, -, -, hlen, -⟩ := h.jobOk_of_pix hp
  have hmem : MemoryOk { s with out := (pixelDone s).out } := by
    rw [pixelDone_out]
    split_ifs with hf hg
    · exact memoryOk_put_out h.memory (lt_of_lt_of_le (h.pixelColumn_lt hp hf) hlen) _
    · exact memoryOk_put_out h.memory (lt_of_lt_of_le (h.wptr_lt hp hf) hlen) _
    · exact h.memory
  rw [MemoryOk, pixelDone_src, pixelDone_cfg]
  exact hmem

theorem buffersOk_pixelDone {s : State} (h : BuffersOk s) : BuffersOk (pixelDone s) := by
  obtain ⟨hcur, hnxt⟩ := h
  rw [BuffersOk, pixelDone_curErr, pixelDone_nxtErr, pixelDone_cfg]
  split_ifs <;> simp [length_nxtErr_quantPixel, hcur, hnxt]

theorem groupFull_iff (s : State) :
    s.groupFull = true ↔ s.x.toNat % 8 = 7 ∨ s.x.toNat + 1 = s.jobW.toNat := by
  simp [State.groupFull, groupEnds]

/-- WPTR and PACK_SR stand where R164 and R165 put them for the pixel in column x of row y. -/
def PackerAt (s : State) (x y : Nat) : Prop :=
  s.wptr.toNat = headerLen (fmtOf s.jobCtrl) + y * bytesPerRow s.jobW.toNat + x / 8 ∧ s.packSr.toNat < 2 ^ (x % 8)

theorem packerOk_iff (s : State) : PackerOk s ↔ (fmtOf s.jobCtrl ≠ 1#2 → PackerAt s s.x.toNat s.y.toNat) := Iff.rfl

/-- A STEP_PIX that completes no byte leaves WPTR, and its bit is in PACK_SR. -/
theorem packerAt_pixelDone_of_not_full {s : State} {y : Nat} (hf : fmtOf s.jobCtrl ≠ 1#2)
    (h : PackerAt s s.x.toNat y) (hg : s.groupFull = false) : PackerAt (pixelDone s) (s.x.toNat + 1) y := by
  obtain ⟨hwptr, hsr⟩ := h
  have hfull := mt (groupFull_iff s).mpr (by simp [hg])
  have hdiv : (s.x.toNat + 1) / 8 = s.x.toNat / 8 := by omega
  have hmod : (s.x.toNat + 1) % 8 = s.x.toNat % 8 + 1 := by omega
  rw [PackerAt, pixelDone_wptr, pixelDone_packSr, pixelDone_jobCtrl, pixelDone_jobW, hdiv, hmod]
  simp only [hf, hg, Bool.false_eq_true, and_false, if_false]
  exact ⟨hwptr, toNat_shiftIn_lt hsr _⟩

/-- A STEP_PIX that completes a byte moves WPTR on and empties PACK_SR. -/
theorem pixelDone_packer_of_full {s : State} (h : StateInv s) (hp : s.phase = .pix) (hf : fmtOf s.jobCtrl ≠ 1#2)
    (hg : s.groupFull = true) :
    (pixelDone s).wptr.toNat = s.wptr.toNat + 1 ∧ (pixelDone s).packSr = 0 := by
  obtain ⟨-, -, -, -, -, hlen, -⟩ := h.jobOk_of_pix hp
  obtain ⟨-, -, -, hout⟩ := h.cfg
  have hlt := h.wptr_lt hp hf
  have hmax : s.wptr.toNat < (BitVec.allOnes 32).toNat := by
    rw [BitVec.toNat_allOnes]
    omega
  rw [pixelDone_wptr, pixelDone_packSr, if_pos ⟨hf, hg⟩, if_neg hf, if_pos hg]
  exact ⟨toNat_add_one hmax, rfl⟩

/-- R164, R165: WPTR and PACK_SR after a STEP_PIX, where the next pixel has its bit. -/
theorem packerOk_pixelDone {s : State} (h : StateInv s) (hp : s.phase = .pix) : PackerOk (pixelDone s) := by
  obtain ⟨hx, hy, hpack⟩ := h.position_of_pix hp
  rw [packerOk_iff, pixelDone_jobCtrl]
  intro hf
  have hat : PackerAt s s.x.toNat s.y.toNat := hpack hf
  have hend : ∀ {x' y'}, s.groupFull = true → y' * bytesPerRow s.jobW.toNat + x' / 8 =
      s.y.toNat * bytesPerRow s.jobW.toNat + s.x.toNat / 8 + 1 → PackerAt (pixelDone s) x' y' := by
    intro x' y' hg haddr
    obtain ⟨hwptr, hsr⟩ := pixelDone_packer_of_full h hp hf hg
    obtain ⟨hat, -⟩ := hat
    refine ⟨?_, by rw [hsr]; exact Nat.two_pow_pos _⟩
    rw [hwptr, pixelDone_jobCtrl, pixelDone_jobW]
    omega
  have hrow : s.x.toNat + 1 = s.jobW.toNat → (s.y.toNat + 1) * bytesPerRow s.jobW.toNat + 0 / 8 =
      s.y.toNat * bytesPerRow s.jobW.toNat + s.x.toNat / 8 + 1 := by
    intro hlast
    have hbpr : bytesPerRow s.jobW.toNat = s.x.toNat / 8 + 1 := by
      rw [← hlast, bytesPerRow]
      omega
    rw [Nat.succ_mul]
    omega
  obtain ⟨hlt, -, hx', hy'⟩ | ⟨hlast, -, -, hx', hy'⟩ | ⟨hlast, hh, -, hx', hy'⟩ := pixelDone_position hp hx hy
  · rw [hx', hy']
    cases hg : s.groupFull with
    | false => exact packerAt_pixelDone_of_not_full hf hat hg
    | true =>
      refine hend hg ?_
      have := (groupFull_iff s).mp hg
      omega
  · rw [hx', hy']
    exact hend ((groupFull_iff s).mpr (.inr hlast)) (hrow hlast)
  · rw [hx', hy', ← hh]
    exact hend ((groupFull_iff s).mpr (.inr hlast)) (hrow hlast)

theorem positionOk_pixelDone {s : State} (h : StateInv s) (hp : s.phase = .pix) : PositionOk (pixelDone s) := by
  obtain ⟨hx, hy, -⟩ := h.position_of_pix hp
  have hpack := packerOk_pixelDone h hp
  rw [PositionOk]
  obtain ⟨hlt, hp', hx', hy'⟩ | ⟨-, hlt, hp', hx', hy'⟩ | ⟨-, -, hp', hx', hy'⟩ := pixelDone_position hp hx hy
  · rw [hp', pixelDone_jobW, pixelDone_jobH]
    exact ⟨by omega, by omega, hpack⟩
  · rw [hp', pixelDone_jobW, pixelDone_jobH]
    exact ⟨by omega, by omega, hpack⟩
  · rw [hp', pixelDone_jobH]
    exact ⟨hx', hy'⟩

theorem jobOk_pixelDone {s : State} (h : JobOk s) : JobOk (pixelDone s) := by
  rw [JobOk, State.jobLen, pixelDone_jobCtrl, pixelDone_jobW, pixelDone_jobH, pixelDone_cfg, pixelDone_outLen]
  exact h

theorem StateInv.pixelDone {s : State} (h : StateInv s) (hp : s.phase = .pix) : StateInv (pixelDone s) where
  cfg := by rw [pixelDone_cfg]; exact h.cfg
  status := h.status.of_engineTurn (h.engineTurn_pix hp)
  memory := memoryOk_pixelDone h hp
  buffers := buffersOk_pixelDone h.buffers
  job := fun _ => jobOk_pixelDone (h.jobOk_of_pix hp)
  position := positionOk_pixelDone h hp
  wire := pixelDone_pixBit s

theorem positionOk_of_idle {s : State} (hp : s.phase = .idle) : PositionOk s := by
  rw [PositionOk, hp]
  trivial

theorem StateInv.of_engineTurn {s t : State} (h : StateInv s) (he : engineTurn s = .next t) : StateInv t := by
  obtain ⟨-, rfl⟩ | ⟨hp, -, rfl⟩ | ⟨hp, -, -, rfl⟩ | ⟨hp, rfl⟩ := engineTurn_effect he
  · exact h
  · exact h.headerDone hp
  · exact h.pixelDone hp
  · exact ⟨h.cfg, statusOk_stepFin h.status hp, h.memory, h.buffers, fun hne => absurd rfl hne, trivial, h.wire⟩

/-! ### The host keeps the invariant -/

theorem startError_eq_none {p : Params} {ctrl : BitVec 4} {dim : Word} (h : startError p ctrl dim = none) :
    1 ≤ (widthOf dim).toNat ∧ 1 ≤ (heightOf dim).toNat ∧ (widthOf dim).toNat ≤ p.maxWidth ∧ fmtOf ctrl ≠ 3#2 ∧
      (widthOf dim).toNat * (heightOf dim).toNat ≤ p.srcSize ∧
      recordLen (fmtOf ctrl) (widthOf dim).toNat (heightOf dim).toNat ≤ p.outSize := by
  unfold startError at h
  dsimp only at h
  split_ifs at h with hempty hw hf hs ho
  exact ⟨by omega, by omega, by omega, hf, by omega, by omega⟩

/-- The invariant in a state in which no job runs. -/
theorem stateInv_of_idle {s : State} (hp : s.phase = .idle) (hcfg : s.cfg.Legal) (hstatus : StatusOk s)
    (hmem : MemoryOk s) (hbuf : BuffersOk s) (hwire : s.pixBit = false) : StateInv s :=
  ⟨hcfg, hstatus, hmem, hbuf, fun hne => absurd hp hne, positionOk_of_idle hp, hwire⟩

/-- START puts the engine at pixel (0, 0), with an empty PACK_SR and WPTR behind the header. -/
theorem positionOk_beginJob (s : State) : PositionOk (beginJob s) := by
  refine ⟨rfl, rfl, fun _ => ⟨?_, Nat.two_pow_pos _⟩⟩
  have hlen : ∀ f : BitVec 2, headerLen f < 4294967296 := by decide
  simp [beginJob, hlen]

theorem StateInv.accepted {s : State} (h : StateInv s) (he : startError s.cfg s.ctrl s.dim = none) :
    StateInv (beginJob (startClear s)) := by
  obtain ⟨hw, hh, hmax, hf, hsrc, hout⟩ := startError_eq_none he
  obtain ⟨hcur, hnxt⟩ := h.buffers
  exact {
    cfg := h.cfg
    status := statusOk_beginJob_startClear s
    memory := h.memory
    buffers := ⟨(length_zeroFirst _ _).trans hcur, (length_zeroFirst _ _).trans hnxt⟩
    job := fun _ => ⟨hf, hw, hmax, hh, hsrc, hout, rfl⟩
    position := positionOk_beginJob _
    wire := h.wire }

/-- The draws of an ABORT stand below P_OUT_SIZE (log 13). -/
theorem memoryOk_abortJob {s : State} (h : MemoryOk s) : MemoryOk (abortJob s) := by
  obtain ⟨hsrc, hout, hsrcIn, houtIn⟩ := h
  refine ⟨hsrc, Memory.wf_fillBelow hout _ _, hsrcIn, fun c hc => ?_⟩
  rcases Memory.mem_fillBelow hc with hc | hc
  · exact lt_of_lt_of_le hc (Nat.min_le_right _ _)
  · exact houtIn c hc

theorem StateInv.of_hostEffect {s t : State} (h : StateInv s) (he : HostEffect s t) : StateInv t := by
  cases he with
  | nothing => exact h
  | draw | writeCtrl | writeDim => exact ⟨h.cfg, h.status, h.memory, h.buffers, h.job, h.position, h.wire⟩
  | writeSrc k b hk => exact ⟨h.cfg, h.status, memoryOk_put_src h.memory hk b, h.buffers, h.job, h.position, h.wire⟩
  | writeOut k b hk => exact ⟨h.cfg, h.status, memoryOk_put_out h.memory hk b, h.buffers, h.job, h.position, h.wire⟩
  | ignored hp => exact ⟨h.cfg, statusOk_ignoreCommand h.status, h.memory, h.buffers, h.job, h.position, h.wire⟩
  | cleared hp => exact stateInv_of_idle hp h.cfg (statusOk_clearFlags h.status hp) h.memory h.buffers h.wire
  | reserved hp => exact stateInv_of_idle hp h.cfg (statusOk_raiseError h.status hp _) h.memory h.buffers h.wire
  | rejected e hp =>
    exact stateInv_of_idle hp h.cfg (statusOk_raiseError (statusOk_startClear h.status hp) hp e) h.memory h.buffers
      h.wire
  | accepted hp hnone => exact h.accepted hnone
  | aborted hp =>
    exact stateInv_of_idle rfl h.cfg (statusOk_abortJob s) (memoryOk_abortJob h.memory) h.buffers h.wire

/-! ### Reset and the step -/

theorem stateInv_resetWith {p : Params} (hp : p.Legal) : StateInv (State.resetWith p) :=
  stateInv_of_idle rfl hp (statusOk_resetWith p)
    ⟨List.Pairwise.nil, List.Pairwise.nil, fun _ hc => absurd hc List.not_mem_nil,
      fun _ hc => absurd hc List.not_mem_nil⟩
    ⟨List.length_replicate, List.length_replicate⟩ rfl

/-- Settles O47: no job runs at reset, both memories are empty and the buffers have P_MAX_WIDTH entries. -/
theorem invariantAtReset : Obligations.InvariantAtReset := fun _ => stateInv_resetWith

theorem StateInv.resetEvent {s : State} (h : StateInv s) : StateInv (resetEvent s) := by
  have hr := stateInv_resetWith h.cfg
  exact stateInv_of_idle rfl h.cfg (statusOk_resetEvent s) hr.memory hr.buffers rfl

theorem StateInv.of_step {s t : State} (h : StateInv s) (hs : step s = .next t) : StateInv t :=
  step_keeps (P := StateInv) (fun _ l ts r h => h.withWorld l ts r) (fun _ _ h he => h.of_engineTurn he)
    (fun _ _ h he => h.of_hostEffect he) (fun _ h => h.resetEvent) h hs

/-- Settles O46: the engine's turn, each effect of the host and reset keep the invariant. -/
theorem invariantKept : Obligations.InvariantKept := fun _ _ => StateInv.of_step

end Sys2Proof.Machine

/-! PROOF. The bounds of the error accumulator (40_dither.md R134): V lies in [-128, 383], so an error lies in
[-128, 128] and a share is at most 8 for each of its sixteenths; so the partial sums in NXT_ERR grow by 8 for each
sixteenth they receive, and no value leaves the 16-bit range of R135. -/

namespace Sys2Proof.Machine

/-! ### The bound on one value -/

theorem within_zero {b : Int} (hb : 0 ≤ b) : within b 0 := by
  unfold within
  omega

theorem within_mono {b c v : Int} (h : within b v) (hbc : b ≤ c) : within c v := by
  unfold within at *
  omega

/-- A share of k sixteenths of an error is at most 8k. -/
theorem within_share {e : Int} (he : within 128 e) :
    within 56 (share e 7) ∧ within 24 (share e 3) ∧ within 40 (share e 5) ∧ within 8 (share e 1) := by
  unfold within share at *
  omega

theorem inAccRange_iff (v : Int) : inAccRange v = true ↔ -32768 ≤ v ∧ v ≤ 32767 := by
  have h : inAccRange v = (decide (-32768 ≤ v) && decide (v < 32768)) := rfl
  rw [h, Bool.and_eq_true, decide_eq_true_eq, decide_eq_true_eq]
  omega

theorem quantError_eq (v : Int) : quantError v = if 128 < v then v - 255 else v := by
  by_cases h : 128 < v
  · simp [quantError, outLevel, isWhite, h]
  · simp [quantError, outLevel, isWhite, h]

/-- R134: E of an intensity in [-128, 383]. -/
theorem within_quantError {v : Int} (hlo : -128 ≤ v) (hhi : v ≤ 383) : within 128 (quantError v) := by
  rw [quantError_eq, within]
  split_ifs <;> omega

/-! ### The bound on a buffer -/

theorem getD_of_forall_mem {P : Int → Prop} {l : List Int} (h : ∀ v ∈ l, P v) (h0 : P 0) (i : Nat) :
    P (l.getD i 0) := by
  rw [List.getD_eq_getElem?_getD]
  cases hi : l[i]? with
  | none => exact h0
  | some v => exact h v (List.mem_of_getElem? hi)

theorem forall_mem_of_getD {P : Int → Prop} {l : List Int} (h : ∀ i, i < l.length → P (l.getD i 0)) :
    ∀ v ∈ l, P v := by
  intro v hv
  obtain ⟨i, hi, rfl⟩ := List.getElem_of_mem hv
  have := h i hi
  rwa [List.getD_eq_getElem l 0 hi] at this

theorem nxtBound_nonneg (x i : Nat) : 0 ≤ nxtBound x i := by
  unfold nxtBound
  split_ifs <;> omega

theorem nxtBound_le (x i : Nat) : nxtBound x i ≤ 72 := by
  unfold nxtBound
  split_ifs <;> omega

theorem nxtBound_le_succ (x i : Nat) : nxtBound x i ≤ nxtBound (x + 1) i := by
  unfold nxtBound
  split_ifs <;> omega

/-- The shares of one pixel raise each partial sum no further than the bound of the next column. -/
theorem within_spread {w h x y : Nat} {e : Int} {l : List Int} (he : within 128 e) (hx : x < w) (hl : w ≤ l.length)
    {i : Nat} (hi : within (nxtBound x i) (l.getD i 0)) :
    within (nxtBound (x + 1) i) ((spread w h x y e l).getD i 0) := by
  obtain ⟨-, h3, h5, h1⟩ := within_share he
  rw [getD_spread e hx hl]
  unfold within nxtBound at *
  split_ifs at * <;> omega

/-- An entry at or above the width receives no share. -/
theorem getD_spread_of_ge {w h x y : Nat} (e : Int) {l : List Int} (hx : x < w) (hl : w ≤ l.length) {i : Nat}
    (hi : w ≤ i) : (spread w h x y e l).getD i 0 = l.getD i 0 := by
  rw [getD_spread e hx hl]
  split_ifs <;> omega

/-! ### The pixel at hand -/

/-- R134: V of the pixel at hand. -/
theorem AccOk.pixelV_bounds {s : State} (h : AccOk s) : -128 ≤ s.pixelV ∧ s.pixelV ≤ 383 := by
  have hcur : within 72 (s.curErr.getD s.x.toNat 0) := getD_of_forall_mem h.cur (within_zero (by decide)) _
  have hcarry := h.carry
  have hg := (s.srcByte s.pixelAddr).isLt
  unfold within at hcur hcarry
  unfold State.pixelV intensity
  omega

/-- Settles O35: the sample is below 256, and CUR_ERR and E_CARRY are within 72 and 56. -/
theorem intensityAndErrorBounds : Obligations.IntensityAndErrorBounds := by
  intro s _ h _ v
  obtain ⟨hlo, hhi⟩ := h.pixelV_bounds
  exact ⟨⟨hlo, hhi⟩, within_quantError hlo hhi⟩

/-- No value of R136's check leaves the 16-bit range. -/
theorem accFits_of_within {v e carry : Int} {nxt : List Int} (hv : -128 ≤ v ∧ v ≤ 383) (he : within 128 e)
    (hc : within 56 carry) (hn : ∀ u ∈ nxt, within 72 u) : accFits v e carry nxt = true := by
  unfold within at *
  simp only [accFits, Bool.and_eq_true, List.all_eq_true, inAccRange_iff]
  refine ⟨⟨⟨⟨⟨⟨?_, ?_⟩, ?_⟩, ?_⟩, ?_⟩, ?_⟩, fun u hu => ?_⟩
  · omega
  · omega
  · omega
  · omega
  · omega
  · omega
  · have := hn u hu
    omega

/-- What the quantiser leaves in the accumulator, in a job of either kind. -/
structure QuantBounds (s : State) : Prop where
  carry : within 56 (quantPixel s).eCarry
  nxt : ∀ v ∈ (quantPixel s).nxtErr, within 72 v
  partials : ∀ i, i < s.jobW.toNat → within (nxtBound (s.x.toNat + 1) i) ((quantPixel s).nxtErr.getD i 0)
  accOvf : (quantPixel s).accOvf = s.accOvf

/-- A direct threshold leaves the accumulator. -/
theorem quantBounds_of_direct {s : State} (h : AccOk s) (hp : s.phase = .pix) (hd : ditherOf s.jobCtrl = false) :
    QuantBounds s := by
  have hq : quantPixel s = { s with pixBit := directBlack (s.srcByte s.pixelAddr) } := by
    rw [quantPixel, hd]
    rfl
  refine ⟨?_, ?_, fun i hi => ?_, ?_⟩ <;> rw [hq]
  · exact h.carry
  · exact h.nxt
  · exact within_mono (h.partials (.inr hp) i hi) (nxtBound_le_succ _ _)

theorem within_eastCarry {e : Int} (he : within 128 e) (w x : Nat) : within 56 (eastCarry w x e) := by
  obtain ⟨h7, -⟩ := within_share he
  unfold eastCarry
  split_ifs
  · exact h7
  · exact within_zero (by decide)

theorem quantBounds_of_dither {s : State} (h : AccOk s) (hi : StateInv s) (hp : s.phase = .pix)
    (hd : ditherOf s.jobCtrl = true) : QuantBounds s := by
  obtain ⟨hx, -⟩ := hi.position_of_pix hp
  obtain ⟨-, -, hmax, -⟩ := hi.jobOk_of_pix hp
  obtain ⟨-, hlen⟩ := hi.buffers
  have hv := h.pixelV_bounds
  have he : within 128 (quantError s.pixelV) := within_quantError hv.1 hv.2
  have hcarry := within_eastCarry he s.jobW.toNat s.x.toNat
  have hw : s.jobW.toNat ≤ s.nxtErr.length := hlen ▸ hmax
  have hpart : ∀ i, i < s.jobW.toNat → within (nxtBound (s.x.toNat + 1) i)
      ((spread s.jobW.toNat s.jobH.toNat s.x.toNat s.y.toNat (quantError s.pixelV) s.nxtErr).getD i 0) :=
    fun i hi => within_spread he hx hw (h.partials (.inr hp) i hi)
  have hnxt : ∀ u ∈ spread s.jobW.toNat s.jobH.toNat s.x.toNat s.y.toNat (quantError s.pixelV) s.nxtErr,
      within 72 u := by
    refine forall_mem_of_getD fun i _ => ?_
    by_cases hi : i < s.jobW.toNat
    · exact within_mono (hpart i hi) (nxtBound_le _ _)
    · rw [getD_spread_of_ge _ hx hw (by omega)]
      exact getD_of_forall_mem h.nxt (within_zero (by decide)) i
  have hq : quantPixel s = quantFsState s := by rw [quantPixel, hd]; rfl
  refine ⟨?_, ?_, ?_, ?_⟩ <;> rw [hq]
  · exact hcarry
  · exact hnxt
  · exact hpart
  · simp [quantFsState, accFits_of_within hv he hcarry hnxt]

theorem quantBounds {s : State} (h : AccOk s) (hi : StateInv s) (hp : s.phase = .pix) : QuantBounds s := by
  cases hd : ditherOf s.jobCtrl with
  | false => exact quantBounds_of_direct h hp hd
  | true => exact quantBounds_of_dither h hi hp hd

/-! ### Every step keeps the bounds -/

theorem AccOk.pixelDone {s : State} (h : AccOk s) (hi : StateInv s) (hp : s.phase = .pix) : AccOk (pixelDone s) := by
  obtain ⟨hcarry, hnxt, hpart, -⟩ := quantBounds h hi hp
  have hz : within 72 0 := within_zero (by decide)
  by_cases hlt : s.x.toNat + 1 < s.jobW.toNat
  · obtain ⟨hx, -⟩ := pixelDone_position_of_lt hlt
    refine ⟨?_, ?_, ?_, fun _ i hi' => ?_⟩
    · rwa [pixelDone_eCarry, if_pos hlt]
    · rw [pixelDone_curErr, if_pos hlt]
      exact h.cur
    · rwa [pixelDone_nxtErr, if_pos hlt]
    · rw [pixelDone_jobW] at hi'
      rw [hx, toNat_add_one (by omega : s.x.toNat < s.jobW.toNat), pixelDone_nxtErr, if_pos hlt]
      exact hpart i hi'
  · refine ⟨?_, ?_, ?_, fun _ i hi' => ?_⟩
    · rw [pixelDone_eCarry, if_neg hlt]
      exact within_zero (by decide)
    · rw [pixelDone_curErr, if_neg hlt]
      exact fun v hv => (mem_copyFirst hv).elim (hnxt v) (h.cur v)
    · rw [pixelDone_nxtErr, if_neg hlt]
      exact fun v hv => (mem_zeroFirst hv).elim (fun e => e ▸ hz) (hnxt v)
    · rw [pixelDone_jobW] at hi'
      rw [pixelDone_nxtErr, if_neg hlt, getD_zeroFirst, if_pos hi']
      exact within_zero (nxtBound_nonneg _ _)

theorem AccOk.of_engineTurn {s t : State} (h : AccOk s) (hi : StateInv s) (he : engineTurn s = .next t) :
    AccOk t ∧ t.accOvf = s.accOvf := by
  obtain ⟨-, rfl⟩ | ⟨hp, -, rfl⟩ | ⟨hp, -, -, rfl⟩ | ⟨-, rfl⟩ := engineTurn_effect he
  · exact ⟨h, rfl⟩
  · exact ⟨⟨h.carry, h.cur, h.nxt, fun _ => h.partials (.inl hp)⟩, rfl⟩
  · exact ⟨h.pixelDone hi hp, (pixelDone_accOvf s).trans (quantBounds h hi hp).accOvf⟩
  · exact ⟨⟨h.carry, h.cur, h.nxt, fun hrun => by simp at hrun⟩, rfl⟩

/-- START zeroes E_CARRY and the buffers below JOB_W. -/
theorem AccOk.beginJob {s : State} (h : AccOk s) : AccOk (beginJob s) := by
  have hz : within 72 0 := within_zero (by decide)
  refine ⟨within_zero (by decide), fun v hv => (mem_zeroFirst hv).elim (fun e => e ▸ hz) (h.cur v),
    fun v hv => (mem_zeroFirst hv).elim (fun e => e ▸ hz) (h.nxt v), fun _ i hi => ?_⟩
  have hzero : (Machine.beginJob s).nxtErr.getD i 0 = 0 := by
    rw [Machine.beginJob, getD_zeroFirst]
    exact if_pos hi
  rw [hzero]
  exact within_zero (nxtBound_nonneg _ _)

theorem AccOk.of_hostEffect {s t : State} (h : AccOk s) (he : HostEffect s t) :
    AccOk t ∧ t.accOvf = s.accOvf := by
  cases he with
  | nothing | draw | writeCtrl | writeDim | writeSrc | writeOut | ignored | cleared | reserved | rejected =>
    exact ⟨⟨h.carry, h.cur, h.nxt, h.partials⟩, rfl⟩
  | accepted hp =>
    have hclear : AccOk (startClear s) := ⟨h.carry, h.cur, h.nxt, h.partials⟩
    exact ⟨hclear.beginJob, rfl⟩
  | aborted => exact ⟨⟨h.carry, h.cur, h.nxt, fun hrun => by simp at hrun⟩, rfl⟩

theorem accOk_resetWith (p : Params) : AccOk (State.resetWith p) := by
  have hz : within 72 0 := within_zero (by decide)
  exact ⟨within_zero (by decide), fun v hv => List.eq_of_mem_replicate hv ▸ hz,
    fun v hv => List.eq_of_mem_replicate hv ▸ hz, fun hrun => by rcases hrun with h | h <;> cases h⟩

/-- Settles O36: every register of the accumulator is 0 at reset. -/
theorem accumulatorBoundsAtReset : Obligations.AccumulatorBoundsAtReset := accOk_resetWith

theorem accOk_resetEvent (s : State) : AccOk (resetEvent s) := by
  obtain ⟨hcarry, hcur, hnxt, -⟩ := accOk_resetWith s.cfg
  exact ⟨hcarry, hcur, hnxt, fun hrun => by simp at hrun⟩

/-- Settles O34: START zeroes the accumulator, and a STEP_PIX moves each partial sum to the bound of the next column. -/
theorem accumulatorBoundsKept : Obligations.AccumulatorBoundsKept := by
  intro s t hi h hs
  refine (step_keeps (P := fun u => StateInv u ∧ AccOk u ∧ u.accOvf = s.accOvf) ?_ ?_ ?_ ?_ ⟨hi, h, rfl⟩ hs).2
  · rintro u l ts r ⟨hi, h, ho⟩
    exact ⟨hi.withWorld l ts r, ⟨h.carry, h.cur, h.nxt, h.partials⟩, ho⟩
  · rintro u v ⟨hi, h, ho⟩ he
    obtain ⟨h', ho'⟩ := h.of_engineTurn hi he
    exact ⟨hi.of_engineTurn he, h', ho'.trans ho⟩
  · rintro u v ⟨hi, h, ho⟩ he
    obtain ⟨h', ho'⟩ := h.of_hostEffect he
    exact ⟨hi.of_hostEffect he, h', ho'.trans ho⟩
  · rintro u ⟨hi, -, ho⟩
    exact ⟨hi.resetEvent, accOk_resetEvent u, ho⟩

end Sys2Proof.Machine

/-! PROOF. The operations of a job on one pixel (40_dither.md R136 to R139, 41_pack.md R164, R165, R171), the end of a
row (42_commands.md R212) and ABORT (R204): what each changes, and that it changes nothing else. -/

namespace Sys2Proof.Machine

/-! ### Phases -/

/-- Settles O32: in a phase that is not theirs the five rows answer the unchanged state (log 9). -/
theorem jobOperationsActOnlyInTheirPhase : Obligations.JobOperationsActOnlyInTheirPhase := by
  intro s invert
  constructor
  · intro hp
    cases hph : s.phase with
    | pix => exact absurd hph hp
    | idle | hdr | fin => simp only [exec, execQuantFs, execQuantDirect, hph, and_self]
  · rintro (hp | hp) <;> simp only [exec, execOutRaster, execOutColumn, execOutPacked, hp, and_self]

/-! ### The quantisers -/

theorem exec_quantDirect_of_pix {s : State} (hp : s.phase = .pix) (hsrc : s.pixelAddr < s.cfg.srcSize) :
    exec .quantDirect s = .next { s with pixBit := directBlack (s.srcByte s.pixelAddr) } := by
  simp only [exec, execQuantDirect, hp, quantDirectPixel, hsrc, if_true]

theorem exec_quantFs_of_pix {s : State} (hp : s.phase = .pix) (hsrc : s.pixelAddr < s.cfg.srcSize)
    (hx : s.x.toNat < s.jobW.toNat) (hcur : s.jobW.toNat ≤ s.curErr.length)
    (hnxt : s.jobW.toNat ≤ s.nxtErr.length) : exec .quantFs s = .next (quantFsState s) := by
  have hrows : s.rowsFit = true := by
    simp only [State.rowsFit, hx, hcur, hnxt, decide_true, Bool.and_true]
  simp only [exec, execQuantFs, hp, quantFsPixel, hsrc, hrows, if_true]

/-- Black is at least 128, which is not below 128. -/
theorem directBlack_eq (g : Byte) : directBlack g = !decide (g.toNat < 128) := by
  rw [directBlack, Bool.eq_iff_iff]
  simp

/-- R124 as it is read for b: black exactly when V ≤ 128. -/
theorem not_isWhite (v : Int) : (!isWhite v) = decide (v ≤ 128) := by
  rw [isWhite, Bool.eq_iff_iff]
  simp

/-- The check of R136 fails on a value that leaves the 16-bit range. -/
theorem accFits_eq_false_iff (v e carry : Int) (nxt : List Int) :
    (!accFits v e carry nxt) = true ↔
      ∃ u, (u = v ∨ u = e ∨ u = e * 7 ∨ u = e * 5 ∨ u = e * 3 ∨ u = carry ∨ u ∈ nxt) ∧
        (u < -32768 ∨ 32767 < u) := by
  have hout : ∀ u, (u < -32768 ∨ 32767 < u) ↔ ¬ inAccRange u = true := by
    intro u
    rw [inAccRange_iff]
    omega
  simp only [hout, or_and_right, exists_or, exists_eq_left, accFits, Bool.not_eq_true', ← Bool.not_eq_true,
    Bool.and_eq_true, List.all_eq_true]
  push Not
  tauto

/-! ### A pixel without error -/

@[simp] theorem share_zero (k : Int) : share 0 k = 0 := by
  simp [share]

@[simp] theorem addAt_zero (i : Nat) (l : List Int) : addAt i 0 l = l := by
  induction l generalizing i with
  | nil => simp [addAt]
  | cons v l ih => cases i <;> simp [addAt, ih]

@[simp] theorem spread_zero (w h x y : Nat) (l : List Int) : spread w h x y 0 l = l := by
  simp [spread]

@[simp] theorem eastCarry_zero (w x : Nat) : eastCarry w x 0 = 0 := by
  simp [eastCarry]

/-- R139: a sample at either end of the range is its own level. -/
theorem quantError_bilevel {g : Nat} (hg : g = 0 ∨ g = 255) : quantError (g : Int) = 0 := by
  rcases hg with rfl | rfl <;> decide

theorem isWhite_bilevel {g : Nat} (hg : g = 0 ∨ g = 255) : (!isWhite (g : Int)) = decide (g = 0) := by
  rcases hg with rfl | rfl <;> decide

/-- Settles O33: V is the sample, its error is 0, and shares of 0 change nothing. -/
theorem bilevelSampleHasNoError : Obligations.BilevelSampleHasNoError := by
  intro s hp hx hcur hnxt hsrc hcarry hzero g hg
  have hv : s.pixelV = (g : Int) := by
    rw [State.pixelV, intensity, hzero, hcarry, Int.add_zero, Int.add_zero]
    rfl
  have he : quantError (g : Int) = 0 := quantError_bilevel hg
  refine ⟨quantFsState s, exec_quantFs_of_pix hp hsrc hx hcur hnxt, ?_, fun hfit => ?_⟩
  · rw [← isWhite_bilevel hg, ← hv]
    simp only [quantFsState, hv, he, spread_zero, eastCarry_zero, hcarry]
  · have hok : accFits (g : Int) 0 0 s.nxtErr = true := by
      have hin : inAccRange (g : Int) = true := by rw [inAccRange_iff]; omega
      have hall : s.nxtErr.all inAccRange = true := by
        rw [List.all_eq_true]
        exact fun u hu => (inAccRange_iff u).mpr (hfit u hu)
      rw [accFits, hin, hall]
      rfl
    simp only [quantFsState, hv, he, spread_zero, eastCarry_zero, hok, Bool.not_true, Bool.or_false]

/-! ### The record rows -/

theorem toNat_invertByte (invert : Bool) (b : Byte) :
    (invertByte invert b).toNat = if invert then 255 - b.toNat else b.toNat := by
  revert b invert
  decide

theorem toNat_groupByte (sr : Byte) (k : Nat) : (groupByte sr k).toNat = sr.toNat * 2 ^ (8 - k) % 256 := by
  simp [groupByte, Nat.shiftLeft_eq]

theorem exec_packed_of_pix {s : State} (hp : s.phase = .pix) {invert : Bool} {i : Instr}
    (hi : i = .outRaster invert ∨ i = .outPacked invert) : exec i s = packPixel invert s := by
  rcases hi with rfl | rfl
  · simp only [exec, execOutRaster, hp]
  · simp only [exec, execOutPacked, hp]

/-- Settles O41: within a group PACK_SR takes the bit; at its end the byte at WPTR is the group, moved to the left. -/
theorem packBitAndEmitByte : Obligations.PackBitAndEmitByte := by
  intro s invert i hi hp sr k byte
  have hsr : (shiftIn s.packSr s.pixBit).toNat = sr := toNat_shiftIn _ _
  rw [exec_packed_of_pix hp hi]
  refine ⟨fun h7 hw => ?_, fun hend hlt => ?_⟩
  · have hg : groupEnds s.jobW.toNat s.x.toNat = false := by simp [groupEnds, h7, hw]
    rw [packPixel_of_fits invert (by simp [hg]), hg, ← hsr, BitVec.ofNat_toNat, BitVec.setWidth_eq]
    rfl
  · have hg : groupEnds s.jobW.toNat s.x.toNat = true := by simpa [groupEnds] using hend
    rw [packPixel_of_fits invert (fun _ => hlt), hg, if_pos rfl]
    refine ⟨_, rfl, rfl, fun a => ?_⟩
    have hbyte : (emittedByte invert (packBit s)).toNat = if invert then 255 - byte else byte := by
      rw [emittedByte, toNat_invertByte, toNat_groupByte, packBit_packSr, hsr]
      rfl
    refine (congrArg BitVec.toNat (outByte_put s s.wptr.toNat a (emittedByte invert (packBit s)))).trans ?_
    rw [apply_ite BitVec.toNat, hbyte]

/-- R171: FF for a black pixel, swapped under inversion. -/
theorem invertByte_pixelByte (invert b : Bool) :
    invertByte invert (pixelByte b) = if b = invert then 0x00#8 else 0xFF#8 := by
  revert invert b
  decide

/-- Settles O42: the row writes the one byte at the pixel's column address. -/
theorem columnPixelByte : Obligations.ColumnPixelByte := by
  intro s invert hp hlt
  have hexec : exec (.outColumn invert) s = columnPixel invert s := by
    simp only [exec, execOutColumn, hp]
  refine ⟨_, hexec.trans (putOut_of_lt _ hlt), rfl, fun a => ?_⟩
  rw [outByte_put, invertByte_pixelByte]
  rfl

/-! ### The end of a row -/

/-- Settles O7: the last column is followed by `rowEnd`, which copies and zeroes the entries below JOB_W. -/
theorem rowEndMovesBuffers : Obligations.RowEndMovesBuffers := by
  intro s hlast hcur hnxt t
  have ht : t = rowEnd { s with pixBit := false } := advancePixel_of_ge (by omega)
  rw [ht]
  refine ⟨rfl, length_copyFirst .., length_zeroFirst .., fun i => ⟨?_, ?_⟩⟩
  · exact getD_copyFirst _ _ _ i hnxt hcur
  · exact getD_zeroFirst _ _ i

/-! ### ABORT -/

theorem exec_abort_of_idle {s : State} (hp : s.phase = .idle) : exec .abort s = .next s := by
  simp only [exec, execAbort, hp]

theorem outByte_abortJob (s : State) (a : Nat) :
    (abortJob s).outByte a = if a < abortLen s then Config.freeAbort s.draws a else s.outByte a := by
  have hout : (abortJob s).out = s.out.fillBelow (abortLen s) (Config.freeAbort s.draws) := rfl
  simp only [State.outByte, hout, Memory.get?_fillBelow, abortJob_memEpoch]
  split <;> rfl

/-- Settles O25: a running job is stopped by `abortJob`, whose draws end at L where the record fits OUT. -/
theorem abortStopsJob : Obligations.AbortStopsJob := by
  refine fun s => ⟨exec_abort_of_idle, fun hp hfit => ⟨_, exec_abort_of_running hp, rfl, fun a => ?_⟩⟩
  have hlen : abortLen s = recordLen (fmtOf s.jobCtrl) s.jobW.toNat s.jobH.toNat := Nat.min_eq_left hfit
  rw [outByte_abortJob, hlen]

end Sys2Proof.Machine

/-! PROOF. The two quantisers' pixel, in full; in `Sys2Proof`, since `Sys2Proof.Machine` holds the model's functions
of these names. -/

namespace Sys2Proof

open Machine

/-- Settles O31: the direct threshold reads the sample and hands over the bit. -/
theorem quantDirectPixel : Obligations.QuantDirectPixel := by
  intro s hp hsrc
  rw [exec_quantDirect_of_pix hp hsrc, directBlack_eq]
  rfl

/-- Settles O30: `spread` gives each entry its shares, and ACC_OVF is joined with the check of R136. -/
theorem quantFsPixel : Obligations.QuantFsPixel := by
  intro s hp hx hcur hnxt hsrc x y w h v e d carry
  have hv : s.pixelV = v := rfl
  have he : quantError v = e := quantError_eq v
  refine ⟨quantFsState s, exec_quantFs_of_pix hp hsrc hx hcur hnxt, ?_, length_spread .., fun i => ?_, ?_⟩
  · have hbit : decide (v ≤ 128) = !isWhite s.pixelV := (not_isWhite v).symm
    have hcarry : carry = eastCarry w x (quantError s.pixelV) := by rw [hv, he]; rfl
    rw [hbit, hcarry]
    rfl
  · have hnext : (quantFsState s).nxtErr = spread w h x y e s.nxtErr := by rw [← he]; rfl
    have hpred : i + 1 = s.x.toNat ↔ 1 ≤ s.x.toNat ∧ i = s.x.toNat - 1 := by omega
    rw [hnext, getD_spread e hx hnxt]
    simp only [hpred]
    rfl
  · have hovf : (quantFsState s).accOvf = (s.accOvf || !accFits v e carry (quantFsState s).nxtErr) := by
      rw [show carry = eastCarry w x e from rfl, ← he]; rfl
    rw [hovf, Bool.or_eq_true, accFits_eq_false_iff]

end Sys2Proof

/-! PROOF. Packed bytes bit by bit (41_pack.md R162, R163, R166, R173, R174): bit i of a group stands at bit 7 - i of
its byte, both in the byte that the engine shifts together and in the closed form of the rules. -/

namespace Sys2Proof.Machine

/-! ### The byte that the engine shifts together -/

/-- The bit shifted in last stands at bit 0. -/
theorem getLsbD_foldl_shiftIn (bits : List Bool) {i : Nat} (hi : i < 8) :
    (bits.foldl shiftIn 0).getLsbD i = bits.reverse.getD i false := by
  induction bits using List.reverseRecOn generalizing i with
  | nil => simp
  | append_singleton bits b ih =>
    rw [List.foldl_append, List.foldl_cons, List.foldl_nil, List.reverse_append, List.reverse_singleton,
      List.singleton_append]
    have hb : (if b then 1#8 else 0#8) = BitVec.setWidth 8 (BitVec.ofBool b) := by cases b <;> rfl
    cases i with
    | zero => simp [shiftIn, hb]
    | succ i =>
      have hprev := ih (show i < 8 by omega)
      have hbit : (BitVec.setWidth 8 (BitVec.ofBool b)).getLsbD (i + 1) = false := by simp
      have hpos : ¬ i + 1 < 1 := by omega
      rw [shiftIn, hb, BitVec.getLsbD_or, hbit, Bool.or_false, List.getD_cons_succ, ← hprev]
      simp only [BitVec.getLsbD_shiftLeft, hi, hpos, decide_true, decide_false, Bool.not_false, Bool.true_and,
        Nat.add_sub_cancel]

/-- R162, R163: bit i of the group stands at bit 7 - i, and the bits behind the group are 0. -/
theorem getLsbD_groupByte_foldl {bits : List Bool} (hk : bits.length ≤ 8) {i : Nat} (hi : i < 8) :
    (groupByte (bits.foldl shiftIn 0) bits.length).getLsbD (7 - i) = bits.getD i false := by
  rw [groupByte, BitVec.getLsbD_shiftLeft]
  by_cases hlt : i < bits.length
  · rw [show 7 - i - (8 - bits.length) = bits.length - 1 - i by omega, getLsbD_foldl_shiftIn _ (by omega)]
    have hrev : bits.length - 1 - i < bits.reverse.length := by rw [List.length_reverse]; omega
    rw [List.getD_eq_getElem _ _ hrev, List.getElem_reverse, List.getD_eq_getElem _ _ hlt]
    have hback : bits.length - 1 - (bits.length - 1 - i) = i := by omega
    have hin : 7 - i < 8 ∧ ¬ 7 - i < 8 - bits.length := by omega
    simp only [hback, hin.1, hin.2, decide_true, decide_false, Bool.not_false, Bool.true_and]
  · have hpad : 7 - i < 8 - bits.length := by omega
    rw [List.getD_eq_default _ _ (by omega), decide_eq_true hpad, Bool.not_true, Bool.and_false, Bool.false_and]

/-- Settles O43: the bits of the group byte, one by one. -/
theorem groupByteIsLeftAligned : Obligations.GroupByteIsLeftAligned :=
  fun _ _ hk _ hi => getLsbD_groupByte_foldl hk hi

/-! ### The packed byte of the rules -/

/-- A sum of the powers of two at the set bits is the byte with those bits. -/
theorem sum_bits_eq (v : Byte) :
    BitVec.ofNat 8 ((List.range 8).map (fun i => if v.getLsbD (7 - i) = true then 2 ^ (7 - i) else 0)).sum = v := by
  revert v
  decide

/-- The byte whose bit 7 - i is `p i`. -/
def byteOfBits (p : Nat → Bool) : Byte := BitVec.ofFnLE fun k : Fin 8 => p (7 - k)

theorem getLsbD_byteOfBits (p : Nat → Bool) {i : Nat} (hi : i < 8) : (byteOfBits p).getLsbD (7 - i) = p i := by
  have hlt : 7 - i < 8 := by omega
  rw [byteOfBits, BitVec.getLsbD_eq_getElem hlt, BitVec.getElem_ofFnLE, show 7 - (7 - i) = i by omega]

/-- R166: the closed form is the byte of the row's pixels from 8j on. -/
theorem packedByte_eq_byteOfBits (w : Nat) (b : Nat → Nat → Bool) (y j : Nat) :
    packedByte w b y j = byteOfBits fun i => decide (8 * j + i < w) && b (8 * j + i) y := by
  rw [← sum_bits_eq (byteOfBits _), packedByte]
  congr 2
  refine List.map_congr_left fun i hi => ?_
  simp only [getLsbD_byteOfBits _ (List.mem_range.mp hi), Bool.and_eq_true, decide_eq_true_eq]

/-- R166: bit 7 - i of packed byte j is pixel 8j + i of the row, where the row has one. -/
theorem getLsbD_packedByte (w : Nat) (b : Nat → Nat → Bool) (y j : Nat) {i : Nat} (hi : i < 8) :
    (packedByte w b y j).getLsbD (7 - i) = (decide (8 * j + i < w) && b (8 * j + i) y) := by
  rw [packedByte_eq_byteOfBits, getLsbD_byteOfBits _ hi]

/-- Settles O44: pixel x is bit 7 - x mod 8 of byte x / 8. -/
theorem unpackInvertsPack : Obligations.UnpackInvertsPack := by
  intro w b x y hx
  have hsplit : 8 * (x / 8) + x % 8 = x := Nat.div_add_mod x 8
  rw [getLsbD_packedByte w b y (x / 8) (Nat.mod_lt x (by decide)), hsplit, decide_eq_true hx, Bool.true_and]

theorem getLsbD_invertByte_true (v : Byte) {i : Nat} (hi : i < 8) :
    (invertByte true v).getLsbD i = !v.getLsbD i := by
  have hones : (0xFF#8) = BitVec.allOnes 8 := rfl
  rw [invertByte, if_pos rfl, hones, BitVec.xor_allOnes, BitVec.getLsbD_not, decide_eq_true hi, Bool.true_and]

/-- Settles O45: inversion flips every bit of the byte, and inverting the image flips the pixel bits alone. -/
theorem invertComposesOnPixelBits : Obligations.InvertComposesOnPixelBits := by
  intro w b y j i hi flipped packed
  have hflipped : flipped.getLsbD (7 - i) = !(decide (8 * j + i < w) && b (8 * j + i) y) := by
    rw [← getLsbD_packedByte w b y j hi]
    exact getLsbD_invertByte_true _ (by omega)
  have hpacked : packed.getLsbD (7 - i) = (decide (8 * j + i < w) && !b (8 * j + i) y) :=
    getLsbD_packedByte w _ y j hi
  rw [hflipped, hpacked]
  refine ⟨fun hlt => ?_, fun hge => ?_⟩
  · simp [hlt]
  · simp [Nat.not_lt.mpr hge]

end Sys2Proof.Machine

/-! PROOF. The V of the rules (40_dither.md R123 to R130): its equation for one pixel, the full-frame algorithm of R133,
which reads the same V, and the images of R139, on which every error is 0. -/

namespace Sys2Proof.Machine

/-! ### The equation of one pixel -/

theorem refRow_eq (g down : Nat → Int) (x : Nat) :
    refRow g down x = g x + down x + (if x = 0 then 0 else share (quantError (refRow g down (x - 1))) 7) := by
  cases x <;> simp [refRow]

/-- R123 with R127 to R130: V of a pixel is its sample, what the row above passed down, and the share from the west. -/
theorem refV_eq (w : Nat) (img : Nat → Byte) (y x : Nat) :
    refV w img y x = ((img (sampleAddr w x y)).toNat : Int) +
      (if y = 0 then 0 else refDown w (refV w img (y - 1)) x) +
      (if x = 0 then 0 else share (quantError (refV w img y (x - 1))) 7) := by
  cases y with
  | zero => exact refRow_eq ..
  | succ y => exact refRow_eq ..

/-! ### Images without error -/

theorem refDown_eq_zero {w : Nat} {v : Nat → Int} (h : ∀ x, x < w → quantError (v x) = 0) {x : Nat} (hx : x < w) :
    refDown w v x = 0 := by
  unfold refDown
  rw [h x hx]
  split_ifs with h1 h2 h2
  · simp [h (x + 1) h1, h (x - 1) (by omega)]
  · simp [h (x + 1) h1]
  · simp [h (x - 1) (by omega)]
  · simp

/-- A row to which nothing is passed down and whose samples have no error keeps its samples. -/
theorem refRow_eq_sample {n : Nat} {g down : Nat → Int} (hdown : ∀ x, x < n → down x = 0)
    (hg : ∀ x, x < n → quantError (g x) = 0) {x : Nat} (hx : x < n) : refRow g down x = g x := by
  induction x with
  | zero => simp [refRow, hdown 0 hx]
  | succ x ih => simp [refRow, hdown (x + 1) hx, ih (by omega), hg x (by omega)]

/-- R139: on a 0/255 image every V is the sample. -/
theorem refV_bilevel {w h : Nat} {img : Nat → Byte}
    (himg : ∀ x y, x < w → y < h → (img (y * w + x)).toNat = 0 ∨ (img (y * w + x)).toNat = 255) {x y : Nat}
    (hx : x < w) (hy : y < h) : refV w img y x = ((img (y * w + x)).toNat : Int) := by
  induction y generalizing x with
  | zero =>
    exact refRow_eq_sample (fun _ _ => rfl) (fun x hx => quantError_bilevel (himg x 0 hx hy)) hx
  | succ y ih =>
    have hrow : ∀ x, x < w → quantError (refV w img y x) = 0 := by
      intro x hx
      rw [ih hx (by omega)]
      exact quantError_bilevel (himg x y hx (by omega))
    exact refRow_eq_sample (fun x hx => refDown_eq_zero hrow hx)
      (fun x hx => quantError_bilevel (himg x (y + 1) hx hy)) hx

/-- Settles O60: V is the sample, so under QUANT_FS black is 0 and under QUANT_DIRECT, which asks for 128, black is
255. -/
theorem bilevelImageHasNoError : Obligations.BilevelImageHasNoError := by
  intro c w h img himg x y hx hy g
  have hg : g = 0 ∨ g = 255 := himg x y hx hy
  refine ⟨fun hd => ?_, fun hd => ?_⟩
  · have hv : refV w img y x = (g : Int) := refV_bilevel himg hx hy
    refine ⟨hv, hv ▸ quantError_bilevel hg, ?_⟩
    rw [refBit, if_pos hd, hv, ← isWhite_bilevel hg, not_isWhite]
  · have hthreshold : 128 ≤ g ↔ g = 255 := by omega
    rw [refBit, hd]
    exact decide_eq_decide.mpr hthreshold

/-! ### The full-frame algorithm -/

theorem Frame.add_apply (a : Frame) (y x : Nat) (d : Int) (y' x' : Nat) :
    a.add y x d y' x' = a y' x' + if y' = y ∧ x' = x then d else 0 := by
  unfold Frame.add
  split_ifs <;> simp

/-- A share that is added only in range. -/
theorem addIf_apply (c : Prop) [Decidable c] (a : Frame) (y x : Nat) (d : Int) (y' x' : Nat) :
    (if c then a.add y x d else a) y' x' = a y' x' + if c ∧ y' = y ∧ x' = x then d else 0 := by
  by_cases h : c <;> simp [h, Frame.add_apply]

/-- What one pixel of the full-frame algorithm adds to each cell. -/
theorem framePixel_apply (w h : Nat) (a : Frame) (y x y' x' : Nat) :
    framePixel w h a y x y' x' = a y' x' +
      (if x + 1 < w ∧ y' = y ∧ x' = x + 1 then share (quantError (a y x)) 7 else 0) +
      (if (y + 1 < h ∧ 1 ≤ x) ∧ y' = y + 1 ∧ x' = x - 1 then share (quantError (a y x)) 3 else 0) +
      (if y + 1 < h ∧ y' = y + 1 ∧ x' = x then share (quantError (a y x)) 5 else 0) +
      (if (y + 1 < h ∧ x + 1 < w) ∧ y' = y + 1 ∧ x' = x + 1 then share (quantError (a y x)) 1 else 0) := by
  by_cases hy : y + 1 < h
  · simp only [framePixel, hy, if_true, true_and, addIf_apply, Frame.add_apply]
  · simp only [framePixel, hy, if_false, false_and, addIf_apply, add_zero]

/-- The share of weight k that pixel (x, y) has given after n pixels. -/
def given (w : Nat) (img : Nat → Byte) (n : Nat) (k : Int) (y x : Nat) : Int :=
  if sampleAddr w x y < n then share (quantError (refV w img y x)) k else 0

/-- A cell of the frame after n pixels: its sample and the shares that its neighbours have given. -/
def frameCell (w : Nat) (img : Nat → Byte) (n y x : Nat) : Int :=
  ((img (sampleAddr w x y)).toNat : Int) +
    (if x ≠ 0 then given w img n 7 y (x - 1) else 0) +
    (if y ≠ 0 ∧ x + 1 < w then given w img n 3 (y - 1) (x + 1) else 0) +
    (if y ≠ 0 then given w img n 5 (y - 1) x else 0) +
    (if y ≠ 0 ∧ x ≠ 0 then given w img n 1 (y - 1) (x - 1) else 0)

theorem sampleAddr_eq_iff {w x y n : Nat} (hx : x < w) : sampleAddr w x y = n ↔ y = n / w ∧ x = n % w := by
  have hw : 0 < w := by omega
  constructor
  · rintro rfl
    rw [sampleAddr, Nat.mul_comm, Nat.mul_add_div hw, Nat.mul_add_mod, Nat.div_eq_of_lt hx, Nat.mod_eq_of_lt hx]
    exact ⟨rfl, rfl⟩
  · rintro ⟨rfl, rfl⟩
    rw [sampleAddr, Nat.mul_comm]
    exact Nat.div_add_mod n w

/-- Pixel n gives its shares, and no other pixel does in that turn. -/
theorem given_succ {c : Prop} [Decidable c] {w y x : Nat} (img : Nat → Byte) (n : Nat) (k : Int) (hx : c → x < w) :
    (if c then given w img (n + 1) k y x else 0) = (if c then given w img n k y x else 0) +
      if c ∧ y = n / w ∧ x = n % w then share (quantError (refV w img (n / w) (n % w))) k else 0 := by
  by_cases hc : c
  · have haddr := sampleAddr_eq_iff (y := y) (n := n) (hx hc)
    simp only [hc, if_true, true_and, given, Nat.lt_succ_iff_lt_or_eq, ← haddr]
    by_cases he : sampleAddr w x y = n
    · obtain ⟨rfl, rfl⟩ := haddr.mp he
      simp [he]
    · simp [he]
  · simp [hc]

/-- When the algorithm comes to a pixel, all shares for it have been given. -/
theorem frameCell_sampleAddr {w x y : Nat} (img : Nat → Byte) (hx : x < w) :
    frameCell w img (sampleAddr w x y) y x = refV w img y x := by
  have hwest : x ≠ 0 → sampleAddr w (x - 1) y < sampleAddr w x y := by unfold sampleAddr; omega
  have habove : ∀ x', x' < w → y ≠ 0 → sampleAddr w x' (y - 1) < sampleAddr w x y := by
    intro x' hx' hy
    obtain ⟨y, rfl⟩ := Nat.exists_eq_succ_of_ne_zero hy
    simp only [sampleAddr, Nat.succ_sub_one, Nat.succ_mul]
    omega
  have hgiven : ∀ (c : Prop) [Decidable c] (k : Int) (y' x' : Nat), (c → sampleAddr w x' y' < sampleAddr w x y) →
      (if c then given w img (sampleAddr w x y) k y' x' else 0) =
        if c then share (quantError (refV w img y' x')) k else 0 :=
    fun c _ k y' x' h => ite_congr rfl (fun hc => if_pos (h hc)) fun _ => rfl
  rw [frameCell, hgiven _ _ _ _ hwest, hgiven _ _ _ _ fun h => habove _ h.2 h.1,
    hgiven _ _ _ _ fun h => habove _ hx h, hgiven _ _ _ _ fun h => habove _ (by omega) h.1, refV_eq w img y x]
  by_cases hy : y = 0
  · simp [hy]
  · simp only [hy, not_false_iff, true_and, if_true, if_false, refDown, Nat.one_le_iff_ne_zero, ne_eq, ite_not]
    ring

/-- The frame, cell by cell. -/
theorem frameAfter_eq_frameCell {w h : Nat} (img : Nat → Byte) {n : Nat} (hn : n ≤ w * h) {x y : Nat} (hx : x < w)
    (hy : y < h) : frameAfter w h img n y x = frameCell w img n y x := by
  induction n generalizing x y with
  | zero => simp [frameAfter, frameCell, given]
  | succ n ih =>
    have hw : 0 < w := by omega
    have hX : n % w < w := Nat.mod_lt n hw
    have hY : n / w < h := Nat.div_lt_of_lt_mul hn
    have hv : frameAfter w h img n (n / w) (n % w) = refV w img (n / w) (n % w) := by
      have haddr : sampleAddr w (n % w) (n / w) = n := (sampleAddr_eq_iff hX).mpr ⟨rfl, rfl⟩
      have hcell := frameCell_sampleAddr (y := n / w) img hX
      rw [haddr] at hcell
      rw [ih (by omega) hX hY, hcell]
    rw [frameAfter, framePixel_apply, hv, ih (by omega) hx hy, frameCell, frameCell,
      given_succ img n 7 (fun _ => by omega), given_succ img n 3 (fun h => h.2), given_succ img n 5 (fun _ => hx),
      given_succ img n 1 (fun _ => by omega)]
    generalize n % w = X at hX
    generalize n / w = Y at hY
    have h7 : X + 1 < w ∧ y = Y ∧ x = X + 1 ↔ x ≠ 0 ∧ y = Y ∧ x - 1 = X := by omega
    have h3 : (Y + 1 < h ∧ 1 ≤ X) ∧ y = Y + 1 ∧ x = X - 1 ↔
      (y ≠ 0 ∧ x + 1 < w) ∧ y - 1 = Y ∧ x + 1 = X := by omega
    have h5 : Y + 1 < h ∧ y = Y + 1 ∧ x = X ↔ y ≠ 0 ∧ y - 1 = Y ∧ x = X := by omega
    have h1 : (Y + 1 < h ∧ X + 1 < w) ∧ y = Y + 1 ∧ x = X + 1 ↔
      (y ≠ 0 ∧ x ≠ 0) ∧ y - 1 = Y ∧ x - 1 = X := by omega
    simp only [h7, h3, h5, h1]
    ring

/-- Settles O37: when the algorithm comes to a pixel, its cell holds the sample and all the shares of R133. -/
theorem rowwiseEqualsFullFrame : Obligations.RowwiseEqualsFullFrame := by
  intro w h img x y hx hy
  have hn : y * w + x ≤ w * h := (sampleAddr_lt hx hy).le
  rw [frameAfter_eq_frameCell img hn hx hy]
  exact frameCell_sampleAddr img hx

end Sys2Proof.Machine

/-! PROOF. A running job follows the rules (42_commands.md R215): the record's bytes by address, then the accumulator,
the packer and the OUT bytes after one STEP_PIX, then the header and START; so every step keeps `Track`. -/

namespace Sys2Proof.Machine

/-! ### The record of the rules, byte by byte -/

theorem recordByte_packed {c : BitVec 4} (hf : fmtOf c ≠ 1#2) {w : Nat} (h : Nat) (b : Nat → Nat → Bool) (y : Nat)
    {j : Nat} (hj : j < bytesPerRow w) :
    recordByte c w h b (headerLen (fmtOf c) + y * bytesPerRow w + j) =
      invertByte (invertOf c) (packedByte w b y j) := by
  have hpos : 0 < bytesPerRow w := by omega
  have hdiv : (y * bytesPerRow w + j) / bytesPerRow w = y := by
    rw [Nat.mul_comm, Nat.mul_add_div hpos, Nat.div_eq_of_lt hj, Nat.add_zero]
  have hmod : (y * bytesPerRow w + j) % bytesPerRow w = j := by
    rw [Nat.mul_comm, Nat.mul_add_mod, Nat.mod_eq_of_lt hj]
  by_cases h0 : fmtOf c = 0#2
  · have hsub : 8 + y * bytesPerRow w + j - 8 = y * bytesPerRow w + j := by omega
    have hge : ¬ 8 + y * bytesPerRow w + j < 8 := by omega
    simp only [recordByte, h0, headerLen_raster, if_true, hge, if_false, hsub, hdiv, hmod]
  · have hlen : headerLen (fmtOf c) = 0 := by simp [headerLen, h0, hf]
    simp only [recordByte, h0, hf, hlen, Nat.zero_add, if_false, hdiv, hmod]

theorem recordByte_column {c : BitVec 4} (hf : fmtOf c = 1#2) (w : Nat) {h : Nat} (b : Nat → Nat → Bool) (x : Nat)
    {y : Nat} (hy : y < h) :
    recordByte c w h b (columnAddr h x y) = invertByte (invertOf c) (pixelByte (b x y)) := by
  have hpos : 0 < h := by omega
  have hsub : columnAddr h x y - 5 = h * x + y := by
    rw [columnAddr, Nat.mul_comm]
    omega
  have hge : ¬ columnAddr h x y < 5 := by
    rw [columnAddr]
    omega
  have hdiv : (h * x + y) / h = x := by rw [Nat.mul_add_div hpos, Nat.div_eq_of_lt hy, Nat.add_zero]
  have hmod : (h * x + y) % h = y := by rw [Nat.mul_add_mod, Nat.mod_eq_of_lt hy]
  simp only [recordByte, hf, if_true, if_false, hge, hsub, hdiv, hmod, pixelByte]
  rfl

/-- The header that STEP_HDR writes is that of the record; it is never inverted (R168, R169). -/
theorem jobRecord_header (s : State) {a : Nat} (ha : a < headerLen (fmtOf s.jobCtrl)) :
    s.jobRecord a = s.header.getD a 0 := by
  rw [headerLen] at ha
  by_cases h0 : fmtOf s.jobCtrl = 0#2
  · rw [if_pos h0] at ha
    simp only [State.jobRecord, recordByte, State.header, if_pos h0, if_pos ha]
  · by_cases h1 : fmtOf s.jobCtrl = 1#2
    · rw [if_neg h0, if_pos h1] at ha
      simp only [State.jobRecord, recordByte, State.header, if_neg h0, if_pos h1, if_pos ha]
    · rw [if_neg h0, if_neg h1] at ha
      omega

/-! ### The bits of a group -/

/-- The bits of a row from the start of x's group up to x, shifted into an empty PACK_SR. -/
def groupOf (b : Nat → Bool) (x : Nat) : Byte :=
  (List.range (x % 8)).foldl (fun sr i => shiftIn sr (b (8 * (x / 8) + i))) 0

theorem groupBits_eq_groupOf (s : State) : s.groupBits = groupOf (fun x => s.jobBit x s.y.toNat) s.x.toNat := rfl

theorem groupOf_of_mod_eq_zero (b : Nat → Bool) {x : Nat} (h : x % 8 = 0) : groupOf b x = 0 := by
  rw [groupOf, h]
  rfl

/-- With x's bit the group is the list of its bits, shifted in from the first on. -/
theorem shiftIn_groupOf (b : Nat → Bool) (x : Nat) :
    shiftIn (groupOf b x) (b x) =
      ((List.range (x % 8 + 1)).map fun i => b (8 * (x / 8) + i)).foldl shiftIn 0 := by
  rw [List.foldl_map, List.range_succ, List.foldl_append, List.foldl_cons, List.foldl_nil, Nat.div_add_mod]
  rfl

theorem groupOf_succ (b : Nat → Bool) {x : Nat} (h : x % 8 ≠ 7) :
    groupOf b (x + 1) = shiftIn (groupOf b x) (b x) := by
  have hdiv : (x + 1) / 8 = x / 8 := by omega
  have hmod : (x + 1) % 8 = x % 8 + 1 := by omega
  rw [shiftIn_groupOf, List.foldl_map, groupOf, hdiv, hmod]

/-- Bytes are equal when they agree from bit 7 down. -/
theorem byte_ext {u v : Byte} (h : ∀ i, i < 8 → u.getLsbD (7 - i) = v.getLsbD (7 - i)) : u = v := by
  refine BitVec.eq_of_getLsbD_eq fun i hi => ?_
  have := h (7 - i) (by omega)
  rwa [show 7 - (7 - i) = i by omega] at this

/-- R165 and R166: where a group ends, the byte that is emitted is the packed byte of the rules. -/
theorem groupByte_eq_packedByte {w x : Nat} (b : Nat → Nat → Bool) (y : Nat) (hx : x < w)
    (hend : x % 8 = 7 ∨ x + 1 = w) :
    groupByte (shiftIn (groupOf (b · y) x) (b x y)) (x % 8 + 1) = packedByte w b y (x / 8) := by
  refine byte_ext fun i hi => ?_
  have hlen : ((List.range (x % 8 + 1)).map fun i => b (8 * (x / 8) + i) y).length = x % 8 + 1 := by simp
  have hgroup := getLsbD_groupByte_foldl (bits := (List.range (x % 8 + 1)).map fun i => b (8 * (x / 8) + i) y)
    (by rw [hlen]; omega) hi
  rw [hlen, ← shiftIn_groupOf (b · y)] at hgroup
  rw [hgroup, getLsbD_packedByte w b y (x / 8) hi]
  by_cases hik : i < x % 8 + 1
  · have hiw : 8 * (x / 8) + i < w := by omega
    rw [List.getD_eq_getElem _ _ (by rwa [hlen]), List.getElem_map, List.getElem_range, decide_eq_true hiw,
      Bool.true_and]
  · have hiw : ¬ 8 * (x / 8) + i < w := by omega
    rw [List.getD_eq_default _ _ (by omega), decide_eq_false hiw, Bool.false_and]

/-! ### The shares of a row -/

/-- What the first x pixels of a row with intensities `v` have passed down to column i (R128 to R130). -/
def nextRow (v : Nat → Int) (x i : Nat) : Int :=
  (if i + 1 < x then share (quantError (v (i + 1))) 3 else 0) +
  (if i < x then share (quantError (v i)) 5 else 0) +
  (if 1 ≤ i ∧ i ≤ x then share (quantError (v (i - 1))) 1 else 0)

theorem nextRow_zero (v : Nat → Int) (i : Nat) : nextRow v 0 i = 0 := by
  unfold nextRow
  split_ifs <;> omega

/-- The whole row has passed down what `refDown` says. -/
theorem nextRow_width (v : Nat → Int) {w i : Nat} (hi : i < w) : nextRow v w i = refDown w v i := by
  have h1 : 1 ≤ i ∧ i ≤ w ↔ 1 ≤ i := by omega
  simp only [nextRow, refDown, hi, if_true, h1]

theorem if_lt_succ (f : Nat → Int) (j x : Nat) :
    (if j < x + 1 then f j else 0) = (if j < x then f j else 0) + if j = x then f x else 0 := by
  obtain h | rfl | h := Nat.lt_trichotomy j x
  · simp [h, Nat.lt_succ_of_lt h, Nat.ne_of_lt h]
  · simp
  · simp [Nat.not_lt_of_gt h, Nat.not_lt.mpr h, Nat.ne_of_gt h]

/-- Pixel x passes its shares to the columns x - 1, x and x + 1. -/
theorem nextRow_succ (v : Nat → Int) (x i : Nat) :
    nextRow v (x + 1) i = nextRow v x i +
      (if i + 1 = x then share (quantError (v x)) 3 else 0) +
      (if i = x then share (quantError (v x)) 5 else 0) +
      (if i = x + 1 then share (quantError (v x)) 1 else 0) := by
  have h3 := if_lt_succ (fun j => share (quantError (v j)) 3) (i + 1) x
  have h5 := if_lt_succ (fun j => share (quantError (v j)) 5) i x
  have h1 : (if 1 ≤ i ∧ i ≤ x + 1 then share (quantError (v (i - 1))) 1 else 0) =
      (if 1 ≤ i ∧ i ≤ x then share (quantError (v (i - 1))) 1 else 0) +
        if i = x + 1 then share (quantError (v x)) 1 else 0 := by
    cases i with
    | zero => simp
    | succ i =>
      have := if_lt_succ (fun j => share (quantError (v j)) 1) i x
      simpa [Nat.lt_succ_iff, Nat.succ_le_iff] using this
  rw [nextRow, nextRow, h3, h5, h1]
  ring

/-! ### The pixel at hand -/

/-- The registers that V reads hold the shares of the rules, so V is that of the rules. -/
theorem DitherTrack.pixelV_eq {s : State} (h : DitherTrack s) (hx : s.x.toNat < s.jobW.toNat) :
    s.pixelV = s.jobV s.y.toNat s.x.toNat := by
  rw [State.pixelV, intensity, h.cur _ hx, h.carry]
  exact (refV_eq s.jobW.toNat s.srcByte s.y.toNat s.x.toNat).symm

theorem pixelBit_eq_jobBit {s : State} (h : ditherOf s.jobCtrl = true → DitherTrack s)
    (hx : s.x.toNat < s.jobW.toNat) : s.pixelBit = s.jobBit s.x.toNat s.y.toNat := by
  rw [State.pixelBit, State.jobBit, refBit]
  split_ifs with hd
  · rw [(h hd).pixelV_eq hx, not_isWhite]
    rfl
  · rfl

/-- The job of the rules after a STEP_PIX is the job before it. -/
theorem pixelDone_job (s : State) : (pixelDone s).jobV = s.jobV ∧ (pixelDone s).jobBit = s.jobBit ∧
    (pixelDone s).jobRecord = s.jobRecord ∧ (pixelDone s).jobLen = s.jobLen := by
  have hsrc : (pixelDone s).srcByte = s.srcByte :=
    funext fun a => srcByte_congr (pixelDone_src s) (pixelDone_memEpoch s) a
  have hbit : (pixelDone s).jobBit = s.jobBit := by
    funext x y
    rw [State.jobBit, pixelDone_jobCtrl, pixelDone_jobW, hsrc]
    rfl
  refine ⟨?_, hbit, ?_, ?_⟩
  · funext y x
    rw [State.jobV, pixelDone_jobW, hsrc]
    rfl
  · funext a
    rw [State.jobRecord, pixelDone_jobCtrl, pixelDone_jobW, pixelDone_jobH, hbit]
    rfl
  · rw [State.jobLen, pixelDone_jobCtrl, pixelDone_jobW, pixelDone_jobH]
    rfl

/-! ### The accumulator after a STEP_PIX -/

/-- What the quantiser leaves in the accumulator is what the rules give for the pixels up to X. -/
theorem DitherTrack.quantPixel {s : State} (h : DitherTrack s) (hi : StateInv s) (hp : s.phase = .pix)
    (hd : ditherOf s.jobCtrl = true) :
    (quantPixel s).eCarry = eastCarry s.jobW.toNat s.x.toNat (quantError (s.jobV s.y.toNat s.x.toNat)) ∧
    ∀ i, i < s.jobW.toNat → (quantPixel s).nxtErr.getD i 0 =
      if s.y.toNat + 1 < s.jobH.toNat then nextRow (s.jobV s.y.toNat) (s.x.toNat + 1) i else 0 := by
  obtain ⟨hx, -⟩ := hi.position_of_pix hp
  obtain ⟨-, -, hmax, -⟩ := hi.jobOk_of_pix hp
  obtain ⟨-, hlen⟩ := hi.buffers
  have hw : s.jobW.toNat ≤ s.nxtErr.length := hlen ▸ hmax
  have hq : Machine.quantPixel s = quantFsState s := by rw [Machine.quantPixel, hd]; rfl
  rw [hq, ← h.pixelV_eq hx]
  refine ⟨rfl, fun i hi => ?_⟩
  have hold : s.nxtErr.getD i 0 =
      if s.y.toNat + 1 < s.jobH.toNat then nextRow (s.jobV s.y.toNat) s.x.toNat i else 0 := h.nxt i hi
  have heast : s.x.toNat + 1 < s.jobW.toNat ∧ i = s.x.toNat + 1 ↔ i = s.x.toNat + 1 := by omega
  rw [quantFsState, getD_spread _ hx hw, hold, h.pixelV_eq hx]
  simp only [heast]
  by_cases hy : s.y.toNat + 1 < s.jobH.toNat
  · simp only [hy, if_true, true_and, nextRow_succ]
  · simp only [hy, if_false, false_and, add_zero]

theorem DitherTrack.pixelDone {s : State} (h : DitherTrack s) (hi : StateInv s) (hp : s.phase = .pix)
    (hd : ditherOf s.jobCtrl = true) (hrun : (pixelDone s).phase = .pix) : DitherTrack (pixelDone s) := by
  obtain ⟨hx, hy, -⟩ := hi.position_of_pix hp
  obtain ⟨-, -, hmax, -⟩ := hi.jobOk_of_pix hp
  obtain ⟨hcurLen, hnxtLen⟩ := hi.buffers
  obtain ⟨hcarry, hnxt⟩ := h.quantPixel hi hp hd
  obtain ⟨hv, -⟩ := pixelDone_job s
  obtain ⟨hlt, -, hx', hy'⟩ | ⟨hlast, hrow, -, hx', hy'⟩ | ⟨-, -, hfin, -⟩ := pixelDone_position hp hx hy
  · refine ⟨?_, fun i hi => ?_, fun i hi => ?_⟩
    · rw [pixelDone_eCarry, if_pos hlt, hcarry, eastCarry, if_pos hlt, hv, hx', hy', if_neg (Nat.succ_ne_zero _)]
      rfl
    · rw [pixelDone_jobW] at hi
      rw [pixelDone_curErr, if_pos hlt, hv, hy', pixelDone_jobW]
      exact h.cur i hi
    · rw [pixelDone_jobW] at hi
      rw [pixelDone_nxtErr, if_pos hlt, hnxt i hi, hv, hx', hy', pixelDone_jobH]
      rfl
  · have hge : ¬ s.x.toNat + 1 < s.jobW.toNat := by omega
    have hlen : s.jobW.toNat ≤ (Machine.quantPixel s).nxtErr.length := by
      rw [length_nxtErr_quantPixel]; omega
    refine ⟨?_, fun i hi => ?_, fun i hi => ?_⟩
    · rw [pixelDone_eCarry, if_neg hge, hx']
      rfl
    · rw [pixelDone_jobW] at hi
      rw [pixelDone_curErr, if_neg hge, getD_copyFirst _ _ _ _ hlen (by omega), if_pos hi, hnxt i hi, if_pos hrow, hv,
        hy', pixelDone_jobW, if_neg (Nat.succ_ne_zero _), hlast, nextRow_width _ hi]
      rfl
    · rw [pixelDone_jobW] at hi
      rw [pixelDone_nxtErr, if_neg hge, getD_zeroFirst, if_pos hi, hx']
      exact (if_congr Iff.rfl (nextRow_zero _ i) rfl).trans (ite_self 0) |>.symm
  · rw [hfin] at hrun
    cases hrun

/-! ### PACK_SR and OUT after a STEP_PIX -/

section

variable {s : State} (h : Track s) (hi : StateInv s) (hp : s.phase = .pix)
include h hi hp

theorem Track.pixelBit_eq : s.pixelBit = s.jobBit s.x.toNat s.y.toNat := by
  obtain ⟨hx, -⟩ := hi.position_of_pix hp
  exact pixelBit_eq_jobBit (h.dither (.inr hp)) hx

theorem Track.group_pixelDone (hf : fmtOf s.jobCtrl ≠ 1#2) : (pixelDone s).packSr = (pixelDone s).groupBits := by
  obtain ⟨hx, hy, -⟩ := hi.position_of_pix hp
  obtain ⟨-, hbit, -⟩ := pixelDone_job s
  rw [groupBits_eq_groupOf, hbit, pixelDone_packSr, if_neg hf]
  have hempty : ∀ x' (b : Nat → Bool), s.groupFull = true → x' % 8 = 0 →
      (if s.groupFull then 0 else shiftIn s.packSr s.pixelBit) = groupOf b x' := by
    intro x' b hg hmod
    rw [if_pos hg, groupOf_of_mod_eq_zero b hmod]
  obtain ⟨hlt, -, hx', hy'⟩ | ⟨hlast, -, -, hx', -⟩ | ⟨hlast, -, -, hx', -⟩ := pixelDone_position hp hx hy
  · rw [hx', hy']
    by_cases h7 : s.x.toNat % 8 = 7
    · exact hempty (s.x.toNat + 1) _ ((groupFull_iff s).mpr (.inl h7)) (by omega)
    · have hg := mt (groupFull_iff s).mp (by omega)
      rw [if_neg hg, groupOf_succ _ h7, h.group (.inr hp) hf, h.pixelBit_eq hi hp]
      rfl
  · exact hempty _ _ ((groupFull_iff s).mpr (.inr hlast)) (by rw [hx'])
  · exact hempty _ _ ((groupFull_iff s).mpr (.inr hlast)) (by rw [hx']; rfl)

/-- Where a group ends, the byte that goes to OUT[WPTR] is that of the record. -/
theorem Track.groupDone_eq (hf : fmtOf s.jobCtrl ≠ 1#2) (hg : s.groupFull = true) :
    s.groupDone = s.jobRecord s.wptr.toNat := by
  obtain ⟨hx, hy, hpack⟩ := hi.position_of_pix hp
  obtain ⟨hwptr, -⟩ := hpack hf
  rw [hwptr, State.jobRecord, recordByte_packed hf _ _ _ (div_eight_lt_bytesPerRow hx), State.groupDone,
    h.group (.inr hp) hf, h.pixelBit_eq hi hp, groupBits_eq_groupOf,
    groupByte_eq_packedByte s.jobBit s.y.toNat hx ((groupFull_iff s).mp hg)]

theorem Track.columnDone_eq (hf : fmtOf s.jobCtrl = 1#2) : s.columnDone = s.jobRecord s.pixelColumn := by
  obtain ⟨hx, hy, -⟩ := hi.position_of_pix hp
  rw [State.jobRecord, State.pixelColumn, recordByte_column hf _ _ _ hy, State.columnDone, h.pixelBit_eq hi hp]

/-- A STEP_PIX writes the record's byte, or none. -/
theorem Track.pixelDone_outByte (a : Nat) :
    (pixelDone s).outByte a = s.outByte a ∨ (pixelDone s).outByte a = s.jobRecord a := by
  rw [Machine.pixelDone_outByte]
  split_ifs with hf ha hg ha
  · exact .inr (ha ▸ h.columnDone_eq hi hp hf)
  · exact .inl rfl
  · exact .inr (ha ▸ h.groupDone_eq hi hp hf hg)
  · exact .inl rfl
  · exact .inl rfl

/-- A byte of the record that stands in OUT stays. -/
theorem Track.keeps_outByte {a : Nat} (ha : s.outByte a = s.jobRecord a) :
    (pixelDone s).outByte a = s.jobRecord a :=
  (h.pixelDone_outByte hi hp a).elim (fun e => e.trans ha) id

theorem Track.packed_pixelDone (hf : fmtOf s.jobCtrl ≠ 1#2) {a : Nat} (ha : a < (pixelDone s).wptr.toNat) :
    (pixelDone s).outByte a = s.jobRecord a := by
  by_cases hlt : a < s.wptr.toNat
  · exact h.keeps_outByte hi hp (h.packed hp hf a hlt)
  · cases hg : s.groupFull with
    | false =>
      rw [pixelDone_wptr, if_neg (by simp [hg])] at ha
      exact absurd ha hlt
    | true =>
      obtain ⟨hwptr, -⟩ := pixelDone_packer_of_full hi hp hf hg
      have heq : a = s.wptr.toNat := by omega
      rw [Machine.pixelDone_outByte, if_neg hf, if_pos hg, if_pos heq, heq]
      exact h.groupDone_eq hi hp hf hg

theorem Track.column_pixelDone (hf : fmtOf s.jobCtrl = 1#2) {x y : Nat} (hx : x < s.jobW.toNat)
    (hy : y < s.jobH.toNat) (hdone : y < s.y.toNat ∨ (y = s.y.toNat ∧ x < s.x.toNat + 1)) :
    (pixelDone s).outByte (columnAddr s.jobH.toNat x y) = s.jobRecord (columnAddr s.jobH.toNat x y) := by
  by_cases hxy : x = s.x.toNat ∧ y = s.y.toNat
  · obtain ⟨rfl, rfl⟩ := hxy
    rw [Machine.pixelDone_outByte, if_pos hf]
    exact (if_pos rfl).trans (h.columnDone_eq hi hp hf)
  · exact h.keeps_outByte hi hp (h.column hp hf x y hx hy (by omega))

/-- After the last STEP_PIX the whole record stands in OUT. -/
theorem Track.whole_pixelDone (hfin : (pixelDone s).phase = .fin) {a : Nat} (ha : a < s.jobLen) :
    (pixelDone s).outByte a = s.jobRecord a := by
  obtain ⟨hx, hy, -⟩ := hi.position_of_pix hp
  have hlast : s.x.toNat + 1 = s.jobW.toNat ∧ s.y.toNat + 1 = s.jobH.toNat ∧ (pixelDone s).x = 0 ∧
      (pixelDone s).y = s.jobH := by
    obtain ⟨-, hp', -⟩ | ⟨-, -, hp', -⟩ | ⟨hl, hh, -, hx', hy'⟩ := pixelDone_position hp hx hy
    · rw [hp'] at hfin; cases hfin
    · rw [hp'] at hfin; cases hfin
    · exact ⟨hl, hh, hx', hy'⟩
  obtain ⟨hw, hh, hx', hy'⟩ := hlast
  by_cases hf : fmtOf s.jobCtrl = 1#2
  · by_cases hhdr : a < 5
    · exact h.keeps_outByte hi hp (h.header hp a (by rw [hf]; exact hhdr))
    · have hpos : 0 < s.jobH.toNat := by omega
      rw [State.jobLen, hf, recordLen_column] at ha
      have haddr : a = columnAddr s.jobH.toNat ((a - 5) / s.jobH.toNat) ((a - 5) % s.jobH.toNat) := by
        have := Nat.div_add_mod (a - 5) s.jobH.toNat
        rw [columnAddr, Nat.mul_comm]
        omega
      have hxlt : (a - 5) / s.jobH.toNat < s.jobW.toNat := Nat.div_lt_of_lt_mul (by rw [Nat.mul_comm]; omega)
      have hylt := Nat.mod_lt (a - 5) hpos
      rw [haddr]
      exact h.column_pixelDone hi hp hf hxlt hylt (by omega)
  · obtain ⟨hwptr, -⟩ := packerOk_pixelDone hi hp (by rwa [pixelDone_jobCtrl])
    refine h.packed_pixelDone hi hp hf (lt_of_lt_of_le ha (le_of_eq ?_))
    rw [hwptr, hx', hy', pixelDone_jobCtrl, pixelDone_jobW, State.jobLen, recordLen_of_ne_column hf, Nat.mul_comm]
    rfl

theorem Track.pixelDone : Track (pixelDone s) := by
  obtain ⟨hx, hy, -⟩ := hi.position_of_pix hp
  obtain ⟨-, -, hrec, hlen⟩ := pixelDone_job s
  have hpix : (Machine.pixelDone s).phase = .hdr ∨ (Machine.pixelDone s).phase = .pix →
      (Machine.pixelDone s).phase = .pix := by
    obtain ⟨-, hp', -⟩ | ⟨-, -, hp', -⟩ | ⟨-, -, hp', -⟩ := pixelDone_position hp hx hy <;> rw [hp'] <;> simp
  refine ⟨fun hrun hd => ?_, fun _ hf => ?_, fun _ a ha => ?_, fun _ hf a ha => ?_, fun hrun hf x y hxw hyh hdone => ?_,
    fun hfin a ha => ?_⟩
  · rw [pixelDone_jobCtrl] at hd
    exact (h.dither (.inr hp) hd).pixelDone hi hp hd (hpix hrun)
  · rw [pixelDone_jobCtrl] at hf
    exact h.group_pixelDone hi hp hf
  · rw [pixelDone_jobCtrl] at ha
    rw [hrec]
    exact h.keeps_outByte hi hp (h.header hp a ha)
  · rw [pixelDone_jobCtrl] at hf
    rw [hrec]
    exact h.packed_pixelDone hi hp hf ha
  · rw [pixelDone_jobCtrl] at hf
    rw [pixelDone_jobW] at hxw
    rw [pixelDone_jobH] at hyh ⊢
    rw [hrec]
    refine h.column_pixelDone hi hp hf hxw hyh ?_
    obtain ⟨-, -, hx', hy'⟩ | ⟨hlast, -, -, hx', hy'⟩ | ⟨-, -, hp', -⟩ := pixelDone_position hp hx hy
    · omega
    · omega
    · rw [hp'] at hrun; cases hrun
  · rw [hlen] at ha
    rw [hrec]
    exact h.whole_pixelDone hi hp hfin ha

end

/-! ### The header step -/

theorem Track.headerDone {s : State} (h : Track s) (hi : StateInv s) (hp : s.phase = .hdr) :
    Track (headerDone s) := by
  obtain ⟨hx, hy, hpack⟩ := hi.position_of_hdr hp
  have hhdr : ∀ a, a < headerLen (fmtOf s.jobCtrl) → (Machine.headerDone s).outByte a = s.jobRecord a := by
    intro a ha
    rw [headerDone_outByte, length_header, if_pos ha, jobRecord_header s ha]
  refine ⟨fun _ hd => ?_, fun _ => h.group (.inl hp), fun _ => hhdr, fun _ hf a ha => ?_, fun _ _ x y _ _ hdone => ?_,
    fun hfin => by cases hfin⟩
  · obtain ⟨hcarry, hcur, hnxt⟩ := h.dither (.inl hp) hd
    exact ⟨hcarry, hcur, hnxt⟩
  · obtain ⟨hwptr, -⟩ := hpack hf
    rw [hx, hy] at hwptr
    have hhl : s.wptr.toNat = headerLen (fmtOf s.jobCtrl) := by simpa using hwptr
    exact hhdr a (lt_of_lt_of_le ha (le_of_eq hhl))
  · have hx0 : (Machine.headerDone s).x = 0 := hx
    have hy0 : (Machine.headerDone s).y = 0 := hy
    rw [hx0, hy0] at hdone
    simp at hdone

/-! ### The host and the step -/

theorem track_of_idle {s : State} (hp : s.phase = .idle) : Track s := by
  refine ⟨fun hrun => ?_, fun hrun => ?_, fun hrun => ?_, fun hrun => ?_, fun hrun => ?_, fun hrun => ?_⟩ <;>
    simp [hp] at hrun

/-- Settles O57: no job runs at reset. -/
theorem jobTrackAtReset : Obligations.JobTrackAtReset := fun _ => track_of_idle rfl

theorem Track.of_engineTurn {s t : State} (h : Track s) (hi : StateInv s) (he : engineTurn s = .next t) : Track t := by
  obtain ⟨-, rfl⟩ | ⟨hp, -, rfl⟩ | ⟨hp, -, -, rfl⟩ | ⟨-, rfl⟩ := engineTurn_effect he
  · exact h
  · exact h.headerDone hi hp
  · exact h.pixelDone hi hp
  · exact track_of_idle rfl

/-- The host's registers, STATUS and the model's own counters are in none of it. -/
theorem Track.of_host_registers {s : State} (h : Track s) (c : BitVec 4) (d : Word) (st : Status) (n : Nat)
    (l : List HostOp) (ts : List Turn) (r : List Word) :
    Track { s with ctrl := c, dim := d, status := st, draws := n, host := l, sched := ts, hostReads := r } := by
  refine ⟨fun hrun hd => ?_, h.group, h.header, h.packed, h.column, h.whole⟩
  obtain ⟨hcarry, hcur, hnxt⟩ := h.dither hrun hd
  exact ⟨hcarry, hcur, hnxt⟩

/-- START leaves the accumulator and PACK_SR empty, and pixel (0, 0) is next. -/
theorem track_beginJob (s : State) : Track (beginJob s) := by
  refine ⟨fun _ _ => ⟨rfl, fun i hi => ?_, fun i hi => ?_⟩, fun _ _ => rfl, fun hrun => ?_, fun hrun => ?_,
    fun hrun => ?_, fun hrun => ?_⟩
  · exact (getD_zeroFirst _ _ i).trans (if_pos hi)
  · have hzero : nextRow ((beginJob s).jobV 0) 0 i = 0 := nextRow_zero _ i
    have hnxt : (beginJob s).nxtErr.getD i 0 = 0 := (getD_zeroFirst _ _ i).trans (if_pos hi)
    rw [hnxt]
    exact ((if_congr Iff.rfl hzero rfl).trans (ite_self 0)).symm
  · cases hrun
  · cases hrun
  · cases hrun
  · cases hrun

/-- A host write to SRC or OUT while a job runs sets its mark (R273, R274). -/
theorem idle_of_mark_clear {s : State} {m : Bool} (h : (m || s.running) = false) : s.phase = .idle := by
  by_contra hp
  rw [running_of_ne_idle hp, Bool.or_true] at h
  cases h

theorem Track.of_hostEffect {s t : State} (h : Track s) (he : HostEffect s t) (hsrc : t.hzSrc = false)
    (hout : t.hzOut = false) : Track t := by
  cases he with
  | nothing => exact h
  | draw | writeCtrl | writeDim | ignored => exact h.of_host_registers ..
  | writeSrc k b => exact track_of_idle (s := srcWrite k b s) (idle_of_mark_clear hsrc)
  | writeOut k b => exact track_of_idle (s := outWrite k b s) (idle_of_mark_clear hout)
  | cleared hp | reserved hp | rejected e hp => exact track_of_idle hp
  | accepted => exact track_beginJob _
  | aborted => exact track_of_idle rfl

/-- Settles O56: the marks are sticky, so they were clear before the step; then the engine's turn, each effect of the
host and reset keep what a running job has done. -/
theorem jobFollowsTheRules : Obligations.JobFollowsTheRules := by
  intro s t hi h hs hsrc hout
  refine (step_keeps (P := fun u => StateInv u ∧ (u.hzSrc = false → u.hzOut = false → Track u)) ?_ ?_ ?_ ?_
    ⟨hi, fun _ _ => h⟩ hs).2 hsrc hout
  · rintro u l ts r ⟨hi, h⟩
    exact ⟨hi.withWorld l ts r, fun hs ho => (h hs ho).of_host_registers ..⟩
  · rintro u v ⟨hi, h⟩ he
    have hf := engineTurn_frame he
    have hvs : v.hzSrc = u.hzSrc := (congrArg State.hzSrc hf :)
    have hvo : v.hzOut = u.hzOut := (congrArg State.hzOut hf :)
    exact ⟨hi.of_engineTurn he, fun hs ho => (h (hvs ▸ hs) (hvo ▸ ho)).of_engineTurn hi he⟩
  · rintro u v ⟨hi, h⟩ he
    have hm := marksKept_of_hostEffect he
    refine ⟨hi.of_hostEffect he, fun hs ho => ?_⟩
    have hus : u.hzSrc = false := Bool.eq_false_iff.mpr fun e => by simp [hm.hzSrc e] at hs
    have huo : u.hzOut = false := Bool.eq_false_iff.mpr fun e => by simp [hm.hzOut e] at ho
    exact (h hus huo).of_hostEffect he hs ho
  · rintro u ⟨hi, -⟩
    exact ⟨hi.resetEvent, fun _ _ => track_of_idle rfl⟩

end Sys2Proof.Machine

/-! PROOF. The host's accesses (42_commands.md R207, R208, 20_memory.md R64 to R67): a legal access completes in every
phase, what each read returns, and the words of STATUS, GEOM, POS and CAPS0 in numbers. -/

namespace Sys2Proof.Machine

/-! ### Legal accesses complete -/

theorem regWrite_completes (off w : Word) (s : State) : ∃ t, regWrite off w s = .next t := by
  unfold regWrite
  split_ifs
  · exact ⟨_, rfl⟩
  · exact ⟨_, rfl⟩
  · obtain ⟨t, ht, -⟩ := command_cases w s
    exact ⟨t, ht⟩
  · exact ⟨_, rfl⟩

theorem hostAccess_completes {a : Access} {s : State} (h : a.legal s.cfg = true) : ∃ t, hostAccess a s = .next t := by
  rw [hostAccess_of_legal h, legalAccess]
  cases a.space <;> cases a.dir
  case reg.write => exact regWrite_completes ..
  all_goals exact ⟨_, rfl⟩

/-- Settles O17: each form is legal in its space. -/
theorem legalAccessesComplete : Obligations.LegalAccessesComplete := by
  rintro s a (⟨hsp, h⟩ | ⟨hsp, h⟩ | ⟨hsp, h⟩)
  · exact hostAccess_completes ((Access.legal_iff_of_reg s.cfg hsp).mpr h)
  · exact hostAccess_completes ((Access.legal_iff_of_src s.cfg hsp).mpr h)
  · exact hostAccess_completes ((Access.legal_iff_of_out s.cfg hsp).mpr h)

/-! ### Register words in numbers -/

theorem toNat_append_eq {m n : Nat} (u : BitVec m) (v : BitVec n) :
    (u ++ v).toNat = u.toNat * 2 ^ n + v.toNat := by
  rw [BitVec.toNat_append, Nat.shiftLeft_eq, Nat.mul_comm, Nat.two_pow_add_eq_or_of_lt v.isLt]

theorem toNat_statusWord (st : Status) : st.word.toNat = st.busy.toNat + 2 * st.done.toNat +
    4 * st.err.toNat + 8 * st.cmdIgn.toNat + 256 * st.errCode.code.toNat := by
  simp only [Status.word, toNat_append_eq, BitVec.toNat_ofBool, BitVec.toNat_zero]
  omega

theorem toNat_geom (s : State) : s.geom.toNat = (s.jobW.toNat + 7) / 8 + 65536 * s.jobH.toNat := by
  have hbpr : bytesPerRow s.jobW.toNat % 65536 = bytesPerRow s.jobW.toNat :=
    Nat.mod_eq_of_lt (bytesPerRow_lt s.jobW.isLt)
  rw [State.geom, toNat_append_eq, BitVec.toNat_ofNat, hbpr, bytesPerRow]
  omega

theorem toNat_pos (s : State) : s.pos.toNat = s.x.toNat + 65536 * s.y.toNat := by
  rw [State.pos, toNat_append_eq]
  omega

theorem toNat_caps0 {s : State} (h : s.cfg.Legal) :
    s.caps0.toNat = s.cfg.maxWidth + 65536 * Config.accBits := by
  obtain ⟨⟨-, hmax⟩, -⟩ := h
  simp only [State.caps0, toNat_append_eq, BitVec.toNat_ofNat, Config.accBits]
  omega

/-! ### Reads -/

theorem hostAccess_rd32 {off : Word} (hal : off.toNat % 4 = 0) (hlt : off.toNat < 0x100) (s : State) :
    hostAccess (rd32 off) s = .next (logRead (regRead off s) s) := by
  have hlegal : (rd32 off).legal s.cfg = true := (Access.legal_iff_of_reg s.cfg rfl).mpr ⟨rfl, hal, hlt⟩
  exact hostAccess_of_legal hlegal

/-- R33: a reserved offset reads 0. -/
theorem regRead_of_ge {off : Word} (h : 0x28 ≤ off.toNat) (s : State) : regRead off s = 0 := by
  have hne : ∀ k : Word, k.toNat < 0x28 → off ≠ k := by
    rintro k hk rfl
    omega
  simp [regRead, hne]

/-- Settles O14: each read is legal, and its word is that of the register. -/
theorem registerReadsReturnValues : Obligations.RegisterReadsReturnValues := by
  intro s hcfg reads
  have hread : ∀ off : Word, off.toNat % 4 = 0 → off.toNat < 0x100 → reads off (regRead off s) :=
    fun _ hal hlt => hostAccess_rd32 hal hlt s
  have ⟨_, ⟨_, hsrc⟩, _, hout⟩ := hcfg
  refine ⟨hread 0x00 (by decide) (by decide), hread 0x04 (by decide) (by decide), hread 0x08 (by decide) (by decide),
    ⟨_, hread 0x0C (by decide) (by decide), toNat_statusWord s.status⟩, hread 0x10 (by decide) (by decide),
    ⟨_, hread 0x14 (by decide) (by decide), toNat_geom s⟩, ⟨_, hread 0x18 (by decide) (by decide), toNat_pos s⟩,
    ⟨_, hread 0x1C (by decide) (by decide), toNat_caps0 hcfg⟩,
    ⟨_, hread 0x20 (by decide) (by decide), BitVec.toNat_ofNat _ _ |>.trans (Nat.mod_eq_of_lt (by omega))⟩,
    ⟨_, hread 0x24 (by decide) (by decide), BitVec.toNat_ofNat _ _ |>.trans (Nat.mod_eq_of_lt (by omega))⟩,
    fun off hal hge hle => ?_⟩
  have h := hread off hal (by omega)
  rwa [regRead_of_ge hge] at h

theorem hostAccess_rd8_src {a : Word} {s : State} (ha : a.toNat < s.cfg.srcSize) :
    hostAccess (rd8 .src a) s = .next (srcRead a.toNat s) := by
  have hlegal : (rd8 .src a).legal s.cfg = true := (Access.legal_iff_of_src s.cfg rfl).mpr ⟨rfl, ha⟩
  exact hostAccess_of_legal hlegal

theorem hostAccess_rd8_out {a : Word} {s : State} (ha : a.toNat < s.cfg.outSize) :
    hostAccess (rd8 .out a) s = .next (outRead a.toNat s) := by
  have hlegal : (rd8 .out a).legal s.cfg = true := (Access.legal_iff_of_out s.cfg rfl).mpr ⟨rfl, ha⟩
  exact hostAccess_of_legal hlegal

/-- Settles O20: both reads are legal, and a read of OUT asks whether a job runs. -/
theorem byteReadsReturnByteOrDraw : Obligations.ByteReadsReturnByteOrDraw := by
  intro s a
  refine ⟨fun ha => hostAccess_rd8_src ha, fun ha hp => ?_, fun ha hp => ?_⟩
  · rw [hostAccess_rd8_out ha, outRead, running_of_idle hp]
    rfl
  · rw [hostAccess_rd8_out ha, outRead, running_of_ne_idle hp]
    rfl

/-! ### The host's lines -/

/-- R8: a field of a word in numbers. -/
theorem toNat_fieldOf (hi lo : Nat) (w : Word) :
    (fieldOf hi lo w).toNat = w.toNat / 2 ^ lo % 2 ^ (hi + 1 - lo) := by
  have hlt : w.toNat / 2 ^ lo % 2 ^ (hi + 1 - lo) < 2 ^ 32 :=
    lt_of_le_of_lt (Nat.mod_le _ _) (lt_of_le_of_lt (Nat.div_le_self _ _) w.isLt)
  rw [fieldOf, BitVec.toNat_setWidth, BitVec.extractLsb'_toNat, Nat.shiftRight_eq_div_pow, Nat.mod_eq_of_lt hlt]

theorem hostOp_poll {off : Word} (hal : off.toNat % 4 = 0) (hlt : off.toNat < 0x100) (hi lo : Nat) (value : Word)
    (s : State) :
    hostOp (.poll off hi lo value) s =
      .next { s with
        host := if fieldOf hi lo (regRead off s) = value then s.host else .poll off hi lo value :: s.host
        hostReads := regRead off s :: s.hostReads } := by
  rw [hostOp, hostAccess_rd32 hal hlt, andThen_next]
  split_ifs <;> rfl

/-- The host's turn takes the first line of its program. -/
theorem step_of_host_line {s : State} {op : HostOp} {rest : List HostOp} {ts : List Turn}
    (hturn : s.sched = .host :: ts ∨ (s.sched = [] ∧ ts = [] ∧ s.phase = .idle)) (hhost : s.host = op :: rest) :
    step s = hostOp op { s with host := rest, sched := ts } := by
  rw [step_of_host hturn]
  exact hostTurn_line (s := { s with sched := ts }) hhost

/-- Settles O5: the host's turn takes the first line of its program, and a CMD write is the access that issues it. -/
theorem stepRunsDecodedCommand : Obligations.StepRunsDecodedCommand := by
  intro s rest ts hturn
  refine ⟨fun a ha => step_of_host_line hturn ha, fun w i hw hi => ?_⟩
  rw [step_of_host_line hturn hw, cmd, hostOp, hostAccess_wr32_cmd, command_of_decode hi]

/-- The turn of a host whose next line is a POLL of a register that exists. -/
theorem step_of_poll {s : State} {rest : List HostOp} {ts : List Turn}
    (hturn : s.sched = .host :: ts ∨ (s.sched = [] ∧ ts = [] ∧ s.phase = .idle)) {off : Word} {hi lo : Nat}
    {value : Word} (hhost : s.host = .poll off hi lo value :: rest) (hal : off.toNat % 4 = 0)
    (hlt : off.toNat < 0x100) :
    step s = .next { s with
      host := if (regRead off s).toNat / 2 ^ lo % 2 ^ (hi + 1 - lo) = value.toNat then rest else s.host
      sched := ts
      hostReads := regRead off s :: s.hostReads } := by
  have hread : ∀ l ts', regRead off { s with host := l, sched := ts' } = regRead off s := fun _ _ => rfl
  rw [step_of_host_line hturn hhost, hostOp_poll hal hlt]
  simp only [hread, ← BitVec.toNat_inj, toNat_fieldOf, hhost]

theorem regRead_status (s : State) : regRead 0x0C s = s.status.word := rfl

/-- BUSY is bit 0 of STATUS. -/
theorem statusWord_mod_two (st : Status) : st.word.toNat % 2 = st.busy.toNat := by
  have := st.busy.toNat_le
  rw [toNat_statusWord]
  omega

/-- Settles O21: a POLL is over exactly when the field has the value; WAIT is the POLL of bit 0 of STATUS for 0. -/
theorem waitPollsBusy : Obligations.WaitPollsBusy := by
  intro s rest ts hturn
  refine ⟨fun hhost => ?_, fun off hi lo value hhost hal hlt => ?_⟩
  · have hstep := step_of_poll hturn hhost (by decide) (by decide)
    have hfield : ((regRead 0x0C s).toNat / 2 ^ 0 % 2 ^ (0 + 1 - 0) = (0 : Word).toNat) ↔ s.status.busy = false := by
      rw [regRead_status, pow_zero, Nat.div_one]
      exact (statusWord_mod_two s.status).congr_left.trans (by simp)
    refine ⟨fun hb => ?_, fun hb => ?_⟩
    · rw [hstep, if_pos (hfield.mpr hb), regRead_status]
    · rw [hstep, if_neg (mt hfield.mp (by simp [hb])), regRead_status]
  · have hstep := step_of_poll hturn hhost hal hlt
    refine ⟨fun hv => ?_, fun hv => ?_⟩
    · rw [hstep, if_pos hv]
    · rw [hstep, if_neg hv]

/-! ### No step faults -/

/-- What the host's turn answers: a next state, or the refusal of an access that is not legal. -/
theorem hostTurn_answers (s : State) :
    (∃ t, hostTurn s = .next t) ∨
    ∃ a : Access, (s.host.head? = some (.access a) ∨
        ∃ off hi lo value, s.host.head? = some (.poll off hi lo value) ∧ a = rd32 off) ∧
      a.legal s.cfg = false ∧ hostTurn s = .refused (refuseAccess a) := by
  cases hh : s.host with
  | nil => exact .inl ⟨s, by simp only [hostTurn, hh]⟩
  | cons op rest =>
    rw [hostTurn_line hh]
    cases op with
    | access a =>
      cases hl : a.legal s.cfg with
      | true => exact .inl (hostAccess_completes hl)
      | false => exact .inr ⟨a, .inl rfl, hl, hostAccess_of_not_legal (by simp [hl])⟩
    | poll off hi lo value =>
      cases hl : (rd32 off).legal s.cfg with
      | true =>
        obtain ⟨-, hal, hlt⟩ := (Access.legal_iff_of_reg s.cfg rfl).mp hl
        exact .inl ⟨_, hostOp_poll hal hlt hi lo value _⟩
      | false =>
        have hrefuse : hostAccess (rd32 off) { s with host := rest } = .refused (refuseAccess (rd32 off)) :=
          hostAccess_of_not_legal (by simp [hl])
        exact .inr ⟨rd32 off, .inr ⟨off, hi, lo, value, rfl, rfl⟩, hl, by rw [hostOp, hrefuse, andThen_refused]⟩

theorem refuseAccess_eq (a : Access) :
    refuseAccess a = if a.space = .reg then .illegalRegAccess else .illegalByteAccess := by
  split_ifs with h
  · exact refuseAccess_of_reg h
  · exact refuseAccess_of_ne_reg h

/-- Settles O55: with the invariant the engine's turn completes, reset always does, and the host's turn is refused only
for an access that is not legal. -/
theorem noStepFaults : Obligations.NoStepFaults := by
  intro s h
  have hengine : ∀ ts, ∃ t, engineTurn { s with sched := ts } = .next t :=
    fun ts => (h.withWorld s.host ts s.hostReads).engineTurn_completes
  have hhost : ∀ ts, (s.sched = .host :: ts ∨ (s.sched = [] ∧ ts = [] ∧ s.phase = .idle)) →
      (∃ t, step s = .next t) ∨ ∃ a : Access,
        (s.host.head? = some (.access a) ∨
          ∃ off hi lo value, s.host.head? = some (.poll off hi lo value) ∧ a = rd32 off) ∧
        a.legal s.cfg = false ∧
        step s = .refused (if a.space = .reg then .illegalRegAccess else .illegalByteAccess) := by
    intro ts hturn
    simp only [step_of_host hturn, ← refuseAccess_eq]
    exact hostTurn_answers { s with sched := ts }
  cases hs : s.sched with
  | nil =>
    by_cases hp : s.phase = .idle
    · exact (hhost [] (.inr ⟨hs, rfl, hp⟩)).imp_right fun hr => ⟨.inr ⟨rfl, hp⟩, hr⟩
    · refine .inl ?_
      rw [step_of_running hs hp]
      exact h.engineTurn_completes
  | cons turn ts =>
    cases turn with
    | host => exact (hhost ts (.inl hs)).imp_right fun hr => ⟨.inl rfl, hr⟩
    | engine =>
      refine .inl ?_
      rw [step_of_sched hs]
      exact hengine ts
    | reset => exact .inl ⟨_, step_of_sched hs⟩

end Sys2Proof.Machine

/-! PROOF. Single turns (42_commands.md R209 to R214, 70_reset_and_hazards.md R270, R271): the engine's turn runs the
operations that JOB_CTRL selects, a reset gives every part its stated value, and a placed instruction is what the next
step runs (log 10). -/

namespace Sys2Proof.Machine

/-- Settles O29: division by 16 rounds toward minus infinity. -/
theorem shareIsFloor : Obligations.ShareIsFloor := by
  refine ⟨fun e w => ?_, by decide⟩
  unfold share
  generalize e * w = p
  omega

/-! ### The engine's turn -/

/-- The engine's turn: the schedule names it, or is empty while a job runs. -/
theorem step_of_engine {s : State} {ts : List Turn}
    (h : s.sched = .engine :: ts ∨ (s.sched = [] ∧ ts = [] ∧ s.phase ≠ .idle)) :
    step s = engineTurn { s with sched := ts } := by
  obtain h | ⟨h, rfl, hp⟩ := h
  · exact step_of_sched h
  · rw [step_of_running h hp, ← h]

theorem runField_of_decode {p : Port} {i : Instr} {s : State} (h : decodeWord p s.jobWord = .ok i) :
    runField p s = exec i s := by
  simp only [runField, h]

theorem stepHdr_of_decode {s : State} {r : Instr} (h : decodeWord .record s.jobWord = .ok r) :
    stepHdr s = andThen (exec r s) fun t => .next { t with phase := .pix } := by
  rw [stepHdr, runField_of_decode h]

theorem stepPix_of_decode {s : State} {q : Instr} (h : decodeWord .quant s.jobWord = .ok q) :
    stepPix s = andThen (exec q s) fun t => andThen (runField .record t) fun u => .next (advancePixel u) := by
  rw [stepPix, runField_of_decode h]

/-- Settles O6: the rows run are those that JOB_CTRL decodes to at the ports of its two fields. -/
theorem stepRunsJobOperations : Obligations.StepRunsJobOperations := by
  intro s ts hturn
  have hstep := step_of_engine hturn
  refine ⟨fun r t hp hr ht => ?_, fun q r t u hp hq hr ht hu => ?_⟩
  · rw [hstep, engineTurn_hdr (s := { s with sched := ts }) hp, stepHdr_of_decode (s := { s with sched := ts }) hr, ht,
      andThen_next]
  · have hpix : step s = .next (advancePixel u) := by
      rw [hstep, engineTurn_pix (s := { s with sched := ts }) hp, stepPix_of_decode (s := { s with sched := ts }) hq,
        ht, andThen_next, runField_of_decode hr, hu, andThen_next]
    refine ⟨fun hlt => ?_, fun hge => ?_⟩
    · rw [hpix, advancePixel_of_lt hlt]
    · rw [hpix, advancePixel_of_ge (by omega)]

/-- Settles O8: in phase FIN the turn is the engine's, and it is `stepFin`. -/
theorem finStepCompletesJob : Obligations.FinStepCompletesJob := by
  intro s ts hturn hp
  have hrun : s.phase ≠ .idle := by simp [hp]
  rw [step_of_engine (hturn.imp_right fun h => ⟨h.1, h.2, hrun⟩), engineTurn_fin (s := { s with sched := ts }) hp]
  rfl

/-- Settles O9: an idle engine has no step, and a host without a program makes no access. -/
theorem idleEngineHasNoStep : Obligations.IdleEngineHasNoStep := by
  refine fun s hp => ⟨fun ts hs => ?_, fun hs hh => ?_⟩
  · rw [step_of_engine (.inl hs), engineTurn_idle (s := { s with sched := ts }) hp]
  · rw [step_of_idle hs hp, hostTurn, hh]

/-! ### Reset -/

/-- R46: GEOM and POS, which are computed, read 0 at reset. -/
theorem geom_pos_of_reset {s : State} (hw : s.jobW = 0) (hh : s.jobH = 0) (hx : s.x = 0) (hy : s.y = 0) :
    s.geom = 0 ∧ s.pos = 0 := by
  rw [State.geom, State.pos, hw, hh, hx, hy]
  decide

/-- Settles O12: a reset is `resetEvent`, in which both memories are empty and read as the new draw. -/
theorem resetEventRestoresValues : Obligations.ResetEventRestoresValues := by
  intro s ts hs
  obtain ⟨hgeom, hpos⟩ := geom_pos_of_reset (s := resetEvent { s with sched := ts }) rfl rfl rfl rfl
  exact ⟨resetEvent { s with sched := ts }, step_of_sched hs, rfl, rfl, rfl, rfl, hgeom, hpos, rfl, rfl, rfl, rfl, rfl,
    rfl, rfl, rfl, fun _ => rfl, fun _ => rfl, Nat.lt_succ_self _, rfl, rfl, rfl, rfl, rfl⟩

/-- Settles O13: the values are those of `resetWith`. -/
theorem resetStateValues : Obligations.ResetStateValues := by
  intro p s
  obtain ⟨hgeom, hpos⟩ := geom_pos_of_reset (s := s) rfl rfl rfl rfl
  have hword : (⟨false, false, false, false, .none⟩ : Status).word = 0 := by decide
  exact ⟨rfl, rfl, rfl, hword, rfl, hgeom, hpos, rfl, rfl, rfl, rfl, rfl, rfl, List.length_replicate,
    List.length_replicate, rfl, rfl, rfl, rfl, rfl⟩

/-! ### A placed instruction -/

/-- The decoder reads a table word at the port that is found for it, so the instruction is one of that port. -/
theorem decodeWord_of_decodeTableWord {nbits w : Nat} {i : Instr} (h : decodeTableWord nbits w = some i) :
    decodeWord (tablePort nbits (tableWord nbits w)) (tableWord nbits w) = .ok i ∧
      tablePort nbits (tableWord nbits w) = i.port := by
  have hdec : decodeWord (tablePort nbits (tableWord nbits w)) (tableWord nbits w) = .ok i := by
    unfold decodeTableWord at h
    split at h
    · next j rest hj =>
      cases h
      rw [← List.append_nil (bytesOfWord _)] at hj
      exact (decode_bytesOfWord_append.mp hj).1
    · cases h
  exact ⟨hdec, (decodeWord_eq_ok_iff.mp hdec).1.symm⟩

/-- A CTRL word decodes by its low four bits. -/
theorem decodeWord_setWidth_of_ne_cmd {p : Port} (hp : p ≠ .cmd) (w : Word) :
    decodeWord p ((w.setWidth 4).setWidth 32) = decodeWord p w := by
  have hlow : ((w.setWidth 4).setWidth 32).setWidth 4 = w.setWidth 4 := BitVec.setWidth_setWidth_of_le _ (by decide)
  cases p with
  | cmd => exact absurd rfl hp
  | quant => simp only [decodeWord, decodeQuant, ditherBit_eq_ditherOf, hlow]
  | record => simp only [decodeWord, decodeRecord, formatField_eq_fmtOf, invertBit_eq_invertOf, hlow]

/-- The CTRL word that `placeInstr` gives a job for a QUANT row: OUT_FMT = 3 gives way to 0. -/
def quantCtrl (w : Word) : BitVec 4 :=
  if formatField w = 3#2 then (w &&& 3#32).setWidth 4 else w.setWidth 4

/-- It selects the quantiser of the word. -/
theorem decodeWord_quant_quantCtrl (w : Word) :
    decodeWord .quant ((quantCtrl w).setWidth 32) = decodeWord .quant w := by
  have hbit : ditherBit ((quantCtrl w).setWidth 32) = ditherBit w := by
    unfold quantCtrl
    split_ifs <;> simp [ditherBit]
  simp only [decodeWord, decodeQuant, hbit]

/-- A job placed in phase HDR: the next step runs its record row. -/
theorem step_placeJob_hdr {c : BitVec 4} {r : Instr} (h : decodeWord .record (c.setWidth 32) = .ok r) (s : State) :
    step (placeJob c .hdr s) =
      andThen (exec r { placeJob c .hdr s with sched := s.sched }) fun t => .next { t with phase := .pix } := by
  have hstep : step (placeJob c .hdr s) = engineTurn { placeJob c .hdr s with sched := s.sched } :=
    step_of_engine (.inl rfl)
  rw [hstep, engineTurn_hdr (s := { placeJob c .hdr s with sched := s.sched }) rfl]
  exact stepHdr_of_decode h

/-- A job placed in phase PIX: the next step runs its quantiser on pixel (0, 0), and then the record row. -/
theorem step_placeJob_pix {c : BitVec 4} {q : Instr} (h : decodeWord .quant (c.setWidth 32) = .ok q) (s : State) :
    step (placeJob c .pix s) =
      andThen (exec q { placeJob c .pix s with sched := s.sched }) fun t =>
        andThen (runField .record t) fun v => .next (advancePixel v) := by
  have hstep : step (placeJob c .pix s) = engineTurn { placeJob c .pix s with sched := s.sched } :=
    step_of_engine (.inl rfl)
  rw [hstep, engineTurn_pix (s := { placeJob c .pix s with sched := s.sched }) rfl]
  exact stepPix_of_decode h

/-! Where `placeInstr` puts a table word, by the port it is read at. -/

theorem withFetchWord_of_cmd {nbits w : Nat} (h : tablePort nbits (tableWord nbits w) = .cmd) (s : State) :
    s.withFetchWord nbits w = { s with host := cmd (tableWord nbits w) :: s.host, sched := .host :: s.sched } := by
  simp only [State.withFetchWord, placeInstr, h]

theorem withFetchWord_of_record {nbits w : Nat} (h : tablePort nbits (tableWord nbits w) = .record) (s : State) :
    s.withFetchWord nbits w = placeJob ((tableWord nbits w).setWidth 4) .hdr s := by
  simp only [State.withFetchWord, placeInstr, h]

theorem withFetchWord_of_quant {nbits w : Nat} (h : tablePort nbits (tableWord nbits w) = .quant) (s : State) :
    s.withFetchWord nbits w = placeJob (quantCtrl (tableWord nbits w)) .pix s := by
  simp only [State.withFetchWord, placeInstr, h, quantCtrl]

/-- Settles O11: a command becomes the host's next line, a row of a CTRL word the operation of the engine's next
step. -/
theorem placedInstructionRunsNext : Obligations.PlacedInstructionRunsNext := by
  intro s nbits w i h
  obtain ⟨hdec, hport⟩ := decodeWord_of_decodeTableWord h
  refine ⟨fun hc => ?_, fun hr => ?_, fun hq => ?_⟩
  · have hp := hport.trans hc
    rw [hp] at hdec
    rw [withFetchWord_of_cmd hp]
    obtain ⟨-, hcmd⟩ := stepRunsDecodedCommand
      { s with host := cmd (tableWord nbits w) :: s.host, sched := .host :: s.sched } s.host s.sched (.inl rfl)
    exact hcmd _ i rfl hdec
  · have hp := hport.trans hr
    rw [hp, ← decodeWord_setWidth_of_ne_cmd (by simp)] at hdec
    rw [withFetchWord_of_record hp]
    refine ⟨{ placeJob ((tableWord nbits w).setWidth 4) .hdr s with sched := s.sched }, rfl, rfl, rfl, rfl, rfl, ?_⟩
    exact step_placeJob_hdr hdec s
  · have hp := hport.trans hq
    rw [hp, ← decodeWord_quant_quantCtrl] at hdec
    rw [withFetchWord_of_quant hp]
    refine ⟨{ placeJob (quantCtrl (tableWord nbits w)) .pix s with sched := s.sched }, rfl, rfl, rfl, rfl, rfl, rfl, ?_⟩
    exact step_placeJob_pix hdec s

end Sys2Proof.Machine

/-! PROOF. A whole job (42_commands.md R202, R213, R215, 40_dither.md R140), on the schedule that leaves the turn to the
engine while a job runs (log 1): the steps that a running job still has to make, the states on the way, and the state it
ends in. -/

namespace Sys2Proof.Machine

/-! ### Runs -/

theorem run_succ_of_next (M : Host.Core) {s t : M.State} (h : M.step s = .next t) (n : Nat) :
    M.run (n + 1) s = M.run n t := by
  simp only [Host.Core.run, h]

/-- A run goes on from the state its first part answers. -/
theorem run_add_of_next (M : Host.Core) {s t : M.State} {n : Nat} (h : M.run n s = .next t) (m : Nat) :
    M.run (n + m) s = M.run m t := by
  induction n generalizing s with
  | zero =>
    cases h
    rw [Nat.zero_add]
  | succ n ih =>
    rw [Nat.succ_add]
    cases hs : M.step s with
    | next u =>
      rw [run_succ_of_next M hs] at h ⊢
      exact ih h
    | fault r => simp [Host.Core.run, hs] at h
    | refused r => simp [Host.Core.run, hs] at h

theorem run_succ {s t : State} (h : step s = .next t) (n : Nat) : core.run (n + 1) s = core.run n t :=
  run_succ_of_next core h n

theorem run_add {s t : State} {n : Nat} (h : core.run n s = .next t) (m : Nat) : core.run (n + m) s = core.run m t :=
  run_add_of_next core h m

/-- With no job, no host program and no named turn, nothing happens any more (R271). -/
theorem run_of_quiet {s : State} (hp : s.phase = .idle) (hs : s.sched = []) (hh : s.host = []) (n : Nat) :
    core.run n s = .next s := by
  have hstep : step s = .next s := by rw [step_of_idle hs hp, hostTurn, hh]
  induction n with
  | zero => rfl
  | succ n ih => rw [run_succ hstep, ih]

/-! ### The steps that are left -/

/-- The engine steps that a running job still has to make: STEP_HDR, one for each pixel, STEP_FIN (R213). -/
def State.stepsLeft (s : State) : Nat :=
  match s.phase with
  | .idle => 0
  | .hdr => s.jobW.toNat * s.jobH.toNat + 2
  | .pix => s.jobW.toNat * s.jobH.toNat - s.pixelAddr + 1
  | .fin => 1

theorem stepsLeft_of_idle {s : State} (hp : s.phase = .idle) : s.stepsLeft = 0 := by
  rw [State.stepsLeft, hp]

theorem stepsLeft_of_hdr {s : State} (hp : s.phase = .hdr) :
    s.stepsLeft = s.jobW.toNat * s.jobH.toNat + 2 := by
  rw [State.stepsLeft, hp]

theorem stepsLeft_of_pix {s : State} (hp : s.phase = .pix) :
    s.stepsLeft = s.jobW.toNat * s.jobH.toNat - s.pixelAddr + 1 := by
  rw [State.stepsLeft, hp]

theorem stepsLeft_of_fin {s : State} (hp : s.phase = .fin) : s.stepsLeft = 1 := by
  rw [State.stepsLeft, hp]

theorem running_of_stepsLeft {s : State} (h : 0 < s.stepsLeft) : s.phase ≠ .idle := by
  intro hp
  rw [stepsLeft_of_idle hp] at h
  omega

theorem StateInv.pixelAddr_lt {s : State} (h : StateInv s) (hp : s.phase = .pix) :
    s.pixelAddr < s.jobW.toNat * s.jobH.toNat := by
  obtain ⟨hx, hy, -⟩ := h.position_of_pix hp
  exact sampleAddr_lt hx hy

/-- The one step left is STEP_FIN. -/
theorem StateInv.fin_of_stepsLeft {s : State} (hi : StateInv s) (h : s.stepsLeft = 1) : s.phase = .fin := by
  cases hp : s.phase with
  | fin => rfl
  | idle => rw [stepsLeft_of_idle hp] at h; omega
  | hdr => rw [stepsLeft_of_hdr hp] at h; omega
  | pix =>
    have := hi.pixelAddr_lt hp
    rw [stepsLeft_of_pix hp] at h
    omega

/-- A STEP_PIX goes to the next pixel in raster order; after the last one STEP_FIN is left. -/
theorem stepsLeft_pixelDone {s : State} (hi : StateInv s) (hp : s.phase = .pix) :
    (pixelDone s).stepsLeft + 1 = s.stepsLeft := by
  obtain ⟨hx, hy, -⟩ := hi.position_of_pix hp
  have hlt := hi.pixelAddr_lt hp
  rw [stepsLeft_of_pix hp]
  have haddr : s.pixelAddr = s.y.toNat * s.jobW.toNat + s.x.toNat := rfl
  obtain ⟨-, hp', hx', hy'⟩ | ⟨hlast, -, hp', hx', hy'⟩ | ⟨hlast, hrow, hp', -⟩ := pixelDone_position hp hx hy
  · have hnext : (pixelDone s).pixelAddr = s.pixelAddr + 1 := by
      rw [State.pixelAddr, sampleAddr, hx', hy', pixelDone_jobW, haddr]
      omega
    rw [stepsLeft_of_pix hp', hnext, pixelDone_jobW, pixelDone_jobH]
    omega
  · have hnext : (pixelDone s).pixelAddr = s.pixelAddr + 1 := by
      rw [State.pixelAddr, sampleAddr, hx', hy', pixelDone_jobW, haddr, Nat.succ_mul]
      omega
    rw [stepsLeft_of_pix hp', hnext, pixelDone_jobW, pixelDone_jobH]
    omega
  · have hall : s.pixelAddr + 1 = s.jobW.toNat * s.jobH.toNat := by
      rw [haddr, ← hrow, Nat.mul_succ, Nat.mul_comm, ← hlast]
      omega
    rw [stepsLeft_of_fin hp']
    omega

theorem stepsLeft_of_engineTurn {s t : State} (hi : StateInv s) (hp : s.phase ≠ .idle)
    (he : engineTurn s = .next t) : t.stepsLeft + 1 = s.stepsLeft := by
  obtain ⟨hidle, -⟩ | ⟨hhdr, -, rfl⟩ | ⟨hpix, -, -, rfl⟩ | ⟨hfin, rfl⟩ := engineTurn_effect he
  · exact absurd hidle hp
  · obtain ⟨hx, hy, -⟩ := hi.position_of_hdr hhdr
    have hzero : (headerDone s).pixelAddr = 0 := by
      have hx' : (headerDone s).x = 0 := hx
      have hy' : (headerDone s).y = 0 := hy
      rw [State.pixelAddr, hx', hy', sampleAddr]
      simp
    have hpix : (headerDone s).phase = .pix := rfl
    rw [stepsLeft_of_hdr hhdr, stepsLeft_of_pix hpix, hzero]
    rfl
  · exact stepsLeft_pixelDone hi hpix
  · rw [stepsLeft_of_fin hfin, stepsLeft_of_idle rfl]

/-! ### On the way -/

/-- A state on the way of the job that runs in `s`: the engine alone has moved, and follows the rules. -/
structure OnTheWay (s u : State) : Prop where
  inv : StateInv u
  track : Track u
  sched : u.sched = []
  host : u.host = s.host
  jobCtrl : u.jobCtrl = s.jobCtrl
  jobW : u.jobW = s.jobW
  jobH : u.jobH = s.jobH
  src : u.src = s.src
  memEpoch : u.memEpoch = s.memEpoch
  hzSrc : u.hzSrc = s.hzSrc
  hzOut : u.hzOut = s.hzOut
  cmdIgn : u.status.cmdIgn = s.status.cmdIgn
  beyond : ∀ a, s.jobLen ≤ a → u.outByte a = s.outByte a

theorem OnTheWay.start {s : State} (hi : StateInv s) (ht : Track s) (hs : s.sched = []) : OnTheWay s s :=
  ⟨hi, ht, hs, rfl, rfl, rfl, rfl, rfl, rfl, rfl, rfl, rfl, fun _ _ => rfl⟩

theorem OnTheWay.engineTurn {s u v : State} (h : OnTheWay s u) (he : engineTurn u = .next v) : OnTheWay s v := by
  have hf := engineTurn_frame he
  have hlen : u.jobLen = s.jobLen := by rw [State.jobLen, h.jobCtrl, h.jobW, h.jobH, State.jobLen]
  exact {
    inv := h.inv.of_engineTurn he
    track := h.track.of_engineTurn h.inv he
    sched := (congrArg State.sched hf :).trans h.sched
    host := (congrArg State.host hf :).trans h.host
    jobCtrl := (congrArg State.jobCtrl hf :).trans h.jobCtrl
    jobW := (congrArg State.jobW hf :).trans h.jobW
    jobH := (congrArg State.jobH hf :).trans h.jobH
    src := (congrArg State.src hf :).trans h.src
    memEpoch := (congrArg State.memEpoch hf :).trans h.memEpoch
    hzSrc := (congrArg State.hzSrc hf :).trans h.hzSrc
    hzOut := (congrArg State.hzOut hf :).trans h.hzOut
    cmdIgn := (congrArg (·.status.cmdIgn) hf :).trans h.cmdIgn
    beyond := fun a ha => (engineWritesOnlyTheRecord u v a h.inv he (hlen ▸ ha)).trans (h.beyond a ha) }

/-- After n steps, as long as some are left, the run is on its way, with n steps fewer left. -/
theorem OnTheWay.run {s u : State} (h : OnTheWay s u) {n : Nat} (hn : n < u.stepsLeft) :
    ∃ v, core.run n u = .next v ∧ OnTheWay s v ∧ v.stepsLeft + n = u.stepsLeft := by
  induction n generalizing u with
  | zero => exact ⟨u, rfl, h, rfl⟩
  | succ n ih =>
    have hp : u.phase ≠ .idle := running_of_stepsLeft (by omega)
    obtain ⟨v, hv⟩ := h.inv.engineTurn_completes
    have hleft := stepsLeft_of_engineTurn h.inv hp hv
    obtain ⟨x, hx, hway, hxleft⟩ := ih (h.engineTurn hv) (by omega)
    refine ⟨x, ?_, hway, by omega⟩
    rw [run_succ ((step_of_running h.sched hp).trans hv), hx]

/-! ### From START to the end -/

/-- The state in which a job of START's CTRL and DIM ends. -/
structure JobEnd (s t : State) (rest : List HostOp) : Prop where
  phase : t.phase = .idle
  sched : t.sched = []
  host : t.host = rest
  status : t.status = { busy := false, done := true, err := false, cmdIgn := false, errCode := .none }
  outLen : t.outLen.toNat = recordLen (fmtOf s.ctrl) (widthOf s.dim).toNat (heightOf s.dim).toNat
  src : t.src = s.src
  hzSrc : t.hzSrc = s.hzSrc
  hzOut : t.hzOut = s.hzOut
  outByte : ∀ a, t.outByte a =
    if a < recordLen (fmtOf s.ctrl) (widthOf s.dim).toNat (heightOf s.dim).toNat then
      recordByte s.ctrl (widthOf s.dim).toNat (heightOf s.dim).toNat
        (refBit s.ctrl (widthOf s.dim).toNat s.srcByte) a
    else s.outByte a

/-- The job that an accepted START begins, with that line of the host's program used up. -/
def jobBegun (s : State) (rest : List HostOp) : State := { beginJob (startClear s) with host := rest }

theorem step_start {s : State} {rest : List HostOp} (hp : s.phase = .idle) (hs : s.sched = [])
    (hh : s.host = cmd 1 :: rest) : step s = exec .start { s with host := rest } := by
  obtain ⟨-, hcmd⟩ := stepRunsDecodedCommand s rest [] (.inr ⟨hs, rfl, hp⟩)
  rw [hcmd 1 .start hh rfl, ← hs]

theorem step_start_of_accepted {s : State} {rest : List HostOp} (hp : s.phase = .idle) (hs : s.sched = [])
    (hh : s.host = cmd 1 :: rest) (he : startError s.cfg s.ctrl s.dim = none) :
    step s = .next (jobBegun s rest) := by
  rw [step_start hp hs hh, exec_start_of_accepted (s := { s with host := rest }) hp he]
  rfl

theorem step_start_of_rejected {s : State} {rest : List HostOp} (hp : s.phase = .idle) (hs : s.sched = [])
    (hh : s.host = cmd 1 :: rest) {e : ErrCode} (he : startError s.cfg s.ctrl s.dim = some e) :
    step s = .next (raiseError e (startClear { s with host := rest })) := by
  rw [step_start hp hs hh, exec_start_of_rejected (s := { s with host := rest }) hp he]

/-- STEP_FIN of a job that has followed the rules ends it as R214 and R215 say. -/
theorem jobEnd_stepFin {s f : State} {rest : List HostOp} (h : OnTheWay (jobBegun s rest) f) (hp : f.phase = .fin) :
    JobEnd s (stepFin f) rest := by
  obtain ⟨-, -, -, -, -, hfit, -⟩ := h.inv.job (by simp [hp])
  obtain ⟨-, -, -, hout⟩ := h.inv.cfg
  obtain ⟨-, hdone, herr, hcode⟩ := (statusOk_iff_of_running (by simp [hp])).mp h.inv.status
  have hign : f.status.cmdIgn = false := h.cmdIgn
  have hctrl : f.jobCtrl = s.ctrl := h.jobCtrl
  have hw : f.jobW = widthOf s.dim := h.jobW
  have hh : f.jobH = heightOf s.dim := h.jobH
  have hsrc : f.srcByte = s.srcByte := funext fun a => srcByte_congr h.src h.memEpoch a
  have hlen : f.jobLen = recordLen (fmtOf s.ctrl) (widthOf s.dim).toNat (heightOf s.dim).toNat := by
    rw [State.jobLen, hctrl, hw, hh]
  have hbit : f.jobBit = refBit s.ctrl (widthOf s.dim).toNat s.srcByte := by
    funext x y
    rw [State.jobBit, hctrl, hw, hsrc]
  refine ⟨rfl, h.sched, h.host, ?_, ?_, h.src, h.hzSrc, h.hzOut, fun a => ?_⟩
  · simp only [stepFin_status, herr, hign, hcode]
  · rw [stepFin_outLen, BitVec.toNat_ofNat, Nat.mod_eq_of_lt (by omega), hlen]
  · have hbyte : (stepFin f).outByte a = f.outByte a := outByte_congr rfl rfl a
    rw [hbyte, ← hlen]
    split_ifs with ha
    · rw [h.track.whole hp a ha, State.jobRecord, hctrl, hw, hh, hbit]
    · have hlen' : (jobBegun s rest).jobLen = f.jobLen := hlen.symm
      exact h.beyond a (by omega)

section

variable {s : State} {rest : List HostOp} (hi : StateInv s) (hp : s.phase = .idle) (hs : s.sched = [])
  (hh : s.host = cmd 1 :: rest) (he : startError s.cfg s.ctrl s.dim = none)
include hi hp hs hh he

theorem onTheWay_jobBegun : OnTheWay (jobBegun s rest) (jobBegun s rest) := by
  have hinv : StateInv (jobBegun s rest) := hi.of_step (step_start_of_accepted hp hs hh he)
  have htrack : Track (jobBegun s rest) := (track_beginJob (startClear s)).of_host_registers ..
  exact OnTheWay.start hinv htrack hs

/-- While some of its W*H + 2 engine steps are left, the job is on its way. -/
theorem run_of_accepted {n : Nat} (h1 : 1 ≤ n) (hn : n ≤ (widthOf s.dim).toNat * (heightOf s.dim).toNat + 2) :
    ∃ u, core.run n s = .next u ∧ OnTheWay (jobBegun s rest) u ∧
      u.stepsLeft + n = (widthOf s.dim).toNat * (heightOf s.dim).toNat + 3 := by
  obtain ⟨n, rfl⟩ := Nat.exists_eq_add_of_le' h1
  have hleft : (jobBegun s rest).stepsLeft = (widthOf s.dim).toNat * (heightOf s.dim).toNat + 2 := rfl
  obtain ⟨u, hu, hway, hsteps⟩ := (onTheWay_jobBegun hi hp hs hh he).run (n := n) (by omega)
  exact ⟨u, (run_succ (step_start_of_accepted hp hs hh he) n).trans hu, hway, by omega⟩

/-- After them it has ended. -/
theorem run_to_jobEnd : ∃ t, core.run ((widthOf s.dim).toNat * (heightOf s.dim).toNat + 3) s = .next t ∧
    JobEnd s t rest := by
  obtain ⟨f, hf, hway, hsteps⟩ := run_of_accepted hi hp hs hh he (Nat.succ_pos _) le_rfl
  have hfin : f.phase = .fin := hway.inv.fin_of_stepsLeft (by omega)
  have hstep : step f = .next (stepFin f) :=
    (step_of_running hway.sched (by simp [hfin])).trans (engineTurn_fin hfin)
  exact ⟨stepFin f, (run_add hf 1).trans (run_succ hstep 0), jobEnd_stepFin hway hfin⟩

end

/-- Settles O58: START passes its checks, W*H + 2 engine steps are left after it, and the last of them is STEP_FIN. -/
theorem jobRunsToItsRecord : Obligations.JobRunsToItsRecord := by
  intro s rest hi hp hs hh w h l hw1 hh1 hmax hfmt hsrc hout
  have he := startError_of_fits hw1 hh1 hmax hfmt hsrc hout
  refine ⟨fun n h1 hn => ?_, ?_⟩
  · obtain ⟨u, hu, -, hsteps⟩ := run_of_accepted hi hp hs hh he h1 hn
    have hwh : w * h = (widthOf s.dim).toNat * (heightOf s.dim).toNat := rfl
    exact ⟨u, hu, running_of_stepsLeft (by omega)⟩
  · obtain ⟨t, ht, hend⟩ := run_to_jobEnd hi hp hs hh he
    exact ⟨t, ht, hend.phase, hend.status, hend.outLen, hend.host, hend.src, hend.hzSrc, hend.hzOut, hend.outByte⟩

/-- A run that ends with DONE, where START is the host's only line, has ended its job. -/
theorem jobEnd_of_done {s t : State} {n : Nat} (hi : StateInv s) (hp : s.phase = .idle) (hs : s.sched = [])
    (hh : s.host = [cmd 1]) (hrun : core.run n s = .next t) (hdone : t.status.done = true) (hn : 1 ≤ n) :
    startError s.cfg s.ctrl s.dim = none ∧ (widthOf s.dim).toNat * (heightOf s.dim).toNat + 3 ≤ n := by
  cases he : startError s.cfg s.ctrl s.dim with
  | some e =>
    obtain ⟨n, rfl⟩ := Nat.exists_eq_add_of_le' hn
    have hquiet := run_of_quiet (s := raiseError e (startClear { s with host := [] })) hp hs rfl n
    obtain rfl := Host.Outcome.next.inj
      (hquiet.symm.trans ((run_succ (step_start_of_rejected hp hs hh he) n).symm.trans hrun))
    cases hdone
  | none =>
    refine ⟨rfl, ?_⟩
    by_contra hlt
    obtain ⟨u, hu, hway, hsteps⟩ := run_of_accepted hi hp hs hh he hn (by omega)
    obtain rfl : u = t := Host.Outcome.next.inj (hu.symm.trans hrun)
    have hrunning := running_of_stepsLeft (s := u) (by omega)
    obtain ⟨-, hd, -⟩ := (statusOk_iff_of_running hrunning).mp hway.inv.status
    rw [hd] at hdone
    cases hdone

/-- Once its job has ended, such a run stays in that state. -/
theorem jobEnd_of_run {s t : State} {n : Nat} (hi : StateInv s) (hp : s.phase = .idle) (hs : s.sched = [])
    (hh : s.host = [cmd 1]) (he : startError s.cfg s.ctrl s.dim = none)
    (hn : (widthOf s.dim).toNat * (heightOf s.dim).toNat + 3 ≤ n) (hrun : core.run n s = .next t) :
    JobEnd s t [] := by
  obtain ⟨m, rfl⟩ := Nat.exists_eq_add_of_le hn
  obtain ⟨u, hu, hend⟩ := run_to_jobEnd hi hp hs hh he
  rw [run_add hu, run_of_quiet hend.phase hend.sched hend.host] at hrun
  cases hrun
  exact hend

/-- Settles O59: the state in which a job ends is a function of CTRL, DIM and the SRC bytes, as far as STATUS, OUT_LEN
and the record go. -/
theorem restartGivesTheSameRecord : Obligations.RestartGivesTheSameRecord := by
  intro s s' t t' n hi hi' hp hp' hs hs' hh hh' hcfg hctrl hdim hsrc hrun hrun' hdone hn
  obtain ⟨he, hlong⟩ := jobEnd_of_done hi hp hs hh hrun hdone hn
  have hend := jobEnd_of_run hi hp hs hh he hlong hrun
  have hend' := jobEnd_of_run hi' hp' hs' hh' (hcfg ▸ hctrl ▸ hdim ▸ he) (hdim ▸ hlong) hrun'
  have hbytes : s'.srcByte = s.srcByte := funext fun a => (hsrc a).symm
  refine ⟨hend'.status.trans hend.status.symm, BitVec.eq_of_toNat_eq ?_, fun a ha => ?_⟩
  · rw [hend'.outLen, hend.outLen, hctrl, hdim]
  · rw [hend.outLen] at ha
    rw [hend'.outByte, hend.outByte, if_pos ha, ← hctrl, ← hdim, if_pos ha, hbytes]

end Sys2Proof.Machine
